-- ==== Sys2Proof/Word.lean ====
section
/-! DEFINITION. The two word types of the block (spec/00_scope.md R6, R8). -/

namespace Sys2Proof

/-- The data unit of every queue, every UART transfer and every byte operand (R6). -/
abbrev Byte := BitVec 8

/-- A call-gate command word, a result value or a diagnostic counter: `W_CMD`, `W_RES` and `CNTW` are all 32 (R8). -/
abbrev Word := BitVec 32

end Sys2Proof
end

