-- ==== Sys2Proof/Config.lean ====
section
/-! DEFINITION. What the spec leaves to the implementation (parameters) and the free values, all without a body, so that
nothing in Lean can compute them and a claim holds whatever they are. -/

namespace Sys2Proof.Config

/-- The largest capacity a queue may be built with: `2^W_RES - 1` (R5, D21). -/
def maxCapacity : Nat := 4294967295

/-- One less than the OPEN capacity `C_TX` (R5, D21, U17); the type keeps `1 ≤ C_TX ≤ 2^32 - 1`. -/
opaque capTxLess1 : Fin 4294967295

/-- One less than the OPEN capacity `C_RX` (R5, D21, U17). -/
opaque capRxLess1 : Fin 4294967295

/-- `C_TX`, the capacity of the tx-queue (R5). -/
def capTx : Nat := capTxLess1.val + 1

/-- `C_RX`, the capacity of the rx-queue (R5). -/
def capRx : Nat := capRxLess1.val + 1

/-- `VERSION_MAJOR`, an OPEN constant of the implementation (R9, D21). -/
opaque versionMajor : Byte

/-- `VERSION_MINOR`, an OPEN constant of the implementation (R9, D21). -/
opaque versionMinor : Byte

/-- The free draws of 8 bits (`unspecified_8`, spec/00_scope.md section 5.3; U2, U3), one for each value of the draw
counter. -/
opaque unspecified8 : Nat → Byte

/-- The free draws of 32 bits (`unspecified_32`; U4), one for each value of the draw counter. -/
opaque unspecified32 : Nat → Word

/-- `IW(C)`, the width of an index register of a queue of capacity `C` (R7, D12). The model holds indices as naturals,
as R7 allows; this width is what the hardware register needs. -/
def indexWidth (C : Nat) : Nat := max 1 (Nat.clog 2 C)

/-- `CW(C)`, the width of the occupancy register of a queue of capacity `C` (R7, D12). -/
def occWidth (C : Nat) : Nat := Nat.clog 2 (C + 1)

end Sys2Proof.Config
end

