-- ==== Sys2Proof/Syntax.lean ====
section
/-! DEFINITION. The operations of the block, one constructor for each row of spec/opcode_table.json, and the three ways
an operation is carried (spec/30_encoding.md section 1). -/

namespace Sys2Proof

/-- The two execution contexts (R118): the foreground and the interrupt handler. -/
inductive Agent where
  | fg
  | ih
deriving DecidableEq, Repr

/-- The two ring-buffer instances of the line (R2). -/
inductive Queue where
  | tx
  | rx
deriving DecidableEq, Repr

/-- The one agent that may push into `q`, bound for the device's lifetime (R71). -/
def Queue.producer : Queue → Agent
  | .tx => .fg
  | .rx => .ih

/-- The one agent that may pop from `q`, bound for the device's lifetime (R71). -/
def Queue.consumer : Queue → Agent
  | .tx => .ih
  | .rx => .fg

/-- The operations. A ring-buffer push or pop names the agent that drives the port, so that a use outside the role
binding of R71 can be written and refused (U1). -/
inductive Instr where
  /-- `VERSION` (R77). -/
  | version
  /-- `PUT_CHAR sid, b` (R79). -/
  | putChar (sid b : Byte)
  /-- `GET_CHAR sid` (R80). -/
  | getChar (sid : Byte)
  /-- `CHARS_AVAILABLE sid` (R81). -/
  | charsAvailable (sid : Byte)
  /-- `INVALID_OP`: the command word `w`, which names no operation (R47, R78). -/
  | invalidOp (w : Word)
  /-- `RB.INIT(q)` (R60). -/
  | rbInit (q : Queue)
  /-- `RB.PUSH(q, b)`, the producer port driven by agent `a` (R61). -/
  | rbPush (a : Agent) (q : Queue) (b : Byte)
  /-- `RB.POP(q)`, the consumer port driven by agent `a` (R62). -/
  | rbPop (a : Agent) (q : Queue)
  /-- `RB.USED(q)` (R63). -/
  | rbUsed (q : Queue)
  /-- `RB.FREE(q)` (R64). -/
  | rbFree (q : Queue)
  /-- `IH.INVOKE` (R90). -/
  | ihInvoke
  /-- `IH.TXDUTY` (R91). -/
  | ihTxduty
  /-- `IH.RXDUTY` (R92). -/
  | ihRxduty
deriving DecidableEq, Repr

/-- What the ports of a ring-buffer instance carry (R53). A push is nine bits, the strobe above the byte; an init or a
pop is its strobe alone; the two status outputs carry no request. -/
inductive PortSignal where
  | init (q : Queue) (strobe : BitVec 1)
  | push (driver : Agent) (q : Queue) (bits : BitVec 9)
  | pop (driver : Agent) (q : Queue) (strobe : BitVec 1)
  | used (q : Queue)
  | free (q : Queue)
deriving DecidableEq, Repr

/-- The handler steps, which have no encoding (R54). -/
inductive HandlerEvent where
  | invoke
  | txduty
  | rxduty
deriving DecidableEq, Repr

/-- The carriers of spec/30_encoding.md section 1: a command word, a port, or the interrupt event. -/
inductive Signal where
  | word (w : Word)
  | port (p : PortSignal)
  | event (e : HandlerEvent)
deriving DecidableEq, Repr

/-- The `format` column of spec/opcode_table.json. -/
inductive Format where
  | cg
  | rbR
  | rbP
  | rbC
  | rbS
  | event
deriving DecidableEq, Repr

/-- The format of each operation's row in spec/opcode_table.json. -/
def Instr.format : Instr → Format
  | .version => .cg
  | .putChar _ _ => .cg
  | .getChar _ => .cg
  | .charsAvailable _ => .cg
  | .invalidOp _ => .cg
  | .rbInit _ => .rbR
  | .rbPush _ _ _ => .rbP
  | .rbPop _ _ => .rbC
  | .rbUsed _ => .rbS
  | .rbFree _ => .rbS
  | .ihInvoke => .event
  | .ihTxduty => .event
  | .ihRxduty => .event

/-- The format of what is carried (R53, R54). -/
def Signal.format : Signal → Format
  | .word _ => .cg
  | .port (.init _ _) => .rbR
  | .port (.push _ _ _) => .rbP
  | .port (.pop _ _ _) => .rbC
  | .port (.used _) => .rbS
  | .port (.free _) => .rbS
  | .event _ => .event

end Sys2Proof
end

