-- ==== Sys2Proof/WellFormed.lean ====
section
/-! DEFINITION. Which instruction terms stand for something the spec describes. -/

namespace Sys2Proof

/-- The `match` values of the four operations of the source; every CG row has the mask `0xFF0000FF` (R48). -/
def operationMatches : List Word := [0x00000000, 0x00000002, 0x00000003, 0x00000004]

/-- The word matches no row of the source's four operations (R47: `RSV ≠ 0`, `OP = 1` or `OP ≥ 5`). -/
def reservedWord (w : Word) : Bool := !operationMatches.contains (w &&& 0xFF0000FF)

/-- An `INVALID_OP` carries a word of the reserved space; a push is driven by the producer of its queue and a pop by its
consumer (R71). Every stream id is well formed: it is validated by the operation, not by decode (R48, R76). -/
def Instr.wellFormed : Instr → Bool
  | .version => true
  | .putChar _ _ => true
  | .getChar _ => true
  | .charsAvailable _ => true
  | .invalidOp w => reservedWord w
  | .rbInit _ => true
  | .rbPush a q _ => decide (a = q.producer)
  | .rbPop a q => decide (a = q.consumer)
  | .rbUsed _ => true
  | .rbFree _ => true
  | .ihInvoke => true
  | .ihTxduty => true
  | .ihRxduty => true

end Sys2Proof
end

