-- ==== Sys2Proof/Decode.lean ====
section
/-! DEFINITION. The decoder and the encoder (spec/30_encoding.md). -/

namespace Sys2Proof

/-- `OP = CMD[7:0]`, the operation number (R45). -/
def opField (w : Word) : Byte := w.extractLsb' 0 8

/-- `STREAM = CMD[15:8]`, the stream identifier (R45, R52). -/
def streamField (w : Word) : Byte := w.extractLsb' 8 8

/-- `DATA = CMD[23:16]`, the byte of PUT_CHAR (R45, R51). -/
def dataField (w : Word) : Byte := w.extractLsb' 16 8

/-- `RSV = CMD[31:24]`, which must be zero (R45, R47). -/
def rsvField (w : Word) : Byte := w.extractLsb' 24 8

/-- The decoder of a command word, in the order of R47: reserved bits, then the operation number. It is total. -/
def decodeCommand (w : Word) : Instr :=
  if rsvField w ≠ 0 then .invalidOp w
  else if opField w = 0 then .version
  else if opField w = 2 then .putChar (streamField w) (dataField w)
  else if opField w = 3 then .getChar (streamField w)
  else if opField w = 4 then .charsAvailable (streamField w)
  else .invalidOp w

/-- Why nothing is decoded from a signal. -/
inductive DecodeRefusal where
  /-- The port's strobe is low: no operation is requested (R53). -/
  | noStrobe
deriving DecidableEq, Repr

/-- The decoder of a port (R53): the strobe must be high; a push carries its byte below the strobe. -/
def decodePort : PortSignal → Except DecodeRefusal Instr
  | .init q strobe => if strobe = 1 then .ok (.rbInit q) else .error .noStrobe
  | .push a q bits => if bits.extractLsb' 8 1 = 1#1 then .ok (.rbPush a q (bits.extractLsb' 0 8)) else .error .noStrobe
  | .pop a q strobe => if strobe = 1 then .ok (.rbPop a q) else .error .noStrobe
  | .used q => .ok (.rbUsed q)
  | .free q => .ok (.rbFree q)

/-- The handler step an interrupt event starts (R54). -/
def decodeEvent : HandlerEvent → Instr
  | .invoke => .ihInvoke
  | .txduty => .ihTxduty
  | .rxduty => .ihRxduty

/-- The decoder of any carrier. A handler step comes from an event only, a ring-buffer operation from a port only
(R53, R54). -/
def decode : Signal → Except DecodeRefusal Instr
  | .word w => .ok (decodeCommand w)
  | .port p => decodePort p
  | .event e => .ok (decodeEvent e)

/-- A command word from its four fields, most significant first (R45). -/
def commandWord (rsv data stream op : Byte) : Word := rsv ++ data ++ stream ++ op

/-- The encoder: fields an operation does not use are zero (R56). -/
def encode : Instr → Signal
  | .version => .word (commandWord 0 0 0 0)
  | .putChar sid b => .word (commandWord 0 b sid 2)
  | .getChar sid => .word (commandWord 0 0 sid 3)
  | .charsAvailable sid => .word (commandWord 0 0 sid 4)
  | .invalidOp w => .word w
  | .rbInit q => .port (.init q 1)
  | .rbPush a q b => .port (.push a q (1#1 ++ b))
  | .rbPop a q => .port (.pop a q 1)
  | .rbUsed q => .port (.used q)
  | .rbFree q => .port (.free q)
  | .ihInvoke => .event .invoke
  | .ihTxduty => .event .txduty
  | .ihRxduty => .event .rxduty

/-- The port signal that a bare pattern of a ring-buffer row stands for when no port is named: nine bits are the
producer port and one bit the consumer port of `tx`, each driven by the agent R71 binds (DESIGN CHOICE, log 19: the
table's pattern names no instance, and the one-bit patterns of RB.INIT and RB.POP are the same). -/
def tablePort (nbits w : Nat) : Option PortSignal :=
  match nbits with
  | 9 => if w < 512 then some (.push .fg .tx (BitVec.ofNat 9 w)) else none
  | 16 => if w < 512 then some (.push .fg .tx (BitVec.ofNat 9 w)) else none
  | 1 => if w < 2 then some (.pop .ih .tx (BitVec.ofNat 1 w)) else none
  | 8 => if w < 2 then some (.pop .ih .tx (BitVec.ofNat 1 w)) else none
  | _ => none

/-- The signal that a table word stands for: 32 bits are a command word, the short patterns a port. -/
def tableSignal (nbits w : Nat) : Option Signal :=
  match nbits with
  | 32 => some (.word (BitVec.ofNat 32 w))
  | n => (tablePort n w).map .port

/-- The instruction the decoder reads from a table word (the host's numbering: bit 0 is the least significant). -/
def decodeTableWord (nbits w : Nat) : Option Instr :=
  match tableSignal nbits w with
  | some x => (decode x).toOption
  | none => none

end Sys2Proof
end

