-- ==== Sys2Proof/Machine/State.lean ====
section
/-! DEFINITION. The state of the block and of its surroundings, plain data, and the state after reset
(spec/10_state.md; every field is listed in INVENTORY.md under State). -/

namespace Sys2Proof.Machine

/-- One ring-buffer instance `q` (R10 to R13). Indices and the occupancy are naturals, as R7 allows. -/
structure Ring where
  /-- `C(q)`, fixed at construction and never changed (R5, R23). -/
  cap : Nat
  /-- `q.wr`, the write index (R11). -/
  wr : Nat
  /-- `q.rd`, the read index (R12). -/
  rd : Nat
  /-- `q.occ`, the occupancy counter, a stored third register (R13). -/
  occ : Nat
  /-- `q.mem`, the storage (R10): the slots that were ever written, indices strictly rising (Memory.wf). -/
  mem : List Host.Cell
  /-- The model's record that RB.INIT has been performed on this instance (R131, R132; log 10). -/
  ready : Bool
deriving DecidableEq, Repr

/-- `fg.phase`: the foreground's position inside CG.PUT_CHAR (R21). -/
inductive Phase where
  | idle
  | putArm
deriving DecidableEq, Repr

/-- The foreground. -/
structure Foreground where
  /-- `fg.phase` (R21). -/
  phase : Phase
  /-- `fg.pend`: while in PUT_ARM, the free-slot value not yet delivered (R21). -/
  pend : Word
  /-- The command words still to be issued; the head is the word at the gate and stays there until it has responded
  (R21, R75; the model's own field, log 6). -/
  cmds : List Word
deriving DecidableEq, Repr

/-- The interrupt context. -/
structure Handler where
  /-- `ih.active`: an invocation is executing (R22). -/
  active : Bool
deriving DecidableEq, Repr

/-- ENV, the UART oracle, as the answers it gives until a turn of ENV changes them (R95, R96; the model's own, log 8). -/
structure Env where
  /-- The answer to `is_writable()`. -/
  writable : Bool
  /-- The bytes `read_byte()` gives before `is_readable()` answers false. -/
  rxq : List Byte
  /-- `is_readable()` never answers false: assumption E2 of R96 fails (U8; log 9). -/
  endless : Bool
deriving DecidableEq, Repr

/-- The status codes (R50). -/
inductive Stat where
  | ok
  | empty
  | invalidStream
  | invalidOp
deriving DecidableEq, Repr

/-- One response `(STAT, RES)` (R49), with the command it answers. -/
structure Reply where
  cmd : Instr
  stat : Stat
  res : Word
deriving DecidableEq, Repr

/-- What the ports of a ring buffer answer (R53) to an RB operation issued as an instruction. -/
inductive PortReply where
  | freeAfter (q : Queue) (n : Nat)
  | popped (q : Queue) (b : Byte) (ok : Bool)
  | used (q : Queue) (n : Nat)
  | free (q : Queue) (n : Nat)
deriving DecidableEq, Repr

/-- What an observer sees (R95, R143), oldest first; observation traces, not state of the block (log 17). -/
structure Obs where
  /-- The responses of the call gate. -/
  replies : List Reply
  /-- The responses of ring-buffer ports driven by RB instructions. -/
  ports : List PortReply
  /-- `wire_tx`: the bytes given to the hardware (R95). -/
  wireTx : List Byte
  /-- `wire_rx`: the bytes read from the hardware (R95). -/
  wireRx : List Byte
deriving DecidableEq, Repr

/-- A change of ENV's answers between two steps (R95, R97). -/
inductive EnvEvent where
  /-- `ENV.RX b`: a byte arrives (R97). -/
  | rx (b : Byte)
  /-- `ENV.WRITABLE v` (R97). -/
  | writable (v : Bool)
  /-- Any other answers to the coming readability queries (R143: "any answers, any bytes, changing between any two
  queries"). -/
  | answers (bytes : List Byte) (endless : Bool)
deriving DecidableEq, Repr

/-- One turn of the schedule: which agent takes the next atomic step (R21, R115, R143). -/
inductive Turn where
  /-- The foreground takes its next atomic step. -/
  | fg
  /-- The platform starts a handler invocation, or one duty alone (C3, D16). -/
  | event (e : HandlerEvent)
  /-- ENV's answers change. -/
  | env (e : EnvEvent)
  /-- A ring-buffer port is driven from outside the gate and the handler: refused unless the ports are brought out
  (R53, R143; log 12). -/
  | port (p : PortSignal)
  /-- The platform resets the block (R130, R143). -/
  | reset
deriving DecidableEq, Repr

/-- The whole state. -/
structure State where
  /-- The tx-queue. -/
  tx : Ring
  /-- The rx-queue. -/
  rx : Ring
  /-- `TXIE` (R16). -/
  txie : Bool
  /-- `RXIE` (R17). -/
  rxie : Bool
  /-- `txcount` (R18). -/
  txcount : Word
  /-- `rxcount` (R18). -/
  rxcount : Word
  fg : Foreground
  ih : Handler
  env : Env
  obs : Obs
  /-- Reset (R130) has produced this block's state, so that its operations have a meaning (R131; the model's own record,
  log 10). -/
  inOperation : Bool
  /-- The ring-buffer ports are brought out, so that an instance can be driven by itself, as in vectors S1 and V1 to V5.
  In the block they are not: the gate and the handler alone drive them (R53, R143; the model's own field, log 12). -/
  portsOut : Bool
  /-- The number of free draws made so far (the model's own, log 5). -/
  draws : Nat
  /-- The turns still to come (the model's own, log 6). -/
  sched : List Turn
deriving DecidableEq, Repr

/-- Why a step stops with a fault. -/
inductive Fault where
  /-- Raised by the receive duty when ENV never answers not-readable: the hang of U8, in which the foreground takes no
  further step. Safe: the spec describes an endless step, the model stops. -/
  | receiveHang
  /-- Raised by a push or a pop whose index is not below `C(q)`: no such byte exists (R31). Safe: no state that
  satisfies R14 raises it. -/
  | indexOutOfRange (q : Queue) (i : Nat)
deriving DecidableEq, Repr

/-- Why a step is given no meaning. Each is a `refuse` of the spec, or a move the spec says its party never makes. -/
inductive Refusal where
  /-- The instruction has no meaning in the model; raised by `exec` alone. Safe. -/
  | notModelled (mnemonic : String)
  /-- A push not by the producer of `q`, or a pop not by its consumer (U1, R38, R71). Safe. -/
  | roleViolation (a : Agent) (q : Queue)
  /-- An operation on a state that reset did not produce (U5, R131). Safe. -/
  | notReset
  /-- A second RB.INIT or reset (U6, R132). Safe. -/
  | secondInit (q : Queue)
  /-- A capacity of 0, or one that a result value cannot hold (U14, R5). Safe. -/
  | badCapacity (q : Queue)
  /-- `write_byte` while the hardware is not writable (U7, R95); the handler's guard makes it unreachable. Safe. -/
  | uartNotWritable
  /-- `read_byte` while the hardware is not readable (U7, R95); the handler's guard makes it unreachable. Safe. -/
  | uartNotReadable
  /-- A ring-buffer port driven from outside the gate and the handler (R53, R143 "assumed never": an access other than
  a command). Safe. -/
  | portAccess (p : PortSignal)
  /-- A command other than the PUT_CHAR in flight, before that one has responded (R75, R143 "assumed never"). Safe. -/
  | commandInFlight
  /-- A step of the foreground while a handler invocation is executing (R22, R117), or a call-gate command from the
  interrupt context (U1). Safe. -/
  | foregroundSuspended
  /-- A handler invocation inside another (R22, R119, R143 "assumed never"). Safe. -/
  | nestedInvocation
deriving DecidableEq, Repr

/-- A ring buffer of capacity `C` right after RB.INIT, its storage never written (R25, R60). -/
def freshRing (C : Nat) : Ring :=
  { cap := C, wr := 0, rd := 0, occ := 0, mem := [], ready := true }

/-- The state after reset of a block built with the capacities `Ctx` and `Crx` (R25, R130). The surroundings are the
reference stub of R97 with no command and no turn waiting (logs 6 and 8); the ports are not brought out (log 12);
`fg.pend` and `draws` are the model's choice (logs 3 and 5). -/
def State.resetWith (Ctx Crx : Nat) : State where
  tx := freshRing Ctx
  rx := freshRing Crx
  txie := false
  rxie := true
  txcount := 0
  rxcount := 0
  fg := { phase := .idle, pend := 0, cmds := [] }
  ih := { active := false }
  env := { writable := true, rxq := [], endless := false }
  obs := { replies := [], ports := [], wireTx := [], wireRx := [] }
  inOperation := true
  portsOut := false
  draws := 0
  sched := []

/-- The machine right after reset, its capacities the OPEN parameters (R25, D21). -/
def State.reset : State := State.resetWith Config.capTx Config.capRx

end Sys2Proof.Machine
end

