-- ==== Sys2Proof/Machine/Flags.lean ====
section
/-! DEFINITION. The block's flags: the value IH.TXDUTY stores into TXIE, ENV's two answers, and the interrupt request
(spec/10_state.md R16 to R19, spec/60_exceptions.md R112). There are no condition codes. -/

namespace Sys2Proof.Machine

/-- `(q.occ != 0)`, the value the transmit duty stores into TXIE (R91). -/
def Ring.nonEmpty (r : Ring) : Bool := decide (r.occ ≠ 0)

/-- `ENV.is_writable()` (R95). -/
def envIsWritable (s : State) : Bool := s.env.writable

/-- `ENV.is_readable()` (R95). -/
def envIsReadable (s : State) : Bool := s.env.endless || !s.env.rxq.isEmpty

/-- The interrupt request, a level that is not stored (R112). -/
def irq (s : State) : Bool := (s.txie && envIsWritable s) || (s.rxie && envIsReadable s)

/-- The block's state was produced by reset (R130, R131): initialising the two instances alone is not enough. -/
def isReset (s : State) : Bool := s.inOperation

end Sys2Proof.Machine
end

