-- ==== Sys2Proof/Machine/Memory.lean ====
section
/-! DEFINITION. The storage of a ring buffer (spec/10_state.md R10, spec/20_memory.md R30): a list of (index, byte)
pairs. An index that is not listed was never written and has no value (U3; log 4). -/

namespace Sys2Proof.Machine

/-- The canonical form: indices strictly rising. (An unlisted index has no value, so no entry can equal it.) -/
abbrev Memory.wf (m : List Host.Cell) : Prop := m.Pairwise fun x y => x.1 < y.1

/-- The byte at index `i`, if it was ever written: `MemRead(q, i, 1)`. -/
def Memory.read : List Host.Cell → Nat → Option Byte
  | [], _ => none
  | (j, b) :: m, i => if j = i then some b else Memory.read m i

/-- `MemWrite(q, i, 1, v)`. -/
def Memory.write : List Host.Cell → Nat → Byte → List Host.Cell
  | [], i, v => [(i, v)]
  | (j, b) :: m, i, v =>
    if i < j then (i, v) :: (j, b) :: m
    else if i = j then (i, v) :: m
    else (j, b) :: Memory.write m i v

end Sys2Proof.Machine
end

