-- ==== Sys2Proof/Machine/Operands.lean ====
section
/-! DEFINITION. Operand and result assembly of the call gate (spec/30_encoding.md section 2). -/

namespace Sys2Proof.Machine

/-- `sid ∈ STREAMS` with `STREAMS = {0}` (R4, R52). -/
def validStream (sid : Byte) : Bool := sid == 0

/-- A count as a result value, `zext_32(n)` (R51). -/
def countWord (n : Nat) : Word := BitVec.ofNat 32 n

/-- A byte as a result value, `zext_32(b)` (R51). -/
def byteWord (b : Byte) : Word := b.zeroExtend 32

/-- The VERSION result `zext_32(major : minor)` (R33, R51). -/
def versionWord (major minor : Byte) : Word := (major ++ minor).zeroExtend 32

/-- The 2-bit code of a status (R50). -/
def Stat.code : Stat → BitVec 2
  | .ok => 0
  | .empty => 1
  | .invalidStream => 2
  | .invalidOp => 3

end Sys2Proof.Machine
end

