-- ==== Sys2Proof/Machine/Ops.lean ====
section
/-! DEFINITION. The operations the meanings share: the ring-buffer primitive (spec/40_ring_buffer.md), the calls to the
UART and the two handler duties (spec/42_interrupt_handler.md), responses (spec/30_encoding.md R49), handler entry and
return (spec/60_exceptions.md R117, R119), and reset (spec/70_reset_and_hazards.md R130). -/

namespace Sys2Proof.Machine

/-- The answer of an operation that may stop. -/
abbrev Res (α : Type) := Host.Outcome α Fault Refusal

/-- Sequencing inside one atomic step. -/
def andThen {α β : Type} (o : Res α) (f : α → Res β) : Res β :=
  match o with
  | .next a => f a
  | .fault r => .fault r
  | .refused r => .refused r

/-! ### Registers -/

def State.ring (s : State) : Queue → Ring
  | .tx => s.tx
  | .rx => s.rx

def State.setRing (s : State) (q : Queue) (r : Ring) : State :=
  match q with
  | .tx => { s with tx := r }
  | .rx => { s with rx := r }

/-! ### Free draws (spec/00_scope.md section 5.3) -/

/-- `unspecified_8`: a free byte, and the counter moved on. -/
def draw8 (s : State) : Byte × State := (Config.unspecified8 s.draws, { s with draws := s.draws + 1 })

/-- `unspecified_32`: a free word, and the counter moved on. -/
def draw32 (s : State) : Word × State := (Config.unspecified32 s.draws, { s with draws := s.draws + 1 })

/-! ### The ring buffer -/

/-- Circular advance: the successor of an index modulo the capacity (R65). -/
def advance (C i : Nat) : Nat := (i + 1) % C

/-- The registers RB.INIT writes; the storage is not written (R60). -/
def Ring.cleared (r : Ring) : Ring := { r with wr := 0, rd := 0, occ := 0, ready := true }

/-- The ring after an accepted push of `b` (R61). -/
def Ring.pushed (r : Ring) (b : Byte) : Ring :=
  { r with mem := Memory.write r.mem r.wr b, wr := advance r.cap r.wr, occ := r.occ + 1 }

/-- The ring after a successful pop; the storage keeps the byte (R62, R34). -/
def Ring.popped (r : Ring) : Ring := { r with rd := advance r.cap r.rd, occ := r.occ - 1 }

/-- RB.INIT(q) (R60): performed once, never in operation (R132, U6), on a capacity that can be built (R5, U14). -/
def initRing (q : Queue) (s : State) : Res State :=
  if (s.ring q).ready || isReset s then .refused (.secondInit q)
  else if (s.ring q).cap = 0 ∨ Config.maxCapacity < (s.ring q).cap then .refused (.badCapacity q)
  else .next (s.setRing q (s.ring q).cleared)

/-- RB.PUSH(q, b), with `free_after` (R61). -/
def pushRing (q : Queue) (b : Byte) (s : State) : Res (Nat × State) :=
  let r := s.ring q
  if isReset s = false then .refused .notReset
  else if r.occ = r.cap then .next (0, s)
  else if r.wr < r.cap then .next (r.cap - (r.occ + 1), s.setRing q (r.pushed b))
  else .fault (.indexOutOfRange q r.wr)

/-- RB.POP(q), with the byte and `ok` (R62). The byte of an empty pop is a free draw (U2), and so is the byte of a slot
that was never written, which no run pops (U3). -/
def popRing (q : Queue) (s : State) : Res (Byte × Bool × State) :=
  let r := s.ring q
  if isReset s = false then .refused .notReset
  else if r.occ = 0 then .next ((draw8 s).1, false, (draw8 s).2)
  else if r.rd < r.cap then
    match Memory.read r.mem r.rd with
    | some b => .next (b, true, s.setRing q r.popped)
    | none => .next ((draw8 s).1, true, (draw8 s).2.setRing q r.popped)
  else .fault (.indexOutOfRange q r.rd)

/-- RB.USED(q) (R63). -/
def usedRing (q : Queue) (s : State) : Res Nat :=
  if isReset s = false then .refused .notReset else .next (s.ring q).occ

/-- RB.FREE(q) (R64). -/
def freeRing (q : Queue) (s : State) : Res Nat :=
  if isReset s = false then .refused .notReset else .next ((s.ring q).cap - (s.ring q).occ)

/-! ### The UART (R95) -/

/-- `ENV.write_byte(b)`, only while writable (U7): `b` is appended to `wire_tx`. -/
def envWriteByte (b : Byte) (s : State) : Res State :=
  if envIsWritable s then .next { s with obs := { s.obs with wireTx := s.obs.wireTx ++ [b] } }
  else .refused .uartNotWritable

/-- The byte `b` is consumed from ENV, which is left with `rest`, and appended to `wire_rx`. -/
def consumeByte (b : Byte) (rest : List Byte) (s : State) : State :=
  { s with env := { s.env with rxq := rest }, obs := { s.obs with wireRx := s.obs.wireRx ++ [b] } }

/-- `ENV.read_byte()`, only while readable (U7). The bytes of a UART that stays readable for ever are free draws once
the listed ones are read. -/
def envReadByte (s : State) : Res (Byte × State) :=
  match s.env.rxq with
  | b :: rest => .next (b, consumeByte b rest s)
  | [] =>
    if s.env.endless then .next ((draw8 s).1, consumeByte (draw8 s).1 [] (draw8 s).2)
    else .refused .uartNotReadable

/-- ENV's answers change between two steps (R97, R143); no state of the block is touched (R96 E1). -/
def envChange (e : EnvEvent) (s : State) : State :=
  match e with
  | .rx b => { s with env := { s.env with rxq := s.env.rxq ++ [b] } }
  | .writable v => { s with env := { s.env with writable := v } }
  | .answers bytes endless => { s with env := { s.env with rxq := bytes, endless := endless } }

/-! ### Responses -/

/-- `respond(STAT, RES)` to the command `i` (R49). -/
def respond (i : Instr) (stat : Stat) (res : Word) (s : State) : State :=
  { s with obs := { s.obs with replies := s.obs.replies ++ [{ cmd := i, stat := stat, res := res }] } }

/-- A response whose RES is `unspecified_32` (R49, U4). -/
def respondUnspecified (i : Instr) (stat : Stat) (s : State) : State :=
  respond i stat (draw32 s).1 (draw32 s).2

/-- A ring-buffer port's response is seen by the observer (R53). -/
def portReply (p : PortReply) (s : State) : State :=
  { s with obs := { s.obs with ports := s.obs.ports ++ [p] } }

/-! ### What every step of the foreground needs -/

/-- The block has been reset (R131) and no handler invocation suspends the foreground (R22, R117). -/
def whenForegroundRuns (s : State) (k : Res State) : Res State :=
  if isReset s = false then .refused .notReset
  else if s.ih.active then .refused .foregroundSuspended
  else k

/-- A command that starts and ends in IDLE (R21): no other command is in flight (R75). -/
def whenIdle (s : State) (k : Res State) : Res State :=
  whenForegroundRuns s (if s.fg.phase = .idle then k else .refused .commandInFlight)

/-- Agent `a` may drive a port now: the foreground takes no step during an invocation (R22). -/
def whenAgentRuns (a : Agent) (s : State) (k : Res State) : Res State :=
  if a = .fg ∧ s.ih.active = true then .refused .foregroundSuspended else k

/-- Step 1 of PUT_CHAR: the push into `tx`; its result waits in `fg.pend` (R79). -/
def putCharPush (b : Byte) (s : State) : Res State :=
  andThen (pushRing .tx b s) fun r =>
    .next { r.2 with fg := { r.2.fg with phase := .putArm, pend := countWord r.1 } }

/-- Step 2 of the PUT_CHAR `i`: TXIE is set unconditionally, and the push's result is delivered (R79). -/
def putCharArm (i : Instr) (s : State) : State :=
  respond i .ok s.fg.pend { s with txie := true, fg := { s.fg with phase := .idle } }

/-! ### The handler -/

/-- Handler entry (R117): nothing is saved; invocations do not nest (R119). -/
def handlerEntry (s : State) : Res State :=
  if s.ih.active then .refused .nestedInvocation else .next { s with ih := { active := true } }

/-- Handler return (R119): nothing is restored. -/
def handlerReturn (s : State) : State := { s with ih := { active := false } }

/-- The sending half of the transmit duty: at most one byte, `is_writable()` asked only when `tx` is not empty
(R91, D29). -/
def txSend (s : State) : Res State :=
  if s.tx.occ = 0 then .next s
  else if envIsWritable s then
    andThen (popRing .tx s) fun r =>
      andThen (envWriteByte r.1 r.2.2) fun s1 => .next { s1 with txcount := s1.txcount + 1 }
  else .next s

/-- IH.TXDUTY: send, then recompute TXIE from the occupancy after it (R91). -/
def txDuty (s : State) : Res State :=
  andThen (txSend s) fun s1 => .next { s1 with txie := s1.tx.nonEmpty }

/-- One round of the receive loop: read a byte, push it into `rx` (dropped when full), count it (R92). -/
def rxTake (s : State) : Res State :=
  andThen (envReadByte s) fun r =>
    andThen (pushRing .rx r.1 r.2) fun p => .next { p.2 with rxcount := p.2.rxcount + 1 }

/-- The receive loop, at most `n` rounds; still readable after them is the hang of U8. -/
def rxLoop : Nat → State → Res State
  | 0, s => if envIsReadable s then .fault .receiveHang else .next s
  | n + 1, s => if envIsReadable s then andThen (rxTake s) (rxLoop n) else .next s

/-- IH.RXDUTY: read and push until ENV answers not-readable (R92). If it never does (E2 fails) the loop never ends
(U8). -/
def rxDuty (s : State) : Res State :=
  if s.env.endless then .fault .receiveHang else rxLoop s.env.rxq.length s

/-! ### Reset -/

/-- The line's initial state and the sequencing state after reset (R130); from here on the block is in operation (R131). `fg.pend` is not written (R25). -/
def lineReset (s : State) : State :=
  { s with
    txie := false, rxie := true, txcount := 0, rxcount := 0,
    fg := { s.fg with phase := .idle }, ih := { active := false }, inOperation := true }

/-- Reset (R130): RB.INIT of both instances, then the line; a second reset is out of contract (R132, U6). -/
def resetBlock (s : State) : Res State :=
  andThen (initRing .tx s) fun s1 => andThen (initRing .rx s1) fun s2 => .next (lineReset s2)

end Sys2Proof.Machine
end

