-- ==== Sys2Proof/Machine/CallGate.lean ====
section
/-! DEFINITION. The call-gate operations (spec/41_call_gate.md R75 to R81). -/

namespace Sys2Proof.Machine

/-- CG.VERSION (R77). -/
def execVersion (s : State) : Res State :=
  whenIdle s (.next (respond .version .ok (versionWord Config.versionMajor Config.versionMinor) s))

/-- CG.PUT_CHAR (R79). Presented in IDLE it takes step 1 (or is answered INVALID_STREAM, R76); presented again in
PUT_ARM, as the command still in flight, it takes step 2. -/
def execPutChar (sid b : Byte) (s : State) : Res State :=
  whenForegroundRuns s <|
    match s.fg.phase with
    | .idle =>
      if validStream sid then putCharPush b s
      else .next (respondUnspecified (.putChar sid b) .invalidStream s)
    | .putArm =>
      if validStream sid then .next (putCharArm (.putChar sid b) s)
      else .refused .commandInFlight

/-- CG.GET_CHAR (R80). -/
def execGetChar (sid : Byte) (s : State) : Res State :=
  whenIdle s <|
    if validStream sid then
      andThen (popRing .rx s) fun r =>
        if r.2.1 then .next (respond (.getChar sid) .ok (byteWord r.1) r.2.2)
        else .next (respondUnspecified (.getChar sid) .empty r.2.2)
    else .next (respondUnspecified (.getChar sid) .invalidStream s)

/-- CG.CHARS_AVAILABLE (R81). -/
def execCharsAvailable (sid : Byte) (s : State) : Res State :=
  whenIdle s <|
    if validStream sid then
      andThen (usedRing .rx s) fun n => .next (respond (.charsAvailable sid) .ok (countWord n) s)
    else .next (respondUnspecified (.charsAvailable sid) .invalidStream s)

/-- INVALID_OP (R78): fail closed, no state change. -/
def execInvalidOp (w : Word) (s : State) : Res State :=
  whenIdle s (.next (respondUnspecified (.invalidOp w) .invalidOp s))

end Sys2Proof.Machine
end

