-- ==== Sys2Proof/Machine/Handler.lean ====
section
/-! DEFINITION. The handler steps (spec/42_interrupt_handler.md R90 to R92). -/

namespace Sys2Proof.Machine

/-- IH.INVOKE (R90): entry, the transmit duty, the receive duty, return, as one step. -/
def execIhInvoke (s : State) : Res State :=
  if isReset s then
    andThen (handlerEntry s) fun s1 =>
      andThen (txDuty s1) fun s2 =>
        andThen (rxDuty s2) fun s3 => .next (handlerReturn s3)
  else .refused .notReset

/-- IH.TXDUTY (R91) as a step of its own (C3, D16). -/
def execIhTxduty (s : State) : Res State :=
  if isReset s then txDuty s else .refused .notReset

/-- IH.RXDUTY (R92) as a step of its own (C3, D16). -/
def execIhRxduty (s : State) : Res State :=
  if isReset s then rxDuty s else .refused .notReset

end Sys2Proof.Machine
end

