-- ==== Sys2Proof/Machine/RingBuffer.lean ====
section
/-! DEFINITION. The ring-buffer port operations as instructions (spec/40_ring_buffer.md R60 to R64). A port's response
goes to the observer (R53). -/

namespace Sys2Proof.Machine

/-- RB.INIT(q) (R60). -/
def execRbInit (q : Queue) (s : State) : Res State := initRing q s

/-- RB.PUSH(q, b) driven by `a` (R61); only the producer of `q` may issue it (R71, U1). -/
def execRbPush (a : Agent) (q : Queue) (b : Byte) (s : State) : Res State :=
  if a = q.producer then
    whenAgentRuns a s (andThen (pushRing q b s) fun r => .next (portReply (.freeAfter q r.1) r.2))
  else .refused (.roleViolation a q)

/-- RB.POP(q) driven by `a` (R62); only the consumer of `q` may issue it (R71, U1). -/
def execRbPop (a : Agent) (q : Queue) (s : State) : Res State :=
  if a = q.consumer then
    whenAgentRuns a s (andThen (popRing q s) fun r => .next (portReply (.popped q r.1 r.2.1) r.2.2))
  else .refused (.roleViolation a q)

/-- RB.USED(q) (R63); either side may read it. -/
def execRbUsed (q : Queue) (s : State) : Res State :=
  andThen (usedRing q s) fun n => .next (portReply (.used q n) s)

/-- RB.FREE(q) (R64); either side may read it. -/
def execRbFree (q : Queue) (s : State) : Res State :=
  andThen (freeRing q s) fun n => .next (portReply (.free q n) s)

end Sys2Proof.Machine
end

