-- ==== Sys2Proof/Machine/Dispatch.lean ====
section
/-! DEFINITION. One arm per operation of spec/opcode_table.json. -/

namespace Sys2Proof.Machine

def exec (i : Instr) (s : State) : Host.Outcome State Fault Refusal :=
  match i with
  | .version => Sys2Proof.Machine.execVersion s
  | .putChar sid b => Sys2Proof.Machine.execPutChar sid b s
  | .getChar sid => Sys2Proof.Machine.execGetChar sid s
  | .charsAvailable sid => Sys2Proof.Machine.execCharsAvailable sid s
  | .invalidOp w => Sys2Proof.Machine.execInvalidOp w s
  | .rbInit q => Sys2Proof.Machine.execRbInit q s
  | .rbPush a q b => Sys2Proof.Machine.execRbPush a q b s
  | .rbPop a q => Sys2Proof.Machine.execRbPop a q s
  | .rbUsed q => Sys2Proof.Machine.execRbUsed q s
  | .rbFree q => Sys2Proof.Machine.execRbFree q s
  | .ihInvoke => Sys2Proof.Machine.execIhInvoke s
  | .ihTxduty => Sys2Proof.Machine.execIhTxduty s
  | .ihRxduty => Sys2Proof.Machine.execIhRxduty s

end Sys2Proof.Machine
end

