-- ==== Sys2Proof/Machine/Turns.lean ====
section
/-! DEFINITION. What one turn of the schedule does, how the foreground's next command is fetched, and where a word is put
so that the next step runs it (log 6). -/

namespace Sys2Proof.Machine

/-- The command at the gate, decoded (R75). -/
def fetch (s : State) : Option Instr :=
  match s.fg.cmds with
  | [] => none
  | w :: _ => some (decodeCommand w)

/-- A command leaves the gate when it has responded, which is when the foreground is back in IDLE (R75, R21). -/
def retire (s : State) : State :=
  if s.fg.phase = .idle then { s with fg := { s.fg with cmds := s.fg.cmds.tail } } else s

/-- One atomic step of the foreground: the command at the gate runs. With no command to issue it does nothing. -/
def foregroundTurn (s : State) : Res State :=
  match fetch s with
  | none => .next s
  | some i => andThen (exec i s) fun s1 => .next (retire s1)

/-- A ring-buffer port driven from outside (R53): refused in the block (R143), run where the ports are brought out. With
its strobe low it requests nothing. -/
def portTurn (p : PortSignal) (s : State) : Res State :=
  match decodePort p with
  | .ok i => if s.portsOut then exec i s else .refused (.portAccess p)
  | .error _ => .next s

/-- One turn of the schedule. -/
def runTurn (t : Turn) (s : State) : Res State :=
  match t with
  | .fg => foregroundTurn s
  | .event e => exec (decodeEvent e) s
  | .env e => .next (envChange e s)
  | .port p => portTurn p s
  | .reset => resetBlock s

/-- With no turn scheduled the agents run eagerly (DESIGN CHOICE, log 7): an invocation while the request is true
(R115, and R116: the interrupt wins), else the foreground if it has a command, else nothing happens (R142). -/
def eagerTurn (s : State) : Res State :=
  if irq s = true ∧ s.ih.active = false then exec .ihInvoke s else foregroundTurn s

/-- The state with one turn put before its schedule. -/
def State.withTurn (s : State) (t : Turn) : State := { s with sched := t :: s.sched }

/-- The state with a signal placed so that the very next step runs it: a command word at the gate and the foreground's
turn, or the port's turn with the ports brought out, or the event's turn. -/
def State.withSignal (s : State) (x : Signal) : State :=
  match x with
  | .word w => { s with fg := { s.fg with cmds := w :: s.fg.cmds }, sched := .fg :: s.sched }
  | .port p => { s.withTurn (.port p) with portsOut := true }
  | .event e => s.withTurn (.event e)

end Sys2Proof.Machine
end

