-- ==== Sys2Proof/Machine/Step.lean ====
section
/-! DEFINITION. One atomic step of the block and its surroundings (spec/20_memory.md R41: every execution is a single
order of atomic steps). -/

namespace Sys2Proof.Machine

/-- One step: the next turn of the schedule, or the eager order when none is scheduled. -/
def step (s : State) : Host.Outcome State Fault Refusal :=
  match s.sched with
  | t :: ts => runTurn t { s with sched := ts }
  | [] => eagerTurn s

/-- The state in which the next step runs the instruction whose table bits are `w` (the host's numbering). -/
def State.withFetchWord (s : State) (nbits w : Nat) : State :=
  match tableSignal nbits w with
  | some x => s.withSignal x
  | none => s

end Sys2Proof.Machine
end

