-- ==== Sys2Proof/Safety.lean ====
section
/-! DEFINITION. What claims speak of: the abstract view of a queue, the invariants of the spec, the named premises of
spec/70_reset_and_hazards.md R144, and a quiescent state (R142). -/

namespace Sys2Proof.Machine

/-! ### The abstract view -/

/-- `contents(q)`, oldest byte first (spec/00_scope.md section 5.4, R69); `none` is the `?` of a byte never written. -/
def Ring.contents (r : Ring) : List (Option Byte) :=
  (List.range r.occ).map fun i => Memory.read r.mem ((r.rd + i) % r.cap)

/-- The bytes already given to the hardware, then the bytes still queued in `tx`: everything accepted, in order. -/
def txHistory (s : State) : List (Option Byte) := s.obs.wireTx.map some ++ s.tx.contents

/-- The byte a response gives to the foreground, when it is a GET_CHAR that got one (R80). -/
def Reply.gotByte (p : Reply) : Option Byte :=
  match p.cmd, p.stat with
  | .getChar _, .ok => some (p.res.extractLsb' 0 8)
  | _, _ => none

/-- The bytes the foreground has received. -/
def received (s : State) : List Byte := s.obs.replies.filterMap Reply.gotByte

/-- The bytes already received by the foreground, then the bytes still queued in `rx`. -/
def rxHistory (s : State) : List (Option Byte) := (received s).map some ++ s.rx.contents

/-- The byte a command word asks to transmit: PUT_CHAR with a valid stream (R79, R76). -/
def putByte (w : Word) : Option Byte :=
  match decodeCommand w with
  | .putChar sid b => if validStream sid then some b else none
  | _ => none

/-- The bytes the foreground's program still has to push, in order; in PUT_ARM the byte of the command at the gate has
been pushed already (R79). -/
def unpushed (s : State) : List Byte :=
  match s.fg.phase with
  | .idle => s.fg.cmds.filterMap putByte
  | .putArm => s.fg.cmds.tail.filterMap putByte

/-! ### Invariants -/

/-- `P_PARAMS` for one instance (R5, R144). -/
structure Ring.Params (r : Ring) : Prop where
  pos : 1 ≤ r.cap
  fits : r.cap ≤ Config.maxCapacity

/-- The invariants of one instance: R14, R15, the storage in canonical form within its capacity (R30), and every
occupied slot written. -/
structure Ring.Inv (r : Ring) : Prop where
  ready : r.ready = true
  params : r.Params
  occ_le : r.occ ≤ r.cap
  wr_lt : r.wr < r.cap
  rd_lt : r.rd < r.cap
  wr_eq : r.wr = (r.rd + r.occ) % r.cap
  mem_wf : Memory.wf r.mem
  mem_lt : ∀ c ∈ r.mem, c.1 < r.cap
  written : ∀ i < r.occ, (Memory.read r.mem ((r.rd + i) % r.cap)).isSome = true

/-- The invariants of the whole state that hold whatever the schedule: the block is in operation (R131), both instances
(R14, R15), RXIE constant (R17), no invocation between steps (R22, R119), and the counters (R101). -/
structure State.Inv (s : State) : Prop where
  reset : isReset s = true
  tx : s.tx.Inv
  rx : s.rx.Inv
  rxie : s.rxie = true
  inactive : s.ih.active = false
  txcount : s.txcount = BitVec.ofNat 32 s.obs.wireTx.length
  rxcount : s.rxcount = BitVec.ofNat 32 s.obs.wireRx.length

/-- The handshake invariant (R98 (ii)): with the foreground in IDLE, queued work is armed. -/
def Handshake (s : State) : Prop := s.fg.phase = .idle → s.tx.occ ≠ 0 → s.txie = true

/-- In PUT_ARM the command at the gate is the PUT_CHAR in flight, and the result that waits is at most the free space
(R79 corner case c). -/
def InFlight (s : State) : Prop :=
  s.fg.phase = .putArm → (∃ b, fetch s = some (.putChar 0 b)) ∧ s.fg.pend.toNat ≤ s.tx.cap - s.tx.occ

/-! ### Premises on the surroundings -/

/-- The turn is neither a port driven from outside (`P_ROLES`: the ports are driven by the gate and the handler alone,
R53, R71) nor a second reset (R132). -/
def Turn.inContract : Turn → Bool
  | .port _ => false
  | .reset => false
  | _ => true

/-- The turn does not make ENV readable for ever. -/
def Turn.keepsE2 : Turn → Bool
  | .env (.answers _ endless) => !endless
  | _ => true

/-- `P_ROLES`, and no second reset, over the turns still to come (R144). -/
def Roles (s : State) : Prop := ∀ t ∈ s.sched, t.inContract = true

/-- `P_E2`: now and in the turns still to come ENV answers not-readable after finitely many reads (R96, R144). -/
def FiniteReads (s : State) : Prop := s.env.endless = false ∧ ∀ t ∈ s.sched, t.keepsE2 = true

/-- The turn in which the transmit duty runs: an invocation, or the duty alone (log 16). -/
def Turn.transmits : Turn → Bool
  | .event .invoke => true
  | .event .txduty => true
  | _ => false

/-- A state of a run under the named premises: the invariants, the handshake, and the premises on what is to come. -/
structure Safe (s : State) : Prop where
  inv : s.Inv
  handshake : Handshake s
  inFlight : InFlight s
  roles : Roles s
  finiteReads : FiniteReads s

/-- Quiescent (R142): the foreground is in IDLE with no further command, no invocation is active, `irq` is false. -/
structure Quiescent (s : State) : Prop where
  idle : s.fg.phase = .idle
  noCommand : s.fg.cmds = []
  inactive : s.ih.active = false
  noRequest : irq s = false

/-! ### Runs of ring-buffer operations (R67 to R69) -/

/-- What the parties of one ring buffer may ask of it (R71). -/
inductive PortOp where
  | push (b : Byte)
  | pop
  | used
  | free
deriving DecidableEq, Repr

/-- The instruction that asks it of `q`, driven by the agent R71 binds. -/
def PortOp.instr (q : Queue) : PortOp → Instr
  | .push b => .rbPush q.producer q b
  | .pop => .rbPop q.consumer q
  | .used => .rbUsed q
  | .free => .rbFree q

/-- Instructions one after the other, stopping at the first stop. -/
def runInstrs : List Instr → State → Res State
  | [], s => .next s
  | i :: is, s => andThen (exec i s) (runInstrs is)

/-- What a caller may use of a port's response: a count, a byte, or "no data" (the byte of an empty pop is not
defined, U2). -/
inductive Answer where
  | count (n : Nat)
  | byte (b : Byte)
  | noData
deriving DecidableEq, Repr

def PortReply.answer : PortReply → Answer
  | .freeAfter _ n => .count n
  | .popped _ b ok => if ok then .byte b else .noData
  | .used _ n => .count n
  | .free _ n => .count n

/-- The operations on a bounded list of capacity `C` (R69): the new list and the answer. -/
def listStep (C : Nat) (l : List Byte) : PortOp → List Byte × Answer
  | .push b => if l.length < C then (l ++ [b], .count (C - (l.length + 1))) else (l, .count 0)
  | .pop =>
    match l with
    | [] => ([], .noData)
    | b :: rest => (rest, .byte b)
  | .used => (l, .count l.length)
  | .free => (l, .count (C - l.length))

/-- A sequence of operations on a bounded list: the final list and the answers in order. -/
def listRun (C : Nat) : List Byte → List PortOp → List Byte × List Answer
  | l, [] => (l, [])
  | l, op :: ops => ((listRun C (listStep C l op).1 ops).1, (listStep C l op).2 :: (listRun C (listStep C l op).1 ops).2)

/-! ### Runs of the machine -/

/-- `n` steps, stopping at the first stop (the host's `Host.Core.run` of this machine, as Laws/Runs.lean shows). -/
def run : Nat → State → Res State
  | 0, s => .next s
  | n + 1, s => andThen (step s) (run n)

/-! ### Executions without end, and the premises of R144 that speak of them -/

/-- The state with what the surroundings supply for one step (R143): the turn, and the command words that the
application adds to its program. -/
def State.given (s : State) (t : Turn) (ws : List Word) : State :=
  { s with sched := [t], fg := { s.fg with cmds := s.fg.cmds ++ ws } }

/-- An execution without end: every step is a step of the machine, with the turn and the words supplied for it. -/
structure Execution where
  state : Nat → State
  turn : Nat → Turn
  words : Nat → List Word
  steps : ∀ n, step ((state n).given (turn n) (words n)) = .next (state (n + 1))

namespace Execution

/-- `P_RESET`: the run starts in the reset state (R144, R25). -/
def PReset (e : Execution) : Prop := e.state 0 = State.reset

/-- `P_PARAMS`: both capacities can be built (R144, R5). It follows from `P_RESET` (Laws/Runs.lean). -/
def PParams (e : Execution) : Prop := (e.state 0).tx.Params ∧ (e.state 0).rx.Params

/-- `P_ROLES`: no turn drives a port from outside or resets the block a second time (R144, R71, R132). -/
def PRoles (e : Execution) : Prop := ∀ n, (e.turn n).inContract = true

/-- `P_E1`: a turn of ENV changes ENV's answers and no state of the block (R144, R96). It holds of every execution
(Laws/Runs.lean). -/
def PE1 (e : Execution) : Prop := ∀ n c, e.turn n = .env c →
  ∃ v, e.state (n + 1) = { (e.state n).given (e.turn n) (e.words n) with env := v, sched := [] }

/-- `P_E2`: ENV is never readable for ever (R144, R96). An execution without end has no step that hangs, so statements
about executions do not need it. -/
def PE2 (e : Execution) : Prop := (e.state 0).env.endless = false ∧ ∀ n, (e.turn n).keepsE2 = true

/-- `is_writable()` is asked in step `n`: the transmit duty runs and `tx` is not empty (R91, D29). -/
def Asks (e : Execution) (n : Nat) : Prop := (e.turn n).transmits = true ∧ (e.state n).tx.occ ≠ 0

/-- `P_E3`: `is_writable()` is true infinitely often when asked infinitely often (R144, R96). -/
def PE3 (e : Execution) : Prop :=
  (∀ n, ∃ m ≥ n, e.Asks m) → ∀ n, ∃ m ≥ n, e.Asks m ∧ envIsWritable (e.state m) = true

/-- `P_FAIR`: IH.INVOKE is weakly fair while `irq` is true (R144, R115). -/
def PFair (e : Execution) : Prop :=
  ∀ n, (∀ m ≥ n, irq (e.state m) = true) → ∃ m ≥ n, e.turn m = .event .invoke

/-- `P_FGDONE`: the foreground completes every PUT_CHAR it starts (R144). -/
def PFgDone (e : Execution) : Prop :=
  ∀ n, (e.state n).fg.phase = .putArm → ∃ m ≥ n, (e.state m).fg.phase = .idle

/-- Invocations go on for ever (stronger than `P_FAIR`; log 25). -/
def InvokesForever (e : Execution) : Prop := ∀ n, ∃ m ≥ n, e.turn m = .event .invoke

/-- Again and again the hardware becomes writable and stays so until it is asked (stronger than `P_E3`; log 25). -/
def StaysWritable (e : Execution) : Prop :=
  ∀ n, ∃ m ≥ n, ∀ k ≥ m, (∀ j, m ≤ j → j < k → ¬e.Asks j) → envIsWritable (e.state k) = true

/-- Every byte accepted into `tx` is eventually given to the hardware, in order (R99). -/
def Delivers (e : Execution) : Prop :=
  ∀ n, ∃ m ≥ n, txHistory (e.state n) <+: (e.state m).obs.wireTx.map some

end Execution

/-! ### What the steps of the foreground need -/

/-- The block has been reset, no invocation is active and no command is in flight (R131, R22, R21). -/
structure ForegroundReady (s : State) : Prop where
  reset : isReset s = true
  inactive : s.ih.active = false
  idle : s.fg.phase = .idle

/-- The reset state with a foreground program and a schedule: the beginning of a run under P_RESET (R144). -/
def startState (cmds : List Word) (sched : List Turn) : State :=
  { State.reset with fg := { State.reset.fg with cmds := cmds }, sched := sched }

/-! ### Comparing states -/

/-- Two rings that differ only in slots outside the occupied region (R35). -/
structure Ring.SameButStale (r r' : Ring) : Prop where
  cap : r'.cap = r.cap
  wr : r'.wr = r.wr
  rd : r'.rd = r.rd
  occ : r'.occ = r.occ
  ready : r'.ready = r.ready
  contents : r'.contents = r.contents

/-- Two states that differ only in stale or never-written slots of the two storages. -/
structure State.SameButStale (s s' : State) : Prop where
  tx : s.tx.SameButStale s'.tx
  rx : s.rx.SameButStale s'.rx
  rest : s' = { s with tx := s'.tx, rx := s'.rx }

end Sys2Proof.Machine
end

