-- ==== Sys2Proof/Certificates/Slice0/Obligations.lean ====
section
/-! DEFINITION. The statements for the provers, in the order of spec/: encoding, steps, reset, the ring buffer, the call
gate, the handler, and the properties of whole runs. Where a statement gives a next state, it gives all of it, so it is
its own frame. A statement about a free draw (`Config.unspecified8`, `Config.unspecified32`) holds for every value of the
draw counter. -/

open Sys2Proof Sys2Proof.Machine

/-! ### Encoding (spec/30_encoding.md) -/

/-- R45, R53, R54, R56: decoding the encoding of a well-formed operation gives it back, with every operand. -/
def Obligations.DecodeUndoesEncode : Prop :=
  ∀ i : Instr, i.wellFormed = true → decode (encode i) = .ok i

/-- R45, R47: the decoder of a command word, said by arithmetic on the word as a number. -/
def Obligations.CommandDecodeReadsTheFields : Prop :=
  ∀ w : Word,
    decodeCommand w =
      if w.toNat / 2 ^ 24 ≠ 0 then .invalidOp w
      else if w.toNat % 2 ^ 8 = 0 then .version
      else if w.toNat % 2 ^ 8 = 2 then
        .putChar (BitVec.ofNat 8 (w.toNat / 2 ^ 8)) (BitVec.ofNat 8 (w.toNat / 2 ^ 16))
      else if w.toNat % 2 ^ 8 = 3 then .getChar (BitVec.ofNat 8 (w.toNat / 2 ^ 8))
      else if w.toNat % 2 ^ 8 = 4 then .charsAvailable (BitVec.ofNat 8 (w.toNat / 2 ^ 8))
      else .invalidOp w

/-- R48, R56: encoding what a command word decodes to gives the word back with the fields the operation ignores set to
zero, and nothing else changed. -/
def Obligations.EncodeClearsIgnoredFieldsOnly : Prop :=
  ∀ w : Word,
    encode (decodeCommand w) =
      .word (match decodeCommand w with
        | .version => w &&& 0xFF0000FF
        | .getChar _ => w &&& 0xFF00FFFF
        | .charsAvailable _ => w &&& 0xFF00FFFF
        | _ => w)

/-- R53, R54: what is decoded from a carrier is an operation of that carrier's format, so a command word never gives a
ring-buffer operation or a handler step, and a push or pop names the instance and the driver of its port. -/
def Obligations.DecodeRespectsTheCarrier : Prop :=
  ∀ (x : Signal) (i : Instr), decode x = .ok i →
    i.format = x.format ∧
    (∀ a q b, i = .rbPush a q b → ∃ bits, x = .port (.push a q bits) ∧ bits.toNat = 2 ^ 8 + b.toNat) ∧
    (∀ a q, i = .rbPop a q → x = .port (.pop a q 1))

/-- The command words of vectors V10 to V28 of spec/95_test_vectors.md decode as listed there (V29 to V31 repeat words
of them). -/
def Obligations.VectorWordsDecode : Prop :=
  decodeCommand 0x00000000 = .version ∧ decodeCommand 0x00AB1200 = .version ∧
  decodeCommand 0x00610002 = .putChar 0 0x61 ∧ decodeCommand 0x00000002 = .putChar 0 0x00 ∧
  decodeCommand 0x00FF0002 = .putChar 0 0xFF ∧ decodeCommand 0x00610102 = .putChar 1 0x61 ∧
  decodeCommand 0x00000003 = .getChar 0 ∧ decodeCommand 0x00000703 = .getChar 7 ∧
  decodeCommand 0x00550003 = .getChar 0 ∧ decodeCommand 0x00000004 = .charsAvailable 0 ∧
  decodeCommand 0x0000FF04 = .charsAvailable 255 ∧ decodeCommand 0x00000001 = .invalidOp 0x00000001 ∧
  decodeCommand 0x00000005 = .invalidOp 0x00000005 ∧ decodeCommand 0x000000FF = .invalidOp 0x000000FF ∧
  decodeCommand 0x01610002 = .invalidOp 0x01610002 ∧ decodeCommand 0x80000000 = .invalidOp 0x80000000 ∧
  decodeCommand 0x0000FF01 = .invalidOp 0x0000FF01

/-- R7 (a decision of the spec, D12): the register widths hold every index and every occupancy of a queue of capacity
`C`, and no narrower register of at least one bit does. -/
def Obligations.RegisterWidthsFit : Prop :=
  ∀ C : Nat, 1 ≤ C →
    C - 1 < 2 ^ Config.indexWidth C ∧ C < 2 ^ Config.occWidth C ∧
    (∀ k, 1 ≤ k → C - 1 < 2 ^ k → Config.indexWidth C ≤ k) ∧ (∀ k, C < 2 ^ k → Config.occWidth C ≤ k)

/-! ### Steps -/

/-- R21, R75: on the foreground's turn the step runs the command that the word at the gate decodes to, and the word
leaves the gate when the foreground is back in IDLE; a stop of the command is the step's stop. -/
def Obligations.StepRunsTheDecodedCommand : Prop :=
  ∀ (s : State) (w : Word) (ws : List Word) (ts : List Turn),
    s.fg.cmds = w :: ws → s.sched = .fg :: ts →
    step s =
      match exec (decodeCommand w) { s with sched := ts } with
      | .next t => .next (if t.fg.phase = .idle then { t with fg := { t.fg with cmds := t.fg.cmds.tail } } else t)
      | .fault r => .fault r
      | .refused r => .refused r

/-- R53, R54, R143: on the turn of an interrupt event the step runs the handler step it decodes to; the spec gives only
the event that starts IH.INVOKE, and that one duty alone can be a turn is the model's choice (log 16). On the turn of a
port driven from outside the gate and the handler, which R143 assumes never happens, the step is refused; that it runs
the operation the signal decodes to where the ports are brought out, and that a port with its strobe low requests
nothing, are the model's choices (log 12). -/
def Obligations.StepRunsTheDecodedSignal : Prop :=
  ∀ (s : State) (ts : List Turn),
    (∀ e i, s.sched = .event e :: ts → decode (.event e) = .ok i → step s = exec i { s with sched := ts }) ∧
    (∀ p i, s.sched = .port p :: ts → decode (.port p) = .ok i →
      step s = if s.portsOut = true then exec i { s with sched := ts } else .refused (.portAccess p)) ∧
    (∀ p e, s.sched = .port p :: ts → decode (.port p) = .error e → step s = .next { s with sched := ts })

/-- A word placed by `withFetchWord` is the word the very next step runs (the model's own interface, log 6). -/
def Obligations.PlacedWordRunsNext : Prop :=
  ∀ (s : State) (w : Word),
    decodeTableWord 32 w.toNat = some (decodeCommand w) ∧
    step (s.withFetchWord 32 w.toNat) =
      match exec (decodeCommand w) { s with fg := { s.fg with cmds := w :: s.fg.cmds } } with
      | .next t => .next (if t.fg.phase = .idle then { t with fg := { t.fg with cmds := t.fg.cmds.tail } } else t)
      | .fault r => .fault r
      | .refused r => .refused r

/-- R96 (E1), R97, R143: a turn of ENV changes ENV's answers and nothing else; the stub's two events change what R97
says, and the third event sets the coming answers to any bytes and to any readability. That ENV's answers are data which
turns change is the model's form (log 8). -/
def Obligations.EnvTurnTouchesOnlyEnv : Prop :=
  ∀ (s : State) (e : EnvEvent) (ts : List Turn), s.sched = .env e :: ts →
    ∃ v, step s = .next { s with env := v, sched := ts } ∧
      (∀ b, e = .rx b → v = { s.env with rxq := s.env.rxq ++ [b] }) ∧
      (∀ x, e = .writable x → v = { s.env with writable := x }) ∧
      (∀ bs x, e = .answers bs x → v = { s.env with rxq := bs, endless := x })

/-! ### Reset (spec/10_state.md R25, spec/70_reset_and_hazards.md) -/

/-- R25: the reset state holds the values of the table (the rows marked unspecified there are not claimed). -/
def Obligations.ResetStateHoldsTheTable : Prop :=
  State.reset.tx.wr = 0 ∧ State.reset.rx.wr = 0 ∧ State.reset.tx.rd = 0 ∧ State.reset.rx.rd = 0 ∧
  State.reset.tx.occ = 0 ∧ State.reset.rx.occ = 0 ∧ State.reset.txie = false ∧ State.reset.rxie = true ∧
  State.reset.txcount = 0 ∧ State.reset.rxcount = 0 ∧ State.reset.fg.phase = .idle ∧ State.reset.ih.active = false ∧
  isReset State.reset = true

/-- R130: the reset event initialises both instances, puts the line in RX-only-armed and the block in operation (log
10); it does not write the storages, `fg.pend` (log 3), or anything of the surroundings. -/
def Obligations.ResetEventInitialisesTheBlock : Prop :=
  ∀ (s : State) (ts : List Turn),
    s.sched = .reset :: ts → isReset s = false → s.tx.ready = false → s.rx.ready = false →
    s.tx.Params → s.rx.Params →
    step s = .next
      { s with
        tx := { s.tx with wr := 0, rd := 0, occ := 0, ready := true }
        rx := { s.rx with wr := 0, rd := 0, occ := 0, ready := true }
        txie := false, rxie := true, txcount := 0, rxcount := 0
        fg := { s.fg with phase := .idle }, ih := { active := false }, inOperation := true, sched := ts }

/-- R131 (U5): on a state that reset did not produce, whether or not instances were initialised by themselves, no
operation but RB.INIT has a meaning: the model refuses it (log 10). -/
def Obligations.NothingRunsBeforeReset : Prop :=
  ∀ (s : State) (i : Instr), isReset s = false → s.ih.active = false →
    i.wellFormed = true → (∀ q, i ≠ .rbInit q) → exec i s = .refused .notReset

/-! ### The ring buffer (spec/40_ring_buffer.md) -/

/-- R60: RB.INIT sets both indices and the occupancy to zero and does not write the storage; the queue is then empty,
and in every state in operation with that instance (R131), `used() = 0` and `free() = C`. -/
def Obligations.RbInitEmptiesTheQueue : Prop :=
  ∀ (q : Queue) (s : State), isReset s = false → (s.ring q).ready = false → (s.ring q).Params →
    ∃ t, exec (.rbInit q) s = .next t ∧
      t = s.setRing q { s.ring q with wr := 0, rd := 0, occ := 0, ready := true } ∧ (t.ring q).contents = [] ∧
      ∀ u : State, isReset u = true → u.ring q = t.ring q →
        usedRing q u = .next 0 ∧ freeRing q u = .next (s.ring q).cap

/-- R132 (U6): a second reset, and RB.INIT of an instance that is initialised or of a block in operation, are given no
meaning; nor are RB.INIT and the reset of a capacity of 0 or beyond `2^32 - 1` (R5, U14): the model refuses them (logs
10 and 11). -/
def Obligations.InitialisationOutOfContractIsRefused : Prop :=
  ∀ s : State,
    (∀ ts, s.sched = .reset :: ts → isReset s = true → step s = .refused (.secondInit .tx)) ∧
    (∀ q, (s.ring q).ready = true ∨ isReset s = true → exec (.rbInit q) s = .refused (.secondInit q)) ∧
    (isReset s = false →
      (∀ q, (s.ring q).ready = false → (s.ring q).cap = 0 ∨ 2 ^ 32 ≤ (s.ring q).cap →
        exec (.rbInit q) s = .refused (.badCapacity q)) ∧
      (∀ ts, s.sched = .reset :: ts → s.tx.ready = false → s.tx.cap = 0 ∨ 2 ^ 32 ≤ s.tx.cap →
        step s = .refused (.badCapacity .tx)) ∧
      (∀ ts, s.sched = .reset :: ts → s.tx.ready = false → s.tx.Params → s.rx.ready = false →
        s.rx.cap = 0 ∨ 2 ^ 32 ≤ s.rx.cap → step s = .refused (.badCapacity .rx)))

/-- R61: an accepted push stores the byte at the write index, advances it circularly, increments the occupancy, and
answers the free slots after it. -/
def Obligations.RbPushStoresTheByte : Prop :=
  ∀ (q : Queue) (b : Byte) (s : State),
    isReset s = true → (q.producer = .fg → s.ih.active = false) → (s.ring q).occ < (s.ring q).cap →
    (s.ring q).wr < (s.ring q).cap →
    exec (.rbPush q.producer q b) s = .next
      { s.setRing q
          { s.ring q with
            mem := Memory.write (s.ring q).mem (s.ring q).wr b
            wr := ((s.ring q).wr + 1) % (s.ring q).cap
            occ := (s.ring q).occ + 1 } with
        obs := { s.obs with
          ports := s.obs.ports ++ [.freeAfter q ((s.ring q).cap - ((s.ring q).occ + 1))] } }

/-- R61, R70: a push on a full buffer answers 0 and changes nothing. -/
def Obligations.RbPushDropsOnFull : Prop :=
  ∀ (q : Queue) (b : Byte) (s : State),
    isReset s = true → (q.producer = .fg → s.ih.active = false) → (s.ring q).occ = (s.ring q).cap →
    exec (.rbPush q.producer q b) s = .next
      { s with obs := { s.obs with ports := s.obs.ports ++ [.freeAfter q 0] } }

/-- R10, R34: a push, a PUT_CHAR in IDLE, or a round of the receive loop stores at most the one byte at the write index:
every other slot of that storage, and every slot of the other one, reads as before; a PUT_CHAR in PUT_ARM, a GET_CHAR, a
pop and the transmit duty store nothing. -/
def Obligations.StoresTouchOnlyTheWriteSlot : Prop :=
  ∀ (s t : State), Memory.wf s.tx.mem → Memory.wf s.rx.mem →
    (∀ a q b, exec (.rbPush a q b) s = .next t →
      ∀ p j, (p = q → j ≠ (s.ring q).wr) → Memory.read (t.ring p).mem j = Memory.read (s.ring p).mem j) ∧
    (∀ sid b, exec (.putChar sid b) s = .next t →
      ∀ p j, (s.fg.phase = .idle → p = .tx → j ≠ s.tx.wr) →
        Memory.read (t.ring p).mem j = Memory.read (s.ring p).mem j) ∧
    (rxTake s = .next t →
      ∀ p j, (p = .rx → j ≠ s.rx.wr) → Memory.read (t.ring p).mem j = Memory.read (s.ring p).mem j) ∧
    (∀ i, exec i s = .next t → (∃ sid, i = .getChar sid) ∨ (∃ a q, i = .rbPop a q) ∨ i = .ihTxduty →
      ∀ p j, Memory.read (t.ring p).mem j = Memory.read (s.ring p).mem j)

/-- R62: a successful pop takes the byte at the read index, advances it circularly and decrements the occupancy; the
storage is unchanged. -/
def Obligations.RbPopTakesTheByte : Prop :=
  ∀ (q : Queue) (b : Byte) (s : State),
    isReset s = true → (q.consumer = .fg → s.ih.active = false) → (s.ring q).occ ≠ 0 →
    (s.ring q).rd < (s.ring q).cap → Memory.read (s.ring q).mem (s.ring q).rd = some b →
    exec (.rbPop q.consumer q) s = .next
      { s.setRing q
          { s.ring q with rd := ((s.ring q).rd + 1) % (s.ring q).cap, occ := (s.ring q).occ - 1 } with
        obs := { s.obs with ports := s.obs.ports ++ [.popped q b true] } }

/-- R62 (U2): a pop of an empty buffer answers `ok = false` with an unspecified byte (the next free draw, log 5) and
changes nothing. The second clause is the model's choice (log 4), not a rule: U3 says that no operation returns a byte
never written, and should the slot at the read index be such a one, in a state no run reaches, the popped byte is a free
draw and the rest of the pop is as ever. -/
def Obligations.RbPopDrawsUnspecifiedBytes : Prop :=
  ∀ (q : Queue) (s : State), isReset s = true → (q.consumer = .fg → s.ih.active = false) →
    ((s.ring q).occ = 0 →
      exec (.rbPop q.consumer q) s = .next
        { s with
          draws := s.draws + 1
          obs := { s.obs with ports := s.obs.ports ++ [.popped q (Config.unspecified8 s.draws) false] } }) ∧
    ((s.ring q).occ ≠ 0 → (s.ring q).rd < (s.ring q).cap → Memory.read (s.ring q).mem (s.ring q).rd = none →
      exec (.rbPop q.consumer q) s = .next
        { s.setRing q
            { s.ring q with rd := ((s.ring q).rd + 1) % (s.ring q).cap, occ := (s.ring q).occ - 1 } with
          draws := s.draws + 1
          obs := { s.obs with ports := s.obs.ports ++ [.popped q (Config.unspecified8 s.draws) true] } })

/-- R31: an index that is not below the capacity names no byte: a push or a pop that would use it faults (the model's
fault, log 18; no state with the invariant raises it). -/
def Obligations.IndexOutsideTheStorageFaults : Prop :=
  ∀ (q : Queue) (s : State), isReset s = true → s.ih.active = false →
    ((s.ring q).occ ≠ (s.ring q).cap → (s.ring q).cap ≤ (s.ring q).wr →
      ∀ b, exec (.rbPush q.producer q b) s = .fault (.indexOutOfRange q (s.ring q).wr)) ∧
    ((s.ring q).occ ≠ 0 → (s.ring q).cap ≤ (s.ring q).rd →
      exec (.rbPop q.consumer q) s = .fault (.indexOutOfRange q (s.ring q).rd))

/-- R65: the successor of an index below `C` is the next one, or 0 after `C - 1`; it is below `C`. -/
def Obligations.AdvanceWrapsAtTheCapacity : Prop :=
  ∀ C i : Nat, i < C →
    advance C i = (i + 1) % C ∧ (i < C - 1 → advance C i = i + 1) ∧ (i = C - 1 → advance C i = 0) ∧ advance C i < C

/-- R63, R64: `used` answers the occupancy and `free` the capacity less the occupancy, without side effect. -/
def Obligations.UsedAndFreeAreQueries : Prop :=
  ∀ (q : Queue) (s : State), isReset s = true →
    exec (.rbUsed q) s = .next { s with obs := { s.obs with ports := s.obs.ports ++ [.used q (s.ring q).occ] } } ∧
    exec (.rbFree q) s = .next
      { s with obs := { s.obs with ports := s.obs.ports ++ [.free q ((s.ring q).cap - (s.ring q).occ)] } }

/-- R71, R38 (U1): a push not by the producer and a pop not by the consumer are given no meaning: the model refuses them
(log 12). -/
def Obligations.RoleViolationIsRefused : Prop :=
  ∀ (a : Agent) (q : Queue) (s : State),
    (a ≠ q.producer → ∀ b, exec (.rbPush a q b) s = .refused (.roleViolation a q)) ∧
    (a ≠ q.consumer → exec (.rbPop a q) s = .refused (.roleViolation a q))

/-- R67: after any sequence of pushes and pops on one ring buffer, the answers of `used` and `free` sum to the capacity,
which is the one the buffer was built with. -/
def Obligations.UsedPlusFreeIsCapacity : Prop :=
  ∀ (q : Queue) (ops : List PortOp) (s t : State), isReset s = true → (s.ring q).Inv →
    runInstrs (ops.map (PortOp.instr q)) s = .next t →
    ∃ u f, usedRing q t = .next u ∧ freeRing q t = .next f ∧ u + f = (s.ring q).cap ∧ (t.ring q).cap = (s.ring q).cap

/-- R69, which the spec derives from R60 to R62: the operations act on the contents of a queue as on a bounded list.
Initialisation makes it empty; from any contents, any sequence of pushes, pops and queries completes, leaves the list
the bounded list leaves, and gives the answers the bounded list gives (the byte of an empty pop is no answer). -/
def Obligations.QueueRefinesBoundedList : Prop :=
  (∀ (q : Queue) (s t : State), exec (.rbInit q) s = .next t → (t.ring q).contents = []) ∧
  ∀ (q : Queue) (ops : List PortOp) (l : List Byte) (s : State),
    isReset s = true → (s.ring q).Inv → s.ih.active = false → (s.ring q).contents = l.map some →
    ∃ t rs, runInstrs (ops.map (PortOp.instr q)) s = .next t ∧
      (t.ring q).contents = (listRun (s.ring q).cap l ops).1.map some ∧
      t.obs.ports = s.obs.ports ++ rs ∧ rs.map PortReply.answer = (listRun (s.ring q).cap l ops).2

/-! ### The call gate (spec/41_call_gate.md) -/

/-- R77: VERSION, whatever its STREAM and DATA fields, responds OK with the major number in the high byte and the minor
number in the low byte, and changes nothing. -/
def Obligations.VersionAnswersTheIdentifier : Prop :=
  ∀ (s : State) (w : Word), ForegroundReady s → w &&& 0xFF0000FF = 0 →
    decodeCommand w = .version ∧
    ∃ r : Word, r.toNat = Config.versionMajor.toNat * 256 + Config.versionMinor.toNat ∧
      exec .version s = .next
        { s with obs := { s.obs with replies := s.obs.replies ++ [{ cmd := .version, stat := .ok, res := r }] } }

/-- R78: a word with non-zero RSV, with OP = 1 or with OP at least 5 is answered INVALID_OP (code 3) in one step and
changes nothing; RES is unspecified (the next free draw, log 5). -/
def Obligations.InvalidOpFailsClosed : Prop :=
  ∀ (s : State) (w : Word), ForegroundReady s →
    (w.toNat / 2 ^ 24 ≠ 0 ∨ w.toNat % 2 ^ 8 = 1 ∨ 5 ≤ w.toNat % 2 ^ 8) →
    Stat.code .invalidOp = 3 ∧ decodeCommand w = .invalidOp w ∧
    exec (.invalidOp w) s = .next
      { s with
        draws := s.draws + 1
        obs := { s.obs with
          replies := s.obs.replies ++
            [{ cmd := .invalidOp w, stat := .invalidOp, res := Config.unspecified32 s.draws }] } }

/-- R76: PUT_CHAR, GET_CHAR and CHARS_AVAILABLE with a stream other than 0 are answered INVALID_STREAM (code 2) in one
step and do nothing else, whatever the queues hold; RES is unspecified (the next free draw, log 5). -/
def Obligations.InvalidStreamFailsClosed : Prop :=
  ∀ (s : State) (sid b : Byte) (i : Instr), ForegroundReady s → sid ≠ 0 →
    i = .putChar sid b ∨ i = .getChar sid ∨ i = .charsAvailable sid →
    Stat.code .invalidStream = 2 ∧
    exec i s = .next
      { s with
        draws := s.draws + 1
        obs := { s.obs with
          replies := s.obs.replies ++ [{ cmd := i, stat := .invalidStream, res := Config.unspecified32 s.draws }] } }

/-- R79 step 1: with room in `tx` the byte is pushed and the free-slot count after it waits in `fg.pend`; on a full `tx`
the byte is dropped and 0 waits. Either way the foreground is in PUT_ARM, and TXIE and the responses are untouched. -/
def Obligations.PutCharPushesFirst : Prop :=
  ∀ (s : State) (b : Byte), ForegroundReady s →
    (s.tx.occ < s.tx.cap → s.tx.wr < s.tx.cap →
      exec (.putChar 0 b) s = .next
        { s with
          tx := { s.tx with
            mem := Memory.write s.tx.mem s.tx.wr b, wr := (s.tx.wr + 1) % s.tx.cap, occ := s.tx.occ + 1 }
          fg := { s.fg with phase := .putArm, pend := BitVec.ofNat 32 (s.tx.cap - (s.tx.occ + 1)) } }) ∧
    (s.tx.occ = s.tx.cap →
      exec (.putChar 0 b) s = .next { s with fg := { s.fg with phase := .putArm, pend := 0 } })

/-- R79 step 2: TXIE is set whatever it was and whatever `tx` holds, the waiting result is delivered with OK (code 0),
and the foreground is back in IDLE. -/
def Obligations.PutCharArmsAndResponds : Prop :=
  ∀ (s : State) (b : Byte), isReset s = true → s.ih.active = false → s.fg.phase = .putArm →
    Stat.code .ok = 0 ∧
    exec (.putChar 0 b) s = .next
      { s with
        txie := true
        fg := { s.fg with phase := .idle }
        obs := { s.obs with
          replies := s.obs.replies ++ [{ cmd := .putChar 0 b, stat := .ok, res := s.fg.pend }] } }

/-- R79, R82: a PUT_CHAR with no interrupt in its window completes in two turns of the foreground. When `tx` has room
the byte is appended to its contents; the response is the number of free slots after the push (0 on a full queue, whose
contents do not change); TXIE is 1; the command has left the gate; nothing outside `tx`, TXIE, the gate and the
responses changes. -/
def Obligations.PutCharCompletesInTwoTurns : Prop :=
  ∀ (s : State) (b : Byte) (w : Word) (ws : List Word) (ts : List Turn),
    ForegroundReady s → s.tx.Inv → s.fg.cmds = w :: ws → decodeCommand w = .putChar 0 b →
    s.sched = .fg :: .fg :: ts →
    ∃ (t : State) (r : Word), run 2 s = .next t ∧ t.tx.Inv ∧
      t.tx = (if s.tx.occ < s.tx.cap then
          { s.tx with mem := Memory.write s.tx.mem s.tx.wr b, wr := (s.tx.wr + 1) % s.tx.cap, occ := s.tx.occ + 1 }
        else s.tx) ∧
      t.tx.contents = (if s.tx.occ < s.tx.cap then s.tx.contents ++ [some b] else s.tx.contents) ∧
      r.toNat = s.tx.cap - t.tx.occ ∧
      t = { s with
        tx := t.tx, txie := true, sched := ts
        fg := { phase := .idle, pend := r, cmds := ws }
        obs := { s.obs with replies := s.obs.replies ++ [{ cmd := .putChar 0 b, stat := .ok, res := r }] } }

/-- R80: GET_CHAR on a non-empty `rx` takes the oldest byte and responds OK (code 0) with it zero-extended; nothing else
changes. -/
def Obligations.GetCharTakesTheOldestByte : Prop :=
  ∀ (s : State) (b : Byte), ForegroundReady s → s.rx.occ ≠ 0 → s.rx.rd < s.rx.cap →
    Memory.read s.rx.mem s.rx.rd = some b →
    ∃ r : Word, r.toNat = b.toNat ∧
      exec (.getChar 0) s = .next
        { s with
          rx := { s.rx with rd := (s.rx.rd + 1) % s.rx.cap, occ := s.rx.occ - 1 }
          obs := { s.obs with replies := s.obs.replies ++ [{ cmd := .getChar 0, stat := .ok, res := r }] } }

/-- R80: GET_CHAR on an empty `rx` responds EMPTY (code 1) at once and changes nothing; RES is unspecified. (The two
draws are the byte of the empty pop, which is not delivered, and RES; log 5.) -/
def Obligations.GetCharOnEmptySaysSo : Prop :=
  ∀ s : State, ForegroundReady s → s.rx.occ = 0 →
    Stat.code .empty = 1 ∧
    exec (.getChar 0) s = .next
      { s with
        draws := s.draws + 2
        obs := { s.obs with
          replies := s.obs.replies ++
            [{ cmd := .getChar 0, stat := .empty, res := Config.unspecified32 (s.draws + 1) }] } }

/-- R81: CHARS_AVAILABLE responds OK with the occupancy of `rx` and changes nothing; under the parameters' bound the
number is exact. -/
def Obligations.CharsAvailableAnswersTheOccupancy : Prop :=
  ∀ s : State, ForegroundReady s → s.rx.occ ≤ s.rx.cap → s.rx.cap ≤ Config.maxCapacity →
    ∃ r : Word, r.toNat = s.rx.occ ∧
      exec (.charsAvailable 0) s = .next
        { s with
          obs := { s.obs with replies := s.obs.replies ++ [{ cmd := .charsAvailable 0, stat := .ok, res := r }] } }

/-- R75, R143: while a PUT_CHAR is in flight no other command has a meaning at the gate (it is never presented): the
model refuses it (log 13). -/
def Obligations.SecondCommandInFlightIsRefused : Prop :=
  ∀ (s : State) (i : Instr), isReset s = true → s.ih.active = false → s.fg.phase = .putArm →
    i.format = .cg → (∀ b, i ≠ .putChar 0 b) → exec i s = .refused .commandInFlight

/-- R22, R117, R119: while an invocation executes, the foreground takes no step and no second invocation starts: the
model refuses them (log 14). -/
def Obligations.ActiveHandlerSuspendsTheForeground : Prop :=
  ∀ (s : State), isReset s = true → s.ih.active = true →
    (∀ i, i.format = .cg → exec i s = .refused .foregroundSuspended) ∧
    (∀ b, exec (.rbPush .fg .tx b) s = .refused .foregroundSuspended) ∧
    exec (.rbPop .fg .rx) s = .refused .foregroundSuspended ∧
    exec .ihInvoke s = .refused .nestedInvocation

/-! ### The handler (spec/42_interrupt_handler.md, spec/60_exceptions.md) -/

/-- R91: with `tx` not empty and the hardware writable, the transmit duty gives the oldest byte to the hardware, counts
it, and stores into TXIE whether `tx` is still non-empty; with `tx` empty or the hardware not writable it sends nothing
and stores into TXIE whether `tx` is non-empty. Nothing else changes. -/
def Obligations.TxDutySendsAtMostOneByte : Prop :=
  ∀ s : State, isReset s = true →
    (∀ b, s.tx.occ ≠ 0 → s.env.writable = true → s.tx.rd < s.tx.cap → Memory.read s.tx.mem s.tx.rd = some b →
      exec .ihTxduty s = .next
        { s with
          tx := { s.tx with rd := (s.tx.rd + 1) % s.tx.cap, occ := s.tx.occ - 1 }
          txie := decide (s.tx.occ - 1 ≠ 0)
          txcount := s.txcount + 1
          obs := { s.obs with wireTx := s.obs.wireTx ++ [b] } }) ∧
    (s.tx.occ = 0 ∨ s.env.writable = false → exec .ihTxduty s = .next { s with txie := decide (s.tx.occ ≠ 0) })

/-- R92, R70: the receive duty reads every byte the hardware offers, in order, counts each one, and appends to `rx` as
many as there is room for, dropping the newest; it stores to the slots from the write index on, one for each accepted
byte, and touches nothing else. -/
def Obligations.RxDutyDrainsTheHardware : Prop :=
  ∀ s : State, isReset s = true → s.rx.Inv → s.env.endless = false →
    ∃ t, exec .ihRxduty s = .next t ∧ t.rx.Inv ∧ t.rx.cap = s.rx.cap ∧ t.rx.rd = s.rx.rd ∧
      (∀ j, (∀ k < min s.env.rxq.length (s.rx.cap - s.rx.occ), j ≠ (s.rx.wr + k) % s.rx.cap) →
        Memory.read t.rx.mem j = Memory.read s.rx.mem j) ∧
      t.rx.contents = s.rx.contents ++ (s.env.rxq.take (s.rx.cap - s.rx.occ)).map some ∧
      t = { s with
        rx := t.rx
        rxcount := s.rxcount + BitVec.ofNat 32 s.env.rxq.length
        env := { s.env with rxq := [] }
        obs := { s.obs with wireRx := s.obs.wireRx ++ s.env.rxq } }

/-- R92 corner case d (U8): if the hardware stays readable for ever, the receive duty does not end: the step is the
hang, which the model shows as a fault (log 9), alone and inside an invocation whose transmit duty ends. -/
def Obligations.EndlessReceiveHangs : Prop :=
  ∀ s : State, isReset s = true → s.env.endless = true →
    exec .ihRxduty s = .fault .receiveHang ∧
    (s.ih.active = false → s.tx.Inv → exec .ihInvoke s = .fault .receiveHang)

/-- R90, R98 (i): under P_E2 an invocation completes; it is the transmit duty and then the receive duty as one step, no
invocation is left active, TXIE says whether `tx` is non-empty, and the foreground is left exactly as it was (R117). -/
def Obligations.InvokeIsTransmitThenReceive : Prop :=
  ∀ s : State, isReset s = true → s.tx.Inv → s.rx.Inv → s.ih.active = false → s.env.endless = false →
    ∃ t1 t, exec .ihTxduty s = .next t1 ∧ exec .ihRxduty t1 = .next t ∧ exec .ihInvoke s = .next t ∧
      t.ih.active = false ∧ t.txie = decide (t.tx.occ ≠ 0) ∧ t.fg = s.fg ∧ t.obs.replies = s.obs.replies

/-- R112: the interrupt request, in terms of the two enables and what ENV answers: writable, or a byte waiting, or bytes
for ever. -/
def Obligations.InterruptRequestEquation : Prop :=
  ∀ s : State,
    irq s = true ↔
      (s.txie = true ∧ s.env.writable = true) ∨
      (s.rxie = true ∧ ((∃ b rest, s.env.rxq = b :: rest) ∨ s.env.endless = true))

/-- R16, R40: TXIE is written by PUT_CHAR's second step, which stores 1, and by the transmit duty, which stores whether
`tx` is non-empty after it; every other operation leaves it, and no stored value depends on the old one. -/
def Obligations.TxieHasTwoWriters : Prop :=
  ∀ (s t : State) (i : Instr), exec i s = .next t →
    t.txie =
      match i with
      | .putChar _ _ => if s.fg.phase = .putArm then true else s.txie
      | .ihInvoke => decide (t.tx.occ ≠ 0)
      | .ihTxduty => decide (t.tx.occ ≠ 0)
      | _ => s.txie

/-- R95 (U7): no operation gives a byte to a hardware that is not writable or takes one from a hardware that is not
readable: the refusals for those never happen. -/
def Obligations.UartCallsAreGuarded : Prop :=
  ∀ (s : State) (i : Instr), exec i s ≠ .refused .uartNotWritable ∧ exec i s ≠ .refused .uartNotReadable

/-- R63, R71, R73, R81 (staleness is an inference the spec draws from R61, R62 and R71): between the steps of a role's
own operations, what it last saw of its queue errs on the safe side: under the role binding a step leaves `tx` no fuller
unless it is the foreground's push, which adds one byte, and leaves `rx` no emptier unless it answers a GET_CHAR, which
takes one. -/
def Obligations.CountsGoStaleOnTheSafeSide : Prop :=
  ∀ s t : State, s.Inv → Roles s → step s = .next t →
    (t.tx.occ ≤ s.tx.occ ∨ (s.fg.phase = .idle ∧ t.fg.phase = .putArm ∧ t.tx.occ = s.tx.occ + 1)) ∧
    (s.rx.occ ≤ t.rx.occ ∨
      (t.rx.occ + 1 = s.rx.occ ∧ ∃ sid r, t.obs.replies = s.obs.replies ++ [{ cmd := .getChar sid, stat := .ok, res := r }]))

/-- R118, R84, R71: a call-gate command changes nothing that belongs to the interrupt context, and a handler step
nothing that belongs to the foreground. -/
def Obligations.ContextsKeepToTheirOwnState : Prop :=
  ∀ (s t : State) (i : Instr), exec i s = .next t →
    (i.format = .cg →
      t.tx.rd = s.tx.rd ∧ t.rx.wr = s.rx.wr ∧ t.rx.mem = s.rx.mem ∧ (s.txie = true → t.txie = true) ∧
      t.rxie = s.rxie ∧ t.txcount = s.txcount ∧ t.rxcount = s.rxcount ∧ t.ih = s.ih ∧ t.env = s.env ∧
      t.obs.wireTx = s.obs.wireTx ∧ t.obs.wireRx = s.obs.wireRx) ∧
    (i.format = .event →
      t.tx.wr = s.tx.wr ∧ t.tx.mem = s.tx.mem ∧ t.rx.rd = s.rx.rd ∧ t.fg = s.fg ∧ t.rxie = s.rxie ∧
      t.obs.replies = s.obs.replies)

/-! ### Whole runs -/

/-- R14, R17, R22, and R15 and R101, which the spec derives: every step, whatever turn it takes, keeps the invariants:
indices and occupancies in range, `wr = (rd + occ) mod C`, the storages canonical and within capacity, the occupied
slots written, RXIE = 1, no invocation left active, and the counters equal to the lengths of the traces. -/
def Obligations.EveryStepKeepsTheInvariant : Prop :=
  ∀ s t : State, s.Inv → step s = .next t → t.Inv

/-- R98 (ii), which the spec derives from R25, R79 and R91; R144: under the premises P_ROLES and P_E2, every step keeps
the invariants together with the handshake, the command in flight and the premises themselves. -/
def Obligations.EveryStepKeepsSafety : Prop :=
  ∀ s t : State, Safe s → step s = .next t → Safe t

/-- R25, R144: the reset state satisfies all of them, with any foreground program and any schedule that keeps the
premises. -/
def Obligations.ResetIsSafe : Prop :=
  ∀ (cmds : List Word) (sched : List Turn),
    (∀ u ∈ sched, u.inContract = true ∧ u.keepsE2 = true) → Safe (startState cmds sched)

/-- R74, R82, R110: under the premises no step faults, blocks or is refused, so a run goes on for any number of steps
and stays safe. -/
def Obligations.SafeRunsNeverStop : Prop :=
  ∀ (n : Nat) (s : State), Safe s → ∃ t, run n s = .next t ∧ Safe t

/-- R15, which the spec derives from R25, R61 and R62: in every state reached from reset, with any foreground program
and any schedule, the write index of each instance is the read index plus the occupancy modulo the capacity. -/
def Obligations.ReachableIndexEquation : Prop :=
  ∀ (n : Nat) (cmds : List Word) (sched : List Turn) (t : State) (q : Queue),
    run n (startState cmds sched) = .next t →
    (t.ring q).wr = ((t.ring q).rd + (t.ring q).occ) % (t.ring q).cap

/-- R101, which the spec derives from R91, R92 and R25: in every state reached from reset the counters are the lengths
of the traces modulo 2^32. -/
def Obligations.ReachableCountersCountTheWires : Prop :=
  ∀ (n : Nat) (cmds : List Word) (sched : List Turn) (t : State),
    run n (startState cmds sched) = .next t →
    t.txcount.toNat = t.obs.wireTx.length % 2 ^ 32 ∧ t.rxcount.toNat = t.obs.wireRx.length % 2 ^ 32

/-- R98, which the spec derives from R25, R79 and R91: (i) at the end of every invocation TXIE says whether `tx` is
non-empty; (ii) in every state reached from reset under the role binding with the foreground in IDLE, a non-empty `tx`
is armed; and the converse of (ii) is false: a state with TXIE = 1 over an empty `tx` is reached. -/
def Obligations.HandshakeInvariant : Prop :=
  (∀ s t : State, exec .ihInvoke s = .next t → t.txie = decide (t.tx.occ ≠ 0)) ∧
  (∀ (n : Nat) (cmds : List Word) (sched : List Turn) (t : State), (∀ u ∈ sched, u.inContract = true) →
    run n (startState cmds sched) = .next t →
    t.fg.phase = .idle → t.tx.occ ≠ 0 → t.txie = true) ∧
  ∃ (n : Nat) (cmds : List Word) (sched : List Turn) (t : State), (∀ u ∈ sched, u.inContract = true) ∧
    run n (startState cmds sched) = .next t ∧ t.fg.phase = .idle ∧ t.tx.occ = 0 ∧ t.txie = true

/-- R5, R23, R13: no step changes the capacity of a queue. -/
def Obligations.CapacityIsFixed : Prop :=
  ∀ s t : State, step s = .next t → t.tx.cap = s.tx.cap ∧ t.rx.cap = s.rx.cap

/-- R91 corner case a, R95: a step gives at most one byte to the hardware, and only a step that runs the transmit duty
gives one: an invocation, or the duty alone (log 16), or the invocation of the eager order (log 7). So a run over
scheduled turns sends at most as many bytes as it has such turns: draining `n` bytes takes at least `n` of them, which
the spec infers in R99. The four observation traces only grow, which is how the model records them (log 17). -/
def Obligations.AtMostOneByteSentPerStep : Prop :=
  (∀ s t : State, step s = .next t →
    (∃ sent, t.obs.wireTx = s.obs.wireTx ++ sent ∧ sent.length ≤ 1 ∧
      (sent ≠ [] → (∃ u us, s.sched = u :: us ∧ u.transmits = true) ∨ (s.sched = [] ∧ irq s = true))) ∧
    s.obs.wireRx <+: t.obs.wireRx ∧ s.obs.replies <+: t.obs.replies ∧ s.obs.ports <+: t.obs.ports) ∧
  ∀ (n : Nat) (s t : State), n ≤ s.sched.length → run n s = .next t →
    t.obs.wireTx.length ≤ s.obs.wireTx.length + (s.sched.take n).countP Turn.transmits

/-- R68, and R100 (transmit), which the spec derives from it: over any run under the role binding, what is on the wire
followed by what is queued grows only at its end, and what is added is, in order and without repetition, taken from the
bytes of the PUT_CHAR commands of the foreground's program: nothing is reordered, duplicated or invented. -/
def Obligations.TransmitEndToEndOrder : Prop :=
  ∀ (n : Nat) (s t : State), s.Inv → InFlight s → Roles s → run n s = .next t →
    ∃ accepted : List Byte,
      txHistory t = txHistory s ++ accepted.map some ∧ (accepted ++ unpushed t).Sublist (unpushed s)

/-- R68, and R100 (receive), which the spec derives from it: over any run under the role binding, what the foreground
has received followed by what is queued grows only at its end, and what is added is, in order and without repetition,
taken from the bytes read from the hardware in that run. -/
def Obligations.ReceiveEndToEndOrder : Prop :=
  ∀ (n : Nat) (s t : State), s.Inv → Roles s → run n s = .next t →
    ∃ accepted read : List Byte,
      rxHistory t = rxHistory s ++ accepted.map some ∧ t.obs.wireRx = s.obs.wireRx ++ read ∧ accepted.Sublist read

/-- R91, and R99, which the spec derives. Bounded (log 25): with a writable hardware that ends its reads, `k`
invocations in a row send the `k` oldest bytes of `tx`, in order, and the last of them leaves TXIE saying whether bytes
remain. Without end: under P_RESET and P_ROLES every byte accepted into `tx` is eventually given to the hardware, in
order, either under P_E3 with invocations that go on for ever, or under P_FAIR and P_FGDONE with a hardware that again
and again becomes writable and stays so until it is asked. The two premises without a name in R144 are the model's
choice (log 25): P_E3 and P_FAIR as worded do not force an invocation of a hardware that is writable only now and then.
-/
def Obligations.InvocationsDrainTheQueue : Prop :=
  (∀ (k : Nat) (s : State) (ts : List Turn), s.Inv → s.env.writable = true → s.env.endless = false → k ≤ s.tx.occ →
    s.sched = List.replicate k (.event .invoke) ++ ts →
    ∃ t, run k s = .next t ∧ t.sched = ts ∧ t.tx.occ = s.tx.occ - k ∧
      t.obs.wireTx.map some = s.obs.wireTx.map some ++ s.tx.contents.take k ∧
      (0 < k → t.txie = decide (t.tx.occ ≠ 0))) ∧
  (∀ e : Execution, e.PReset → e.PRoles → e.PE3 → e.InvokesForever → e.Delivers) ∧
  ∀ e : Execution, e.PReset → e.PRoles → e.PFair → e.PFgDone → e.StaysWritable → e.Delivers

/-- R142, R115, R99: from a safe state with the schedule exhausted, the foreground's program done and the hardware
writable, the eager order reaches a quiescent state with `tx` drained and TXIE = 0 after at most one step more than the
bytes queued. That the agents run eagerly when no turn is scheduled is the model's choice (log 7). -/
def Obligations.EagerRunReachesQuiescence : Prop :=
  ∀ s : State, Safe s → s.sched = [] → s.fg.cmds = [] → s.env.writable = true →
    ∃ t, run (s.tx.occ + 1) s = .next t ∧ Quiescent t ∧ t.tx.occ = 0 ∧ t.txie = false ∧ t.env.rxq = [] ∧
      t.obs.wireTx.map some = s.obs.wireTx.map some ++ s.tx.contents

/-- R35 (U3), R14: stale and never-written slots cannot be observed. Two states that differ only there take the same
step: the same turn, the same responses, the same bytes on the wires, and they still differ only there. That an
unspecified RES is the same in both is the model's choice (log 5): the two states have equal draw counters, and equal
counters give equal draws. -/
def Obligations.StaleSlotsAreUnobservable : Prop :=
  ∀ s s' t : State, s.Inv → s'.Inv → s.SameButStale s' → step s = .next t →
    ∃ t', step s' = .next t' ∧ t.SameButStale t'
end

