-- ==== Sys2Proof/Laws/Decode.lean ====
section
/-! SUPPORT. The fields of a command word and of a push pattern: what each accessor reads from what the encoder writes. -/

namespace Sys2Proof

/-! ### Command words -/

/-- A command word is its four fields. -/
theorem commandWord_fields (w : Word) :
    commandWord (rsvField w) (dataField w) (streamField w) (opField w) = w := by
  refine BitVec.eq_of_getLsbD_eq fun j hj => ?_
  simp only [commandWord, rsvField, dataField, streamField, opField, BitVec.getLsbD_append, BitVec.getLsbD_extractLsb']
  interval_cases j <;> simp

@[simp] theorem rsvField_commandWord (a b c d : Byte) : rsvField (commandWord a b c d) = a := by
  refine BitVec.eq_of_getLsbD_eq fun j hj => ?_
  simp only [commandWord, rsvField, BitVec.getLsbD_append, BitVec.getLsbD_extractLsb']
  interval_cases j <;> simp

@[simp] theorem dataField_commandWord (a b c d : Byte) : dataField (commandWord a b c d) = b := by
  refine BitVec.eq_of_getLsbD_eq fun j hj => ?_
  simp only [commandWord, dataField, BitVec.getLsbD_append, BitVec.getLsbD_extractLsb']
  interval_cases j <;> simp

@[simp] theorem streamField_commandWord (a b c d : Byte) : streamField (commandWord a b c d) = c := by
  refine BitVec.eq_of_getLsbD_eq fun j hj => ?_
  simp only [commandWord, streamField, BitVec.getLsbD_append, BitVec.getLsbD_extractLsb']
  interval_cases j <;> simp

@[simp] theorem opField_commandWord (a b c d : Byte) : opField (commandWord a b c d) = d := by
  refine BitVec.eq_of_getLsbD_eq fun j hj => ?_
  simp only [commandWord, opField, BitVec.getLsbD_append, BitVec.getLsbD_extractLsb']
  interval_cases j <;> simp

theorem commandWord_inj {a b c d a' b' c' d' : Byte} :
    commandWord a b c d = commandWord a' b' c' d' ↔ a = a' ∧ b = b' ∧ c = c' ∧ d = d' := by
  constructor
  · intro h
    exact ⟨by simpa using congrArg rsvField h, by simpa using congrArg dataField h,
      by simpa using congrArg streamField h, by simpa using congrArg opField h⟩
  · rintro ⟨rfl, rfl, rfl, rfl⟩
    rfl

/-- A mask acts field by field. -/
theorem commandWord_and (a b c d a' b' c' d' : Byte) :
    commandWord a b c d &&& commandWord a' b' c' d' =
      commandWord (a &&& a') (b &&& b') (c &&& c') (d &&& d') := by
  refine BitVec.eq_of_getLsbD_eq fun j hj => ?_
  simp only [commandWord, BitVec.getLsbD_append, BitVec.getLsbD_and]
  split <;> (try split) <;> (try split) <;> rfl

theorem and_ones (a : Byte) : a &&& 0xFF = a := by
  rw [show (0xFF : Byte) = BitVec.allOnes 8 by decide, BitVec.and_allOnes]

/-- The mask of a CG row keeps RSV and OP (R48). -/
theorem row_mask (w : Word) : w &&& 0xFF0000FF = commandWord (rsvField w) 0 0 (opField w) := by
  conv_lhs => rw [← commandWord_fields w, show (0xFF0000FF : Word) = commandWord 0xFF 0 0 0xFF by decide,
    commandWord_and, and_ones, and_ones]
  simp

/-- The reserved space in terms of the fields (R47). -/
theorem reservedWord_iff (w : Word) :
    reservedWord w = true ↔
      rsvField w ≠ 0 ∨ (opField w ≠ 0 ∧ opField w ≠ 2 ∧ opField w ≠ 3 ∧ opField w ≠ 4) := by
  unfold reservedWord operationMatches
  rw [row_mask, show (0x00000000 : Word) = commandWord 0 0 0 0 by decide,
    show (0x00000002 : Word) = commandWord 0 0 0 2 by decide, show (0x00000003 : Word) = commandWord 0 0 0 3 by decide,
    show (0x00000004 : Word) = commandWord 0 0 0 4 by decide]
  simp only [Bool.not_eq_true', List.contains_eq_mem, decide_eq_false_iff_not, List.mem_cons, List.not_mem_nil, or_false,
    commandWord_inj, true_and, not_or, not_and]
  tauto

theorem rsvField_toNat (w : Word) : (rsvField w).toNat = w.toNat / 2 ^ 24 := by
  have := w.isLt
  simp only [rsvField, BitVec.extractLsb'_toNat, Nat.shiftRight_eq_div_pow]
  omega

theorem opField_toNat (w : Word) : (opField w).toNat = w.toNat % 2 ^ 8 := by
  simp [opField, BitVec.extractLsb'_toNat]

/-! ### Push patterns -/

/-- The nine bits of a push carry the strobe above the byte (R53). -/
theorem push_strobe (b : Byte) : (1#1 ++ b).extractLsb' 8 1 = 1#1 := by
  refine BitVec.eq_of_getLsbD_eq fun j hj => ?_
  simp only [BitVec.getLsbD_append, BitVec.getLsbD_extractLsb']
  interval_cases j
  simp

theorem push_data (b : Byte) : (1#1 ++ b).extractLsb' 0 8 = b := by
  refine BitVec.eq_of_getLsbD_eq fun j hj => ?_
  simp only [BitVec.getLsbD_append, BitVec.getLsbD_extractLsb']
  interval_cases j <;> simp

end Sys2Proof
end

