-- ==== Sys2Proof/Laws/Memory.lean ====
section
/-! SUPPORT. The laws of the storage: reading after writing, and the canonical form is kept. -/

namespace Sys2Proof.Machine

/-- Reading after a write: the written byte at its index, everything else as before. -/
theorem read_write (m : List Host.Cell) (i j : Nat) (v : Byte) (h : Memory.wf m) :
    Memory.read (Memory.write m i v) j = if i = j then some v else Memory.read m j := by
  induction m with
  | nil => simp [Memory.write, Memory.read]
  | cons c m ih =>
    obtain ⟨k, b⟩ := c
    have ih := ih h.of_cons
    simp only [Memory.write]
    split
    · simp [Memory.read]
    · split
      · subst_vars
        simp only [Memory.read]
        split <;> simp_all
      · simp only [Memory.read, ih]
        by_cases hkj : k = j <;> by_cases hij : i = j <;> simp_all

theorem read_write_self (m : List Host.Cell) (i : Nat) (v : Byte) (h : Memory.wf m) :
    Memory.read (Memory.write m i v) i = some v := by simp [read_write m i i v h]

theorem read_write_ne (m : List Host.Cell) (i j : Nat) (v : Byte) (h : Memory.wf m) (hij : i ≠ j) :
    Memory.read (Memory.write m i v) j = Memory.read m j := by simp [read_write m i j v h, hij]

/-- The entries after a write are the new one and old ones. -/
theorem mem_write {m : List Host.Cell} {i : Nat} {v : Byte} {c : Host.Cell} (h : c ∈ Memory.write m i v) :
    c = (i, v) ∨ c ∈ m := by
  induction m with
  | nil => simpa [Memory.write] using h
  | cons d m ih =>
    obtain ⟨k, b⟩ := d
    simp only [Memory.write] at h
    split at h
    · simpa using h
    · split at h
      · rcases List.mem_cons.1 h with h | h <;> simp_all
      · rcases List.mem_cons.1 h with h | h
        · simp_all
        · rcases ih h with h | h <;> simp_all

/-- A write keeps the canonical form. -/
theorem write_wf (m : List Host.Cell) (i : Nat) (v : Byte) (h : Memory.wf m) : Memory.wf (Memory.write m i v) := by
  induction m with
  | nil => simp [Memory.write, Memory.wf]
  | cons c m ih =>
    obtain ⟨k, b⟩ := c
    obtain ⟨hk, hm⟩ := List.pairwise_cons.1 h
    simp only [Memory.write]
    split
    · refine List.pairwise_cons.2 ⟨fun c hc => ?_, h⟩
      rcases List.mem_cons.1 hc with rfl | hc
      · assumption
      · exact lt_trans ‹i < k› (hk c hc)
    · split
      · subst_vars
        exact List.pairwise_cons.2 ⟨hk, hm⟩
      · refine List.pairwise_cons.2 ⟨fun c hc => ?_, ih hm⟩
        rcases mem_write hc with rfl | hc
        · simp only; omega
        · exact hk c hc

/-- After reset both storages have the canonical form. -/
theorem reset_wf : Memory.wf State.reset.tx.mem ∧ Memory.wf State.reset.rx.mem :=
  ⟨List.Pairwise.nil, List.Pairwise.nil⟩

/-- In the canonical form an entry is what its index reads as. -/
theorem read_of_mem {m : List Host.Cell} {i : Nat} {b : Byte} (h : Memory.wf m) (hc : (i, b) ∈ m) :
    Memory.read m i = some b := by
  induction m with
  | nil => simp at hc
  | cons d m ih =>
    obtain ⟨k, v⟩ := d
    obtain ⟨hk, hm⟩ := List.pairwise_cons.1 h
    rcases List.mem_cons.1 hc with hc | hc
    · simp_all [Memory.read]
    · have := hk _ hc
      simp only [Memory.read]
      rw [if_neg (by simp only at this; omega), ih hm hc]

end Sys2Proof.Machine
end

