-- ==== Sys2Proof/Laws/State.lean ====
section
/-! SUPPORT. What each record update leaves in each field of the state: one lemma per field per update, so that no later
proof unfolds an update. -/

namespace Sys2Proof.Machine

variable (s : State)

/-! ### setRing -/

@[simp] theorem setRing_tx_queue_tx (r : Ring) : (s.setRing .tx r).tx = r := rfl
@[simp] theorem setRing_tx_queue_rx (r : Ring) : (s.setRing .tx r).rx = s.rx := rfl
@[simp] theorem setRing_tx_queue_txie (r : Ring) : (s.setRing .tx r).txie = s.txie := rfl
@[simp] theorem setRing_tx_queue_rxie (r : Ring) : (s.setRing .tx r).rxie = s.rxie := rfl
@[simp] theorem setRing_tx_queue_txcount (r : Ring) : (s.setRing .tx r).txcount = s.txcount := rfl
@[simp] theorem setRing_tx_queue_rxcount (r : Ring) : (s.setRing .tx r).rxcount = s.rxcount := rfl
@[simp] theorem setRing_tx_queue_fg (r : Ring) : (s.setRing .tx r).fg = s.fg := rfl
@[simp] theorem setRing_tx_queue_ih (r : Ring) : (s.setRing .tx r).ih = s.ih := rfl
@[simp] theorem setRing_tx_queue_env (r : Ring) : (s.setRing .tx r).env = s.env := rfl
@[simp] theorem setRing_tx_queue_obs (r : Ring) : (s.setRing .tx r).obs = s.obs := rfl
@[simp] theorem setRing_tx_queue_inOperation (r : Ring) : (s.setRing .tx r).inOperation = s.inOperation := rfl
@[simp] theorem setRing_tx_queue_portsOut (r : Ring) : (s.setRing .tx r).portsOut = s.portsOut := rfl
@[simp] theorem setRing_tx_queue_draws (r : Ring) : (s.setRing .tx r).draws = s.draws := rfl
@[simp] theorem setRing_tx_queue_sched (r : Ring) : (s.setRing .tx r).sched = s.sched := rfl


@[simp] theorem setRing_rx_queue_tx (r : Ring) : (s.setRing .rx r).tx = s.tx := rfl
@[simp] theorem setRing_rx_queue_rx (r : Ring) : (s.setRing .rx r).rx = r := rfl
@[simp] theorem setRing_rx_queue_txie (r : Ring) : (s.setRing .rx r).txie = s.txie := rfl
@[simp] theorem setRing_rx_queue_rxie (r : Ring) : (s.setRing .rx r).rxie = s.rxie := rfl
@[simp] theorem setRing_rx_queue_txcount (r : Ring) : (s.setRing .rx r).txcount = s.txcount := rfl
@[simp] theorem setRing_rx_queue_rxcount (r : Ring) : (s.setRing .rx r).rxcount = s.rxcount := rfl
@[simp] theorem setRing_rx_queue_fg (r : Ring) : (s.setRing .rx r).fg = s.fg := rfl
@[simp] theorem setRing_rx_queue_ih (r : Ring) : (s.setRing .rx r).ih = s.ih := rfl
@[simp] theorem setRing_rx_queue_env (r : Ring) : (s.setRing .rx r).env = s.env := rfl
@[simp] theorem setRing_rx_queue_obs (r : Ring) : (s.setRing .rx r).obs = s.obs := rfl
@[simp] theorem setRing_rx_queue_inOperation (r : Ring) : (s.setRing .rx r).inOperation = s.inOperation := rfl
@[simp] theorem setRing_rx_queue_portsOut (r : Ring) : (s.setRing .rx r).portsOut = s.portsOut := rfl
@[simp] theorem setRing_rx_queue_draws (r : Ring) : (s.setRing .rx r).draws = s.draws := rfl
@[simp] theorem setRing_rx_queue_sched (r : Ring) : (s.setRing .rx r).sched = s.sched := rfl

/-! ### draw8 -/

@[simp] theorem draw8_tx : ((draw8 s).2).tx = s.tx := rfl
@[simp] theorem draw8_rx : ((draw8 s).2).rx = s.rx := rfl
@[simp] theorem draw8_txie : ((draw8 s).2).txie = s.txie := rfl
@[simp] theorem draw8_rxie : ((draw8 s).2).rxie = s.rxie := rfl
@[simp] theorem draw8_txcount : ((draw8 s).2).txcount = s.txcount := rfl
@[simp] theorem draw8_rxcount : ((draw8 s).2).rxcount = s.rxcount := rfl
@[simp] theorem draw8_fg : ((draw8 s).2).fg = s.fg := rfl
@[simp] theorem draw8_ih : ((draw8 s).2).ih = s.ih := rfl
@[simp] theorem draw8_env : ((draw8 s).2).env = s.env := rfl
@[simp] theorem draw8_obs : ((draw8 s).2).obs = s.obs := rfl
@[simp] theorem draw8_inOperation : ((draw8 s).2).inOperation = s.inOperation := rfl
@[simp] theorem draw8_portsOut : ((draw8 s).2).portsOut = s.portsOut := rfl
@[simp] theorem draw8_draws : ((draw8 s).2).draws = s.draws + 1 := rfl
@[simp] theorem draw8_sched : ((draw8 s).2).sched = s.sched := rfl

/-! ### draw32 -/

@[simp] theorem draw32_tx : ((draw32 s).2).tx = s.tx := rfl
@[simp] theorem draw32_rx : ((draw32 s).2).rx = s.rx := rfl
@[simp] theorem draw32_txie : ((draw32 s).2).txie = s.txie := rfl
@[simp] theorem draw32_rxie : ((draw32 s).2).rxie = s.rxie := rfl
@[simp] theorem draw32_txcount : ((draw32 s).2).txcount = s.txcount := rfl
@[simp] theorem draw32_rxcount : ((draw32 s).2).rxcount = s.rxcount := rfl
@[simp] theorem draw32_fg : ((draw32 s).2).fg = s.fg := rfl
@[simp] theorem draw32_ih : ((draw32 s).2).ih = s.ih := rfl
@[simp] theorem draw32_env : ((draw32 s).2).env = s.env := rfl
@[simp] theorem draw32_obs : ((draw32 s).2).obs = s.obs := rfl
@[simp] theorem draw32_inOperation : ((draw32 s).2).inOperation = s.inOperation := rfl
@[simp] theorem draw32_portsOut : ((draw32 s).2).portsOut = s.portsOut := rfl
@[simp] theorem draw32_draws : ((draw32 s).2).draws = s.draws + 1 := rfl
@[simp] theorem draw32_sched : ((draw32 s).2).sched = s.sched := rfl

/-! ### respond -/

@[simp] theorem respond_tx (i : Instr) (st : Stat) (res : Word) : (respond i st res s).tx = s.tx := rfl
@[simp] theorem respond_rx (i : Instr) (st : Stat) (res : Word) : (respond i st res s).rx = s.rx := rfl
@[simp] theorem respond_txie (i : Instr) (st : Stat) (res : Word) : (respond i st res s).txie = s.txie := rfl
@[simp] theorem respond_rxie (i : Instr) (st : Stat) (res : Word) : (respond i st res s).rxie = s.rxie := rfl
@[simp] theorem respond_txcount (i : Instr) (st : Stat) (res : Word) : (respond i st res s).txcount = s.txcount := rfl
@[simp] theorem respond_rxcount (i : Instr) (st : Stat) (res : Word) : (respond i st res s).rxcount = s.rxcount := rfl
@[simp] theorem respond_fg (i : Instr) (st : Stat) (res : Word) : (respond i st res s).fg = s.fg := rfl
@[simp] theorem respond_ih (i : Instr) (st : Stat) (res : Word) : (respond i st res s).ih = s.ih := rfl
@[simp] theorem respond_env (i : Instr) (st : Stat) (res : Word) : (respond i st res s).env = s.env := rfl
@[simp] theorem respond_obs (i : Instr) (st : Stat) (res : Word) : (respond i st res s).obs = { s.obs with replies := s.obs.replies ++ [{ cmd := i, stat := st, res := res }] } := rfl
@[simp] theorem respond_inOperation (i : Instr) (st : Stat) (res : Word) : (respond i st res s).inOperation = s.inOperation := rfl
@[simp] theorem respond_portsOut (i : Instr) (st : Stat) (res : Word) : (respond i st res s).portsOut = s.portsOut := rfl
@[simp] theorem respond_draws (i : Instr) (st : Stat) (res : Word) : (respond i st res s).draws = s.draws := rfl
@[simp] theorem respond_sched (i : Instr) (st : Stat) (res : Word) : (respond i st res s).sched = s.sched := rfl

/-! ### respondUnspecified -/

@[simp] theorem respondUnspecified_tx (i : Instr) (st : Stat) : (respondUnspecified i st s).tx = s.tx := rfl
@[simp] theorem respondUnspecified_rx (i : Instr) (st : Stat) : (respondUnspecified i st s).rx = s.rx := rfl
@[simp] theorem respondUnspecified_txie (i : Instr) (st : Stat) : (respondUnspecified i st s).txie = s.txie := rfl
@[simp] theorem respondUnspecified_rxie (i : Instr) (st : Stat) : (respondUnspecified i st s).rxie = s.rxie := rfl
@[simp] theorem respondUnspecified_txcount (i : Instr) (st : Stat) : (respondUnspecified i st s).txcount = s.txcount := rfl
@[simp] theorem respondUnspecified_rxcount (i : Instr) (st : Stat) : (respondUnspecified i st s).rxcount = s.rxcount := rfl
@[simp] theorem respondUnspecified_fg (i : Instr) (st : Stat) : (respondUnspecified i st s).fg = s.fg := rfl
@[simp] theorem respondUnspecified_ih (i : Instr) (st : Stat) : (respondUnspecified i st s).ih = s.ih := rfl
@[simp] theorem respondUnspecified_env (i : Instr) (st : Stat) : (respondUnspecified i st s).env = s.env := rfl
@[simp] theorem respondUnspecified_obs (i : Instr) (st : Stat) : (respondUnspecified i st s).obs = 
    { s.obs with replies := s.obs.replies ++ [{ cmd := i, stat := st, res := Config.unspecified32 s.draws }] } := rfl
@[simp] theorem respondUnspecified_inOperation (i : Instr) (st : Stat) : (respondUnspecified i st s).inOperation = s.inOperation := rfl
@[simp] theorem respondUnspecified_portsOut (i : Instr) (st : Stat) : (respondUnspecified i st s).portsOut = s.portsOut := rfl
@[simp] theorem respondUnspecified_draws (i : Instr) (st : Stat) : (respondUnspecified i st s).draws = s.draws + 1 := rfl
@[simp] theorem respondUnspecified_sched (i : Instr) (st : Stat) : (respondUnspecified i st s).sched = s.sched := rfl

/-! ### portReply -/

@[simp] theorem portReply_tx (p : PortReply) : (portReply p s).tx = s.tx := rfl
@[simp] theorem portReply_rx (p : PortReply) : (portReply p s).rx = s.rx := rfl
@[simp] theorem portReply_txie (p : PortReply) : (portReply p s).txie = s.txie := rfl
@[simp] theorem portReply_rxie (p : PortReply) : (portReply p s).rxie = s.rxie := rfl
@[simp] theorem portReply_txcount (p : PortReply) : (portReply p s).txcount = s.txcount := rfl
@[simp] theorem portReply_rxcount (p : PortReply) : (portReply p s).rxcount = s.rxcount := rfl
@[simp] theorem portReply_fg (p : PortReply) : (portReply p s).fg = s.fg := rfl
@[simp] theorem portReply_ih (p : PortReply) : (portReply p s).ih = s.ih := rfl
@[simp] theorem portReply_env (p : PortReply) : (portReply p s).env = s.env := rfl
@[simp] theorem portReply_obs (p : PortReply) : (portReply p s).obs = { s.obs with ports := s.obs.ports ++ [p] } := rfl
@[simp] theorem portReply_inOperation (p : PortReply) : (portReply p s).inOperation = s.inOperation := rfl
@[simp] theorem portReply_portsOut (p : PortReply) : (portReply p s).portsOut = s.portsOut := rfl
@[simp] theorem portReply_draws (p : PortReply) : (portReply p s).draws = s.draws := rfl
@[simp] theorem portReply_sched (p : PortReply) : (portReply p s).sched = s.sched := rfl

/-! ### consumeByte -/

@[simp] theorem consumeByte_tx (b : Byte) (rest : List Byte) : (consumeByte b rest s).tx = s.tx := rfl
@[simp] theorem consumeByte_rx (b : Byte) (rest : List Byte) : (consumeByte b rest s).rx = s.rx := rfl
@[simp] theorem consumeByte_txie (b : Byte) (rest : List Byte) : (consumeByte b rest s).txie = s.txie := rfl
@[simp] theorem consumeByte_rxie (b : Byte) (rest : List Byte) : (consumeByte b rest s).rxie = s.rxie := rfl
@[simp] theorem consumeByte_txcount (b : Byte) (rest : List Byte) : (consumeByte b rest s).txcount = s.txcount := rfl
@[simp] theorem consumeByte_rxcount (b : Byte) (rest : List Byte) : (consumeByte b rest s).rxcount = s.rxcount := rfl
@[simp] theorem consumeByte_fg (b : Byte) (rest : List Byte) : (consumeByte b rest s).fg = s.fg := rfl
@[simp] theorem consumeByte_ih (b : Byte) (rest : List Byte) : (consumeByte b rest s).ih = s.ih := rfl
@[simp] theorem consumeByte_env (b : Byte) (rest : List Byte) : (consumeByte b rest s).env = { s.env with rxq := rest } := rfl
@[simp] theorem consumeByte_obs (b : Byte) (rest : List Byte) : (consumeByte b rest s).obs = { s.obs with wireRx := s.obs.wireRx ++ [b] } := rfl
@[simp] theorem consumeByte_inOperation (b : Byte) (rest : List Byte) : (consumeByte b rest s).inOperation = s.inOperation := rfl
@[simp] theorem consumeByte_portsOut (b : Byte) (rest : List Byte) : (consumeByte b rest s).portsOut = s.portsOut := rfl
@[simp] theorem consumeByte_draws (b : Byte) (rest : List Byte) : (consumeByte b rest s).draws = s.draws := rfl
@[simp] theorem consumeByte_sched (b : Byte) (rest : List Byte) : (consumeByte b rest s).sched = s.sched := rfl

/-! ### putCharArm -/

@[simp] theorem putCharArm_tx (i : Instr) : (putCharArm i s).tx = s.tx := rfl
@[simp] theorem putCharArm_rx (i : Instr) : (putCharArm i s).rx = s.rx := rfl
@[simp] theorem putCharArm_txie (i : Instr) : (putCharArm i s).txie = true := rfl
@[simp] theorem putCharArm_rxie (i : Instr) : (putCharArm i s).rxie = s.rxie := rfl
@[simp] theorem putCharArm_txcount (i : Instr) : (putCharArm i s).txcount = s.txcount := rfl
@[simp] theorem putCharArm_rxcount (i : Instr) : (putCharArm i s).rxcount = s.rxcount := rfl
@[simp] theorem putCharArm_fg (i : Instr) : (putCharArm i s).fg = { s.fg with phase := .idle } := rfl
@[simp] theorem putCharArm_ih (i : Instr) : (putCharArm i s).ih = s.ih := rfl
@[simp] theorem putCharArm_env (i : Instr) : (putCharArm i s).env = s.env := rfl
@[simp] theorem putCharArm_obs (i : Instr) : (putCharArm i s).obs = 
    { s.obs with replies := s.obs.replies ++ [{ cmd := i, stat := .ok, res := s.fg.pend }] } := rfl
@[simp] theorem putCharArm_inOperation (i : Instr) : (putCharArm i s).inOperation = s.inOperation := rfl
@[simp] theorem putCharArm_portsOut (i : Instr) : (putCharArm i s).portsOut = s.portsOut := rfl
@[simp] theorem putCharArm_draws (i : Instr) : (putCharArm i s).draws = s.draws := rfl
@[simp] theorem putCharArm_sched (i : Instr) : (putCharArm i s).sched = s.sched := rfl

/-! ### handlerReturn -/

@[simp] theorem handlerReturn_tx : (handlerReturn s).tx = s.tx := rfl
@[simp] theorem handlerReturn_rx : (handlerReturn s).rx = s.rx := rfl
@[simp] theorem handlerReturn_txie : (handlerReturn s).txie = s.txie := rfl
@[simp] theorem handlerReturn_rxie : (handlerReturn s).rxie = s.rxie := rfl
@[simp] theorem handlerReturn_txcount : (handlerReturn s).txcount = s.txcount := rfl
@[simp] theorem handlerReturn_rxcount : (handlerReturn s).rxcount = s.rxcount := rfl
@[simp] theorem handlerReturn_fg : (handlerReturn s).fg = s.fg := rfl
@[simp] theorem handlerReturn_ih : (handlerReturn s).ih = { active := false } := rfl
@[simp] theorem handlerReturn_env : (handlerReturn s).env = s.env := rfl
@[simp] theorem handlerReturn_obs : (handlerReturn s).obs = s.obs := rfl
@[simp] theorem handlerReturn_inOperation : (handlerReturn s).inOperation = s.inOperation := rfl
@[simp] theorem handlerReturn_portsOut : (handlerReturn s).portsOut = s.portsOut := rfl
@[simp] theorem handlerReturn_draws : (handlerReturn s).draws = s.draws := rfl
@[simp] theorem handlerReturn_sched : (handlerReturn s).sched = s.sched := rfl

/-! ### lineReset -/

@[simp] theorem lineReset_tx : (lineReset s).tx = s.tx := rfl
@[simp] theorem lineReset_rx : (lineReset s).rx = s.rx := rfl
@[simp] theorem lineReset_txie : (lineReset s).txie = false := rfl
@[simp] theorem lineReset_rxie : (lineReset s).rxie = true := rfl
@[simp] theorem lineReset_txcount : (lineReset s).txcount = 0 := rfl
@[simp] theorem lineReset_rxcount : (lineReset s).rxcount = 0 := rfl
@[simp] theorem lineReset_fg : (lineReset s).fg = { s.fg with phase := .idle } := rfl
@[simp] theorem lineReset_ih : (lineReset s).ih = { active := false } := rfl
@[simp] theorem lineReset_env : (lineReset s).env = s.env := rfl
@[simp] theorem lineReset_obs : (lineReset s).obs = s.obs := rfl
@[simp] theorem lineReset_inOperation : (lineReset s).inOperation = true := rfl
@[simp] theorem lineReset_portsOut : (lineReset s).portsOut = s.portsOut := rfl
@[simp] theorem lineReset_draws : (lineReset s).draws = s.draws := rfl
@[simp] theorem lineReset_sched : (lineReset s).sched = s.sched := rfl

/-! ### withTurn -/

@[simp] theorem withTurn_tx (t : Turn) : (s.withTurn t).tx = s.tx := rfl
@[simp] theorem withTurn_rx (t : Turn) : (s.withTurn t).rx = s.rx := rfl
@[simp] theorem withTurn_txie (t : Turn) : (s.withTurn t).txie = s.txie := rfl
@[simp] theorem withTurn_rxie (t : Turn) : (s.withTurn t).rxie = s.rxie := rfl
@[simp] theorem withTurn_txcount (t : Turn) : (s.withTurn t).txcount = s.txcount := rfl
@[simp] theorem withTurn_rxcount (t : Turn) : (s.withTurn t).rxcount = s.rxcount := rfl
@[simp] theorem withTurn_fg (t : Turn) : (s.withTurn t).fg = s.fg := rfl
@[simp] theorem withTurn_ih (t : Turn) : (s.withTurn t).ih = s.ih := rfl
@[simp] theorem withTurn_env (t : Turn) : (s.withTurn t).env = s.env := rfl
@[simp] theorem withTurn_obs (t : Turn) : (s.withTurn t).obs = s.obs := rfl
@[simp] theorem withTurn_inOperation (t : Turn) : (s.withTurn t).inOperation = s.inOperation := rfl
@[simp] theorem withTurn_portsOut (t : Turn) : (s.withTurn t).portsOut = s.portsOut := rfl
@[simp] theorem withTurn_draws (t : Turn) : (s.withTurn t).draws = s.draws := rfl
@[simp] theorem withTurn_sched (t : Turn) : (s.withTurn t).sched = t :: s.sched := rfl

/-! ### ring -/

@[simp] theorem ring_tx : s.ring .tx = s.tx := rfl
@[simp] theorem ring_rx : s.ring .rx = s.rx := rfl
@[simp] theorem setRing_ring (q : Queue) (r : Ring) : (s.setRing q r).ring q = r := by cases q <;> rfl
theorem setRing_ring_ne (q p : Queue) (r : Ring) (h : p ≠ q) : (s.setRing q r).ring p = s.ring p := by
  cases q <;> cases p <;> first | rfl | exact absurd rfl h
@[simp] theorem isReset_setRing (q : Queue) (r : Ring) : isReset (s.setRing q r) = isReset s := by cases q <;> rfl
@[simp] theorem setRing_self (q : Queue) : s.setRing q (s.ring q) = s := by cases q <;> rfl

/-! ### retire -/

theorem retire_idle (h : s.fg.phase = .idle) : retire s = { s with fg := { s.fg with cmds := s.fg.cmds.tail } } := by
  simp [retire, h]
theorem retire_putArm (h : s.fg.phase = .putArm) : retire s = s := by simp [retire, h]

@[simp] theorem retire_tx : (retire s).tx = s.tx := by unfold retire; split <;> rfl
@[simp] theorem retire_rx : (retire s).rx = s.rx := by unfold retire; split <;> rfl
@[simp] theorem retire_txie : (retire s).txie = s.txie := by unfold retire; split <;> rfl
@[simp] theorem retire_rxie : (retire s).rxie = s.rxie := by unfold retire; split <;> rfl
@[simp] theorem retire_txcount : (retire s).txcount = s.txcount := by unfold retire; split <;> rfl
@[simp] theorem retire_rxcount : (retire s).rxcount = s.rxcount := by unfold retire; split <;> rfl
@[simp] theorem retire_ih : (retire s).ih = s.ih := by unfold retire; split <;> rfl
@[simp] theorem retire_env : (retire s).env = s.env := by unfold retire; split <;> rfl
@[simp] theorem retire_obs : (retire s).obs = s.obs := by unfold retire; split <;> rfl
@[simp] theorem retire_inOperation : (retire s).inOperation = s.inOperation := by unfold retire; split <;> rfl
@[simp] theorem retire_portsOut : (retire s).portsOut = s.portsOut := by unfold retire; split <;> rfl
@[simp] theorem retire_draws : (retire s).draws = s.draws := by unfold retire; split <;> rfl
@[simp] theorem retire_sched : (retire s).sched = s.sched := by unfold retire; split <;> rfl
@[simp] theorem retire_phase : (retire s).fg.phase = s.fg.phase := by unfold retire; split <;> rfl
@[simp] theorem retire_pend : (retire s).fg.pend = s.fg.pend := by unfold retire; split <;> rfl

/-! ### Rings -/

variable (r : Ring)

@[simp] theorem pushed_cap (b : Byte) : (r.pushed b).cap = r.cap := rfl
@[simp] theorem pushed_wr (b : Byte) : (r.pushed b).wr = advance r.cap r.wr := rfl
@[simp] theorem pushed_rd (b : Byte) : (r.pushed b).rd = r.rd := rfl
@[simp] theorem pushed_occ (b : Byte) : (r.pushed b).occ = r.occ + 1 := rfl
@[simp] theorem pushed_mem (b : Byte) : (r.pushed b).mem = Memory.write r.mem r.wr b := rfl
@[simp] theorem pushed_ready (b : Byte) : (r.pushed b).ready = r.ready := rfl
@[simp] theorem popped_cap : r.popped.cap = r.cap := rfl
@[simp] theorem popped_wr : r.popped.wr = r.wr := rfl
@[simp] theorem popped_rd : r.popped.rd = advance r.cap r.rd := rfl
@[simp] theorem popped_occ : r.popped.occ = r.occ - 1 := rfl
@[simp] theorem popped_mem : r.popped.mem = r.mem := rfl
@[simp] theorem popped_ready : r.popped.ready = r.ready := rfl
@[simp] theorem cleared_cap : r.cleared.cap = r.cap := rfl
@[simp] theorem cleared_wr : r.cleared.wr = 0 := rfl
@[simp] theorem cleared_rd : r.cleared.rd = 0 := rfl
@[simp] theorem cleared_occ : r.cleared.occ = 0 := rfl
@[simp] theorem cleared_mem : r.cleared.mem = r.mem := rfl
@[simp] theorem cleared_ready : r.cleared.ready = true := rfl
@[simp] theorem freshRing_cap (C : Nat) : (freshRing C).cap = C := rfl
@[simp] theorem freshRing_wr (C : Nat) : (freshRing C).wr = 0 := rfl
@[simp] theorem freshRing_rd (C : Nat) : (freshRing C).rd = 0 := rfl
@[simp] theorem freshRing_occ (C : Nat) : (freshRing C).occ = 0 := rfl
@[simp] theorem freshRing_mem (C : Nat) : (freshRing C).mem = [] := rfl
@[simp] theorem freshRing_ready (C : Nat) : (freshRing C).ready = true := rfl

end Sys2Proof.Machine
end

