-- ==== Sys2Proof/Laws/Ops.lean ====
section
/-! SUPPORT. One lemma for each shared operation that says once everything it can do, and the equations of its cases. -/

namespace Sys2Proof.Machine

/-! ### Sequencing -/

@[simp] theorem andThen_next {α β : Type} (a : α) (f : α → Res β) : andThen (.next a) f = f a := rfl
@[simp] theorem andThen_fault {α β : Type} (r : Fault) (f : α → Res β) : andThen (.fault r) f = .fault r := rfl
@[simp] theorem andThen_refused {α β : Type} (r : Refusal) (f : α → Res β) : andThen (.refused r) f = .refused r := rfl

/-- A sequence answers next exactly when both parts do. -/
theorem andThen_eq_next {α β : Type} {o : Res α} {f : α → Res β} {b : β} :
    andThen o f = .next b ↔ ∃ a, o = .next a ∧ f a = .next b := by
  cases o <;> simp [andThen]

/-! ### Guards -/

theorem whenForegroundRuns_eq_next {s t : State} {k : Res State} :
    whenForegroundRuns s k = .next t ↔ isReset s = true ∧ s.ih.active = false ∧ k = .next t := by
  unfold whenForegroundRuns
  cases isReset s <;> cases s.ih.active <;> simp

theorem whenIdle_eq_next {s t : State} {k : Res State} :
    whenIdle s k = .next t ↔ isReset s = true ∧ s.ih.active = false ∧ s.fg.phase = .idle ∧ k = .next t := by
  rw [whenIdle, whenForegroundRuns_eq_next]
  cases s.fg.phase <;> simp

theorem whenAgentRuns_eq_next {a : Agent} {s t : State} {k : Res State} :
    whenAgentRuns a s k = .next t ↔ ¬(a = .fg ∧ s.ih.active = true) ∧ k = .next t := by
  unfold whenAgentRuns
  split <;> simp_all

theorem whenIdle_of_ready {s : State} (k : Res State) (hr : isReset s = true) (ha : s.ih.active = false)
    (hp : s.fg.phase = .idle) : whenIdle s k = k := by
  simp [whenIdle, whenForegroundRuns, hr, ha, hp]

theorem whenForegroundRuns_of_ready {s : State} (k : Res State) (hr : isReset s = true) (ha : s.ih.active = false) :
    whenForegroundRuns s k = k := by
  simp [whenForegroundRuns, hr, ha]

/-! ### The ring buffer -/

/-- Everything RB.INIT can do when it answers. -/
theorem initRing_eq_next {q : Queue} {s t : State} :
    initRing q s = .next t ↔
      (s.ring q).ready = false ∧ isReset s = false ∧ 1 ≤ (s.ring q).cap ∧ (s.ring q).cap ≤ Config.maxCapacity ∧
        s.setRing q (s.ring q).cleared = t := by
  unfold initRing
  cases (s.ring q).ready <;> cases isReset s <;> simp
  by_cases h1 : 1 ≤ (s.ring q).cap <;> by_cases h2 : (s.ring q).cap ≤ Config.maxCapacity
  · simp [h1, h2, Nat.ne_of_gt h1, Nat.not_lt.2 h2]
  · simp [h2, Nat.lt_of_not_le h2]
  · simp [Nat.lt_one_iff.1 (Nat.lt_of_not_le h1)]
  · simp [h2, Nat.lt_of_not_le h2]

/-- Everything RB.PUSH can do when it answers: it is rejected and changes nothing, or it stores the byte. -/
theorem pushRing_eq_next {q : Queue} {b : Byte} {s t : State} {n : Nat} :
    pushRing q b s = .next (n, t) ↔
      isReset s = true ∧
        (((s.ring q).occ = (s.ring q).cap ∧ 0 = n ∧ s = t) ∨
         ((s.ring q).occ ≠ (s.ring q).cap ∧ (s.ring q).wr < (s.ring q).cap ∧
          (s.ring q).cap - ((s.ring q).occ + 1) = n ∧ s.setRing q ((s.ring q).pushed b) = t)) := by
  unfold pushRing
  by_cases hr : isReset s = true <;> by_cases ho : (s.ring q).occ = (s.ring q).cap <;>
    by_cases hw : (s.ring q).wr < (s.ring q).cap <;> simp [hr, ho, hw]

theorem pushRing_accepted {q : Queue} {b : Byte} {s : State} (hr : isReset s = true)
    (hf : (s.ring q).occ ≠ (s.ring q).cap) (hw : (s.ring q).wr < (s.ring q).cap) :
    pushRing q b s = .next ((s.ring q).cap - ((s.ring q).occ + 1), s.setRing q ((s.ring q).pushed b)) :=
  pushRing_eq_next.2 ⟨hr, .inr ⟨hf, hw, rfl, rfl⟩⟩

theorem pushRing_rejected {q : Queue} {b : Byte} {s : State} (hr : isReset s = true)
    (hf : (s.ring q).occ = (s.ring q).cap) : pushRing q b s = .next (0, s) :=
  pushRing_eq_next.2 ⟨hr, .inl ⟨hf, rfl, rfl⟩⟩

/-- Everything RB.POP can do when it answers: it is empty and only draws a byte, or it takes the byte at the read index
(a drawn one if that slot was never written). -/
theorem popRing_eq_next {q : Queue} {s t : State} {b : Byte} {ok : Bool} :
    popRing q s = .next (b, ok, t) ↔
      isReset s = true ∧
        (((s.ring q).occ = 0 ∧ Config.unspecified8 s.draws = b ∧ false = ok ∧ (draw8 s).2 = t) ∨
         ((s.ring q).occ ≠ 0 ∧ (s.ring q).rd < (s.ring q).cap ∧ true = ok ∧
          ((Memory.read (s.ring q).mem (s.ring q).rd = some b ∧ s.setRing q (s.ring q).popped = t) ∨
           (Memory.read (s.ring q).mem (s.ring q).rd = none ∧ Config.unspecified8 s.draws = b ∧
            (draw8 s).2.setRing q (s.ring q).popped = t)))) := by
  unfold popRing
  by_cases hr : isReset s = true <;> by_cases ho : (s.ring q).occ = 0 <;>
    by_cases hd : (s.ring q).rd < (s.ring q).cap <;> simp [hr, ho, hd]
  · simp [draw8]
  · simp [draw8]
  · cases hm : Memory.read (s.ring q).mem (s.ring q).rd <;> simp [draw8, and_left_comm]

theorem popRing_taken {q : Queue} {s : State} {b : Byte} (hr : isReset s = true) (ho : (s.ring q).occ ≠ 0)
    (hd : (s.ring q).rd < (s.ring q).cap) (hm : Memory.read (s.ring q).mem (s.ring q).rd = some b) :
    popRing q s = .next (b, true, s.setRing q (s.ring q).popped) :=
  popRing_eq_next.2 ⟨hr, .inr ⟨ho, hd, rfl, .inl ⟨hm, rfl⟩⟩⟩

theorem popRing_empty {q : Queue} {s : State} (hr : isReset s = true) (ho : (s.ring q).occ = 0) :
    popRing q s = .next (Config.unspecified8 s.draws, false, (draw8 s).2) :=
  popRing_eq_next.2 ⟨hr, .inl ⟨ho, rfl, rfl, rfl⟩⟩

theorem usedRing_eq_next {q : Queue} {s : State} {n : Nat} :
    usedRing q s = .next n ↔ isReset s = true ∧ (s.ring q).occ = n := by
  unfold usedRing
  cases isReset s <;> simp

theorem freeRing_eq_next {q : Queue} {s : State} {n : Nat} :
    freeRing q s = .next n ↔ isReset s = true ∧ (s.ring q).cap - (s.ring q).occ = n := by
  unfold freeRing
  cases isReset s <;> simp

/-! ### The UART -/

theorem envWriteByte_eq_next {b : Byte} {s t : State} :
    envWriteByte b s = .next t ↔
      s.env.writable = true ∧ { s with obs := { s.obs with wireTx := s.obs.wireTx ++ [b] } } = t := by
  unfold envWriteByte envIsWritable
  cases s.env.writable <;> simp

/-- Everything `read_byte` can do when it answers. -/
theorem envReadByte_eq_next {s t : State} {b : Byte} :
    envReadByte s = .next (b, t) ↔
      (∃ rest, s.env.rxq = b :: rest ∧ consumeByte b rest s = t) ∨
      (s.env.rxq = [] ∧ s.env.endless = true ∧ Config.unspecified8 s.draws = b ∧ consumeByte b [] (draw8 s).2 = t) := by
  unfold envReadByte
  cases h : s.env.rxq with
  | nil =>
    cases s.env.endless
    · simp
    · simp only [if_true, Host.Outcome.next.injEq, Prod.mk.injEq, List.nil_eq, reduceCtorEq, false_and, exists_false,
        false_or, true_and, draw8]
      constructor <;> rintro ⟨rfl, h⟩ <;> exact ⟨rfl, h⟩
  | cons c rest =>
    simp only [Host.Outcome.next.injEq, Prod.mk.injEq, List.cons.injEq, reduceCtorEq, false_and, or_false]
    constructor
    · rintro ⟨rfl, h⟩
      exact ⟨rest, ⟨rfl, rfl⟩, h⟩
    · rintro ⟨_, ⟨rfl, rfl⟩, h⟩
      exact ⟨rfl, h⟩

/-! ### Handler and reset -/

theorem handlerEntry_eq_next {s t : State} :
    handlerEntry s = .next t ↔ s.ih.active = false ∧ { s with ih := { active := true } } = t := by
  unfold handlerEntry
  cases s.ih.active <;> simp

/-- Everything the sending half of the transmit duty can do when it answers: nothing (queue empty or hardware not
writable), or the popped byte is given to the hardware and counted. -/
theorem txSend_eq_next {s t : State} :
    txSend s = .next t ↔
      ((s.tx.occ = 0 ∨ s.env.writable = false) ∧ s = t) ∨
      (s.tx.occ ≠ 0 ∧ s.env.writable = true ∧ ∃ b ok s1, popRing .tx s = .next (b, ok, s1) ∧
        { s1 with obs := { s1.obs with wireTx := s1.obs.wireTx ++ [b] }, txcount := s1.txcount + 1 } = t) := by
  unfold txSend envIsWritable
  by_cases ho : s.tx.occ = 0
  · simp [ho]
  · cases hw : s.env.writable
    · simp [ho]
    · simp only [ho, if_false, if_true, false_or, Bool.true_eq_false, false_and, ne_eq, not_false_eq_true, true_and,
        andThen_eq_next]
      constructor
      · rintro ⟨⟨b, ok, s1⟩, hp, s2, hwr, ht⟩
        obtain ⟨-, rfl⟩ := envWriteByte_eq_next.1 hwr
        cases ht
        exact ⟨b, ok, s1, hp, rfl⟩
      · rintro ⟨b, ok, s1, hp, rfl⟩
        refine ⟨(b, ok, s1), hp, _, envWriteByte_eq_next.2 ⟨?_, rfl⟩, rfl⟩
        obtain ⟨-, ⟨-, -, -, rfl⟩ | ⟨-, -, -, ⟨-, rfl⟩ | ⟨-, -, rfl⟩⟩⟩ := popRing_eq_next.1 hp <;> exact hw

/-- The transmit duty is the sending half, then TXIE recomputed. -/
theorem txDuty_eq_next {s t : State} :
    txDuty s = .next t ↔ ∃ s1, txSend s = .next s1 ∧ { s1 with txie := s1.tx.nonEmpty } = t := by
  simp only [txDuty, andThen_eq_next, Host.Outcome.next.injEq]

/-- One round of the receive loop, when it answers. -/
theorem rxTake_eq_next {s t : State} :
    rxTake s = .next t ↔
      ∃ b s1 n s2, envReadByte s = .next (b, s1) ∧ pushRing .rx b s1 = .next (n, s2) ∧
        { s2 with rxcount := s2.rxcount + 1 } = t := by
  simp only [rxTake, andThen_eq_next, Prod.exists]
  constructor
  · rintro ⟨b, s1, h1, n, s2, h2, ht⟩
    cases ht
    exact ⟨b, s1, n, s2, h1, h2, rfl⟩
  · rintro ⟨b, s1, n, s2, h1, h2, rfl⟩
    exact ⟨b, s1, h1, n, s2, h2, rfl⟩

/-- The receive loop keeps every property that one round keeps, and leaves ENV not readable. -/
theorem rxLoop_induction {P : State → Prop} (hstep : ∀ s t, P s → rxTake s = .next t → P t) :
    ∀ n s t, P s → rxLoop n s = .next t → P t ∧ envIsReadable t = false := by
  intro n
  induction n with
  | zero =>
    intro s t hs h
    simp only [rxLoop] at h
    split at h
    · cases h
    · cases h; simp_all
  | succ n ih =>
    intro s t hs h
    simp only [rxLoop] at h
    split at h
    · obtain ⟨s1, h1, h2⟩ := andThen_eq_next.1 h
      exact ih s1 t (hstep s s1 hs h1) h2
    · cases h; simp_all

theorem rxDuty_eq_next {s t : State} :
    rxDuty s = .next t ↔ s.env.endless = false ∧ rxLoop s.env.rxq.length s = .next t := by
  unfold rxDuty
  cases s.env.endless <;> simp

/-- Everything reset can do when it answers. -/
theorem resetBlock_eq_next {s t : State} :
    resetBlock s = .next t ↔
      ∃ s1 s2, initRing .tx s = .next s1 ∧ initRing .rx s1 = .next s2 ∧ lineReset s2 = t := by
  simp only [resetBlock, andThen_eq_next]
  constructor
  · rintro ⟨s1, h1, s2, h2, h3⟩
    cases h3
    exact ⟨s1, s2, h1, h2, rfl⟩
  · rintro ⟨s1, s2, h1, h2, rfl⟩
    exact ⟨s1, h1, s2, h2, rfl⟩

end Sys2Proof.Machine
end

