-- ==== Sys2Proof/Laws/Meanings.lean ====
section
/-! SUPPORT. One lemma for each meaning that says once everything it can do when it answers, and one for a turn and a
step. -/

namespace Sys2Proof.Machine

variable {s t : State}

/-! ### The call gate -/

theorem execVersion_eq_next :
    execVersion s = .next t ↔ isReset s = true ∧ s.ih.active = false ∧ s.fg.phase = .idle ∧
      respond .version .ok (versionWord Config.versionMajor Config.versionMinor) s = t := by
  rw [execVersion, whenIdle_eq_next, Host.Outcome.next.injEq]

theorem execInvalidOp_eq_next {w : Word} :
    execInvalidOp w s = .next t ↔ isReset s = true ∧ s.ih.active = false ∧ s.fg.phase = .idle ∧
      respondUnspecified (.invalidOp w) .invalidOp s = t := by
  rw [execInvalidOp, whenIdle_eq_next, Host.Outcome.next.injEq]

theorem execCharsAvailable_eq_next {sid : Byte} :
    execCharsAvailable sid s = .next t ↔ isReset s = true ∧ s.ih.active = false ∧ s.fg.phase = .idle ∧
      ((validStream sid = true ∧ respond (.charsAvailable sid) .ok (countWord s.rx.occ) s = t) ∨
       (validStream sid = false ∧ respondUnspecified (.charsAvailable sid) .invalidStream s = t)) := by
  rw [execCharsAvailable, whenIdle_eq_next]
  refine and_congr_right fun hr => and_congr_right fun _ => and_congr_right fun _ => ?_
  cases validStream sid
  · simp
  · simp [andThen_eq_next, usedRing_eq_next, hr]

/-- GET_CHAR: what RB.POP gives is delivered, or the response says why not. -/
theorem execGetChar_eq_next {sid : Byte} :
    execGetChar sid s = .next t ↔ isReset s = true ∧ s.ih.active = false ∧ s.fg.phase = .idle ∧
      ((validStream sid = true ∧ ∃ b ok s1, popRing .rx s = .next (b, ok, s1) ∧
          ((ok = true ∧ respond (.getChar sid) .ok (byteWord b) s1 = t) ∨
           (ok = false ∧ respondUnspecified (.getChar sid) .empty s1 = t))) ∨
       (validStream sid = false ∧ respondUnspecified (.getChar sid) .invalidStream s = t)) := by
  rw [execGetChar, whenIdle_eq_next]
  refine and_congr_right fun _ => and_congr_right fun _ => and_congr_right fun _ => ?_
  cases validStream sid
  · simp
  · simp only [if_true, andThen_eq_next, Prod.exists, true_and, Bool.true_eq_false, false_and, or_false]
    refine exists_congr fun b => exists_congr fun ok => exists_congr fun s1 => and_congr_right fun _ => ?_
    cases ok <;> simp

theorem putCharPush_eq_next {b : Byte} :
    putCharPush b s = .next t ↔ ∃ n s1, pushRing .tx b s = .next (n, s1) ∧
      { s1 with fg := { s1.fg with phase := .putArm, pend := countWord n } } = t := by
  simp only [putCharPush, andThen_eq_next, Prod.exists, Host.Outcome.next.injEq]

/-- PUT_CHAR: step 1 in IDLE (or the stream is invalid), step 2 in PUT_ARM. -/
theorem execPutChar_eq_next {sid b : Byte} :
    execPutChar sid b s = .next t ↔ isReset s = true ∧ s.ih.active = false ∧
      ((s.fg.phase = .idle ∧ validStream sid = true ∧ putCharPush b s = .next t) ∨
       (s.fg.phase = .idle ∧ validStream sid = false ∧ respondUnspecified (.putChar sid b) .invalidStream s = t) ∨
       (s.fg.phase = .putArm ∧ validStream sid = true ∧ putCharArm (.putChar sid b) s = t)) := by
  rw [execPutChar, whenForegroundRuns_eq_next]
  cases s.fg.phase <;> cases validStream sid <;> simp

/-! ### The ring-buffer ports -/

theorem execRbPush_eq_next {a : Agent} {q : Queue} {b : Byte} :
    execRbPush a q b s = .next t ↔ a = q.producer ∧ ¬(a = .fg ∧ s.ih.active = true) ∧
      ∃ n s1, pushRing q b s = .next (n, s1) ∧ portReply (.freeAfter q n) s1 = t := by
  unfold execRbPush
  split
  · simp only [whenAgentRuns_eq_next, andThen_eq_next, Prod.exists, Host.Outcome.next.injEq, *, true_and]
  · simp [*]

theorem execRbPop_eq_next {a : Agent} {q : Queue} :
    execRbPop a q s = .next t ↔ a = q.consumer ∧ ¬(a = .fg ∧ s.ih.active = true) ∧
      ∃ b ok s1, popRing q s = .next (b, ok, s1) ∧ portReply (.popped q b ok) s1 = t := by
  unfold execRbPop
  split
  · simp only [whenAgentRuns_eq_next, andThen_eq_next, Prod.exists, Host.Outcome.next.injEq, *, true_and]
  · simp [*]

theorem execRbUsed_eq_next {q : Queue} :
    execRbUsed q s = .next t ↔ isReset s = true ∧ portReply (.used q (s.ring q).occ) s = t := by
  simp [execRbUsed, andThen_eq_next, usedRing_eq_next]

theorem execRbFree_eq_next {q : Queue} :
    execRbFree q s = .next t ↔ isReset s = true ∧
      portReply (.free q ((s.ring q).cap - (s.ring q).occ)) s = t := by
  simp [execRbFree, andThen_eq_next, freeRing_eq_next]

/-! ### The handler -/

theorem execIhTxduty_eq_next : execIhTxduty s = .next t ↔ isReset s = true ∧ txDuty s = .next t := by
  unfold execIhTxduty
  cases isReset s <;> simp

theorem execIhRxduty_eq_next : execIhRxduty s = .next t ↔ isReset s = true ∧ rxDuty s = .next t := by
  unfold execIhRxduty
  cases isReset s <;> simp

theorem execIhInvoke_eq_next :
    execIhInvoke s = .next t ↔ isReset s = true ∧ s.ih.active = false ∧
      ∃ s2 s3, txDuty { s with ih := { active := true } } = .next s2 ∧ rxDuty s2 = .next s3 ∧ handlerReturn s3 = t := by
  unfold execIhInvoke
  cases isReset s
  · simp
  · simp only [if_true, true_and, andThen_eq_next, handlerEntry_eq_next, Host.Outcome.next.injEq]
    constructor
    · rintro ⟨s1, ⟨ha, rfl⟩, s2, h2, s3, h3, h4⟩
      exact ⟨ha, s2, s3, h2, h3, h4⟩
    · rintro ⟨ha, s2, s3, h2, h3, h4⟩
      exact ⟨_, ⟨ha, rfl⟩, s2, h2, s3, h3, h4⟩

/-! ### Turns and steps -/

theorem fetch_eq_some {i : Instr} : fetch s = some i ↔ ∃ w ws, s.fg.cmds = w :: ws ∧ decodeCommand w = i := by
  unfold fetch
  cases h : s.fg.cmds with
  | nil => simp
  | cons w ws =>
    simp only [Option.some.injEq, List.cons.injEq]
    exact ⟨fun h => ⟨w, ws, ⟨rfl, rfl⟩, h⟩, fun ⟨_, _, ⟨h1, _⟩, h2⟩ => h1 ▸ h2⟩

/-- A foreground turn does nothing, or runs the command at the gate and retires it once it has responded. -/
theorem foregroundTurn_eq_next :
    foregroundTurn s = .next t ↔
      (s.fg.cmds = [] ∧ s = t) ∨ (∃ i s1, fetch s = some i ∧ exec i s = .next s1 ∧ retire s1 = t) := by
  unfold foregroundTurn
  cases h : s.fg.cmds with
  | nil => simp [fetch, h]
  | cons w ws => simp [fetch, h, andThen_eq_next]

/-- A port's turn does nothing, or runs the operation its signal carries. -/
theorem portTurn_eq_next {p : PortSignal} :
    portTurn p s = .next t ↔
      ((∃ e, decodePort p = .error e) ∧ s = t) ∨
      (∃ i, decodePort p = .ok i ∧ s.portsOut = true ∧ exec i s = .next t) := by
  unfold portTurn
  cases decodePort p with
  | error e => simpa using fun _ => ⟨e⟩
  | ok i => cases s.portsOut <;> simp

/-- With no turn scheduled: an invocation, or a foreground turn. -/
theorem eagerTurn_eq_next :
    eagerTurn s = .next t ↔
      (irq s = true ∧ s.ih.active = false ∧ exec .ihInvoke s = .next t) ∨
      (¬(irq s = true ∧ s.ih.active = false) ∧ foregroundTurn s = .next t) := by
  unfold eagerTurn
  split <;> simp_all

/-- Everything a step can do when it answers, turn by turn. -/
theorem step_eq_next :
    step s = .next t ↔
      (∃ u us, s.sched = u :: us ∧ runTurn u { s with sched := us } = .next t) ∨
      (s.sched = [] ∧ eagerTurn s = .next t) := by
  unfold step
  cases s.sched <;> simp

end Sys2Proof.Machine
end

