-- ==== Sys2Proof/Laws/PerInstr.lean ====
section
/-! SUPPORT. The families of statements made instruction by instruction: an instruction is carried by its row's format
(R53, R54). -/

namespace Sys2Proof.Laws

/-- The encoding of `i` has the format of its row of spec/opcode_table.json. -/
def Format.Statement (i : Instr) : Prop := (encode i).format = i.format

theorem Format.version : Format.Statement .version := rfl
theorem Format.putChar (sid b : Byte) : Format.Statement (.putChar sid b) := rfl
theorem Format.getChar (sid : Byte) : Format.Statement (.getChar sid) := rfl
theorem Format.charsAvailable (sid : Byte) : Format.Statement (.charsAvailable sid) := rfl
theorem Format.invalidOp (w : Word) : Format.Statement (.invalidOp w) := rfl
theorem Format.rbInit (q : Queue) : Format.Statement (.rbInit q) := rfl
theorem Format.rbPush (a : Agent) (q : Queue) (b : Byte) : Format.Statement (.rbPush a q b) := rfl
theorem Format.rbPop (a : Agent) (q : Queue) : Format.Statement (.rbPop a q) := rfl
theorem Format.rbUsed (q : Queue) : Format.Statement (.rbUsed q) := rfl
theorem Format.rbFree (q : Queue) : Format.Statement (.rbFree q) := rfl
theorem Format.ihInvoke : Format.Statement .ihInvoke := rfl
theorem Format.ihTxduty : Format.Statement .ihTxduty := rfl
theorem Format.ihRxduty : Format.Statement .ihRxduty := rfl

end Sys2Proof.Laws
end

