-- ==== Sys2Proof/Laws/Ring.lean ====
section
/-! SUPPORT. What a push and a pop do to one ring: its invariants are kept (R14, R15), and its contents behave as a
bounded list (R69). -/

namespace Sys2Proof.Machine

/-- The slots of the occupied region are pairwise different, and the slot after them is the write index. -/
theorem slot_inj {C d i j : Nat} (hi : i < C) (hj : j < C) (h : (d + i) % C = (d + j) % C) : i = j := by
  have hm : i ≡ j [MOD C] := Nat.ModEq.add_left_cancel' d h
  exact Nat.ModEq.eq_of_lt_of_lt hm hi hj

@[simp] theorem contents_length (r : Ring) : r.contents.length = r.occ := by simp [Ring.contents]

theorem contents_eq_nil {r : Ring} (h : r.occ = 0) : r.contents = [] := by simp [Ring.contents, h]

/-- Contents depend on the occupied slots only. -/
theorem contents_congr {r r' : Ring} (ho : r'.occ = r.occ)
    (h : ∀ i < r.occ, Memory.read r'.mem ((r'.rd + i) % r'.cap) = Memory.read r.mem ((r.rd + i) % r.cap)) :
    r'.contents = r.contents := by
  unfold Ring.contents
  rw [ho]
  exact List.map_congr_left fun i hi => h i (List.mem_range.1 hi)

theorem Ring.Params.cap_ne_zero {r : Ring} (h : r.Params) : r.cap ≠ 0 := Nat.ne_of_gt h.pos

/-- A ring right after RB.INIT has the invariants, whatever its storage holds in canonical form. -/
theorem cleared_inv {r : Ring} (hp : r.Params) (hw : Memory.wf r.mem) (hl : ∀ c ∈ r.mem, c.1 < r.cap) :
    r.cleared.Inv where
  ready := rfl
  params := ⟨hp.pos, hp.fits⟩
  occ_le := Nat.zero_le _
  wr_lt := hp.pos
  rd_lt := hp.pos
  wr_eq := (Nat.zero_mod _).symm
  mem_wf := hw
  mem_lt := hl
  written i hi := absurd hi (Nat.not_lt_zero i)

theorem freshRing_inv {C : Nat} (h1 : 1 ≤ C) (h2 : C ≤ Config.maxCapacity) : (freshRing C).Inv where
  ready := rfl
  params := ⟨h1, h2⟩
  occ_le := Nat.zero_le _
  wr_lt := h1
  rd_lt := h1
  wr_eq := (Nat.zero_mod _).symm
  mem_wf := List.Pairwise.nil
  mem_lt c hc := absurd hc (by simp)
  written i hi := absurd hi (Nat.not_lt_zero i)

/-- The occupied slots read the same after the byte is stored at the write index. -/
theorem read_pushed_slot {r : Ring} (hr : r.Inv) (hf : r.occ < r.cap) (b : Byte) {i : Nat} (hi : i < r.occ) :
    Memory.read (Memory.write r.mem r.wr b) ((r.rd + i) % r.cap) = Memory.read r.mem ((r.rd + i) % r.cap) := by
  refine read_write_ne _ _ _ _ hr.mem_wf fun h => ?_
  rw [hr.wr_eq] at h
  exact Nat.ne_of_gt hi (slot_inj hf (lt_trans hi hf) h)

/-- An accepted push keeps the invariants. -/
theorem pushed_inv {r : Ring} (hr : r.Inv) (hf : r.occ < r.cap) (b : Byte) : (r.pushed b).Inv where
  ready := hr.ready
  params := ⟨hr.params.pos, hr.params.fits⟩
  occ_le := hf
  wr_lt := Nat.mod_lt _ hr.params.pos
  rd_lt := hr.rd_lt
  wr_eq := by simp [advance, hr.wr_eq, Nat.add_assoc]
  mem_wf := write_wf _ _ _ hr.mem_wf
  mem_lt c hc := by
    rcases mem_write hc with rfl | hc
    · exact hr.wr_lt
    · exact hr.mem_lt c hc
  written i hi := by
    rcases Nat.lt_succ_iff_lt_or_eq.1 hi with hi | rfl
    · exact (congrArg Option.isSome (read_pushed_slot hr hf b hi)).trans (hr.written i hi)
    · simp [← hr.wr_eq, read_write_self _ _ _ hr.mem_wf]

/-- An accepted push appends its byte to the contents (R69). -/
theorem contents_pushed {r : Ring} (hr : r.Inv) (hf : r.occ < r.cap) (b : Byte) :
    (r.pushed b).contents = r.contents ++ [some b] := by
  have h1 : (List.range r.occ).map (fun i => Memory.read (Memory.write r.mem r.wr b) ((r.rd + i) % r.cap)) = r.contents :=
    List.map_congr_left fun i hi => read_pushed_slot hr hf b (List.mem_range.1 hi)
  simp [Ring.contents, List.range_succ, ← hr.wr_eq, read_write_self _ _ _ hr.mem_wf] at h1 ⊢
  exact h1

/-- The occupied slots of the popped ring are the old ones after the first. -/
theorem popped_slot (r : Ring) (i : Nat) :
    (r.popped.rd + i) % r.popped.cap = (r.rd + (i + 1)) % r.cap := by
  simp [advance, Nat.add_assoc, Nat.add_comm 1 i]

/-- A successful pop keeps the invariants. -/
theorem popped_inv {r : Ring} (hr : r.Inv) (ho : r.occ ≠ 0) : r.popped.Inv where
  ready := hr.ready
  params := ⟨hr.params.pos, hr.params.fits⟩
  occ_le := le_trans (Nat.sub_le _ _) hr.occ_le
  wr_lt := hr.wr_lt
  rd_lt := Nat.mod_lt _ hr.params.pos
  wr_eq := by
    rw [popped_slot, popped_occ, Nat.sub_add_cancel (Nat.pos_of_ne_zero ho)]
    exact hr.wr_eq
  mem_wf := hr.mem_wf
  mem_lt := hr.mem_lt
  written i hi := by
    rw [popped_slot]
    exact hr.written (i + 1) (by rw [popped_occ] at hi; omega)

/-- The byte at the read index is the head of the contents, and the popped ring holds the rest (R69). -/
theorem contents_popped {r : Ring} (hr : r.Inv) (ho : r.occ ≠ 0) :
    r.contents = Memory.read r.mem r.rd :: r.popped.contents := by
  obtain ⟨n, hn⟩ := Nat.exists_eq_succ_of_ne_zero ho
  have h1 : r.popped.contents = (List.range n).map fun i => Memory.read r.mem ((r.rd + (i + 1)) % r.cap) := by
    simp only [Ring.contents, popped_occ, hn, Nat.succ_sub_one, popped_slot, popped_mem]
  rw [h1, Ring.contents, hn, List.range_succ_eq_map, List.map_cons, List.map_map, Nat.add_zero, Nat.mod_eq_of_lt hr.rd_lt]
  rfl

/-- The byte at the read index of a non-empty queue was written. -/
theorem head_written {r : Ring} (hr : r.Inv) (ho : r.occ ≠ 0) : ∃ b, Memory.read r.mem r.rd = some b := by
  have h := hr.written 0 (Nat.pos_of_ne_zero ho)
  rw [Nat.add_zero, Nat.mod_eq_of_lt hr.rd_lt] at h
  exact Option.isSome_iff_exists.1 h

/-- Every byte of the contents was written. -/
theorem contents_written {r : Ring} (hr : r.Inv) : ∃ l : List Byte, r.contents = l.map some := by
  refine ⟨r.contents.map (·.getD 0), ?_⟩
  rw [List.map_map]
  conv_lhs => rw [← List.map_id r.contents]
  refine List.map_congr_left fun x hx => ?_
  obtain ⟨i, hi, rfl⟩ := List.mem_map.1 hx
  obtain ⟨b, hb⟩ := Option.isSome_iff_exists.1 (hr.written i (List.mem_range.1 hi))
  simp [hb]

end Sys2Proof.Machine
end

