-- ==== Sys2Proof/Laws/Runs.lean ====
section
/-! SUPPORT. Runs of the machine, and the induction over them packaged once. -/

namespace Sys2Proof.Machine

@[simp] theorem run_zero (s : State) : run 0 s = .next s := rfl

theorem run_succ (n : Nat) (s : State) : run (n + 1) s = andThen (step s) (run n) := rfl

/-- One step of a run of any machine. -/
theorem core_run_succ (M : Host.Core) (n : Nat) (s : M.State) :
    M.run (n + 1) s = match M.step s with
      | .next s1 => M.run n s1
      | .fault r => .fault r
      | .refused r => .refused r := by
  cases h : M.step s <;> simp only [Host.Core.run, h]

/-- The runs of the statements are the host's runs of this machine. -/
theorem run_eq_core_run (n : Nat) : ∀ s : State, run n s = Host.Core.run Sys2Proof.core n s := by
  induction n with
  | zero => exact fun _ => rfl
  | succ n ih =>
    intro s
    refine Eq.trans ?_ (core_run_succ Sys2Proof.core n s).symm
    rw [run_succ]
    split
    · rename_i s1 h
      rw [show step s = .next s1 from h]
      exact ih s1
    · rename_i r h
      rw [show step s = .fault r from h]
      rfl
    · rename_i r h
      rw [show step s = .refused r from h]
      rfl

theorem run_succ_of_next {n : Nat} {s t : State} (h : step s = .next t) : run (n + 1) s = run n t := by
  rw [run_succ, h, andThen_next]

theorem run_succ_eq_next {n : Nat} {s t : State} :
    run (n + 1) s = .next t ↔ ∃ s1, step s = .next s1 ∧ run n s1 = .next t := andThen_eq_next

/-- A property that every step keeps holds at the end of every run that starts with it. -/
theorem run_induction {P : State → Prop} (hstep : ∀ s t, P s → step s = .next t → P t) :
    ∀ n s t, P s → run n s = .next t → P t := by
  intro n
  induction n with
  | zero => rintro s t hs h; cases h; exact hs
  | succ n ih =>
    intro s t hs h
    obtain ⟨s1, h1, h2⟩ := run_succ_eq_next.1 h
    exact ih s1 t (hstep s s1 hs h1) h2

/-! ### Premises that hold by construction -/

/-- The opaque capacities can be built (R5). -/
theorem reset_params : State.reset.tx.Params ∧ State.reset.rx.Params :=
  ⟨⟨Nat.succ_pos _, Config.capTxLess1.isLt⟩, ⟨Nat.succ_pos _, Config.capRxLess1.isLt⟩⟩

theorem pReset_pParams {e : Execution} (h : e.PReset) : e.PParams := by
  rw [Execution.PParams, h]
  exact reset_params

theorem execution_pE1 (e : Execution) : e.PE1 := by
  intro n c hc
  have h := e.steps n
  rw [hc] at h
  rw [hc, ← Host.Outcome.next.inj h]
  cases c <;> exact ⟨_, rfl⟩

end Sys2Proof.Machine
end

