-- ==== Sys2Proof/Tests/Slice0.lean ====
section
/-! SUPPORT. Our own tests: the checks of WellFormed, the decoding of words written out from spec/30_encoding.md, one-step
vectors of spec/95_test_vectors.md (V and S numbers), and for each statement with hypotheses a state that meets them. -/

namespace Sys2Proof.Tests

open Sys2Proof.Machine

/-! ### WellFormed refuses ill-formed terms -/

/-- The word of `PUT_CHAR 0,'a'` is no INVALID_OP. -/
theorem test_wellFormed_invalidOp : (Instr.invalidOp 0x00610002).wellFormed = false := by decide
theorem test_wellFormed_push_by_handler : (Instr.rbPush .ih .tx 0).wellFormed = false := by decide
theorem test_wellFormed_push_by_foreground : (Instr.rbPush .fg .rx 0).wellFormed = false := by decide
theorem test_wellFormed_pop_by_foreground : (Instr.rbPop .fg .tx).wellFormed = false := by decide
theorem test_wellFormed_pop_by_handler : (Instr.rbPop .ih .rx).wellFormed = false := by decide

/-! ### Decoding: RSV, DATA, STREAM, OP written out (R45, R48), and the ports (R53) -/

theorem test_decode_version : decode (.word 0b00000000_10101011_00010010_00000000#32) = .ok .version := by decide
theorem test_decode_putChar : decode (.word 0b00000000_01100001_00000001_00000010#32) = .ok (.putChar 1 0x61) := by decide
theorem test_decode_getChar : decode (.word 0b00000000_01010101_00000111_00000011#32) = .ok (.getChar 7) := by decide
theorem test_decode_charsAvailable :
    decode (.word 0b00000000_00000000_11111111_00000100#32) = .ok (.charsAvailable 255) := by decide
theorem test_decode_op1 : decode (.word 0b00000000_00000000_11111111_00000001#32) = .ok (.invalidOp 0x0000FF01) := by decide
theorem test_decode_op255 : decode (.word 0b00000000_00000000_00000000_11111111#32) = .ok (.invalidOp 0xFF) := by decide
theorem test_decode_rsv : decode (.word 0b00000001_01100001_00000000_00000010#32) = .ok (.invalidOp 0x01610002) := by decide
theorem test_decode_push : decode (.port (.push .fg .tx 0b1_01100001#9)) = .ok (.rbPush .fg .tx 0x61) := by decide
theorem test_decode_push_low : decode (.port (.push .fg .tx 0b0_01100001#9)) = .error .noStrobe := by decide
theorem test_decode_pop : decode (.port (.pop .fg .rx 1)) = .ok (.rbPop .fg .rx) := by decide
theorem test_decode_init : decode (.port (.init .rx 1)) = .ok (.rbInit .rx) := by decide
theorem test_decode_status :
    decode (.port (.used .tx)) = .ok (.rbUsed .tx) ∧ decode (.port (.free .rx)) = .ok (.rbFree .rx) := by decide
theorem test_decode_events :
    decode (.event .invoke) = .ok .ihInvoke ∧ decode (.event .txduty) = .ok .ihTxduty ∧
    decode (.event .rxduty) = .ok .ihRxduty := by decide
theorem test_table_words :
    decodeTableWord 32 0x00650002 = some (.putChar 0 0x65) ∧ decodeTableWord 16 0x161 = some (.rbPush .fg .tx 0x61) ∧
    decodeTableWord 8 1 = some (.rbPop .ih .tx) ∧ decodeTableWord 8 0 = none ∧ decodeTableWord 0 0 = none := by decide

/-! ### States for the vectors: capacities 4 as in spec/95_test_vectors.md -/

def nextOf : Res State → Option State
  | .next t => some t
  | _ => none

def base : State := State.resetWith 4 4

/-- `bs` pushed into a fresh queue of capacity 4. -/
def filled (bs : List Byte) : Ring := bs.foldl Ring.pushed (freshRing 4)

/-- `tx` holds `a`, `rx` holds `x`, the line is armed: V43 and V17 in one state. -/
def both : State := { base with tx := filled [0x61], rx := filled [0x78], txie := true }

/-- `tx` and `rx` are full, TXIE is 0: the bare state of V32. -/
def full : State := { base with tx := filled [1, 2, 3, 4], rx := filled [1, 2, 3, 4] }

/-- PUT_CHAR 'a' has taken its first step (P3 step 1). -/
def armed : State :=
  { base with tx := filled [0x61], fg := { phase := .putArm, pend := 3, cmds := [0x00610002] } }

/-- A block that has not been reset. -/
def cold : State :=
  { base with tx := { base.tx with ready := false }, rx := { base.rx with ready := false }, inOperation := false }

/-- Both instances were initialised by themselves, but the block was not reset. -/
def initialised : State := { base with inOperation := false }

/-- ENV never answers not-readable. -/
def endlessEnv : State := { base with env := { base.env with endless := true } }

/-- An invocation is executing. -/
def insideHandler : State := { base with ih := { active := true } }

def withRun (s : State) (cmds : List Word) (sched : List Turn) : State :=
  { s with fg := { s.fg with cmds := cmds }, sched := sched }

/-! ### One step each -/

/-- V10, whatever the two digits are. -/
theorem test_version : (nextOf (exec .version base)).map (·.obs.replies) =
    some [{ cmd := .version, stat := .ok, res := versionWord Config.versionMajor Config.versionMinor }] := rfl
theorem test_version_digits : versionWord 1 2 = 0x00000102 := by decide
/-- P3 step 1. -/
theorem test_putChar_step1 : (nextOf (exec (.putChar 0 0x61) base)).map (fun t => (t.tx, t.txie, t.fg.pend)) =
    some ({ cap := 4, wr := 1, rd := 0, occ := 1, mem := [(0, 0x61)], ready := true }, false, 3) := by decide
/-- V32 step 1 and P5 step 5: a full queue keeps its bytes. -/
theorem test_putChar_full : (nextOf (exec (.putChar 0 0x65) full)).map (fun t => (decide (t.tx = full.tx), t.fg.pend)) =
    some (true, 0) := by decide
/-- V17. -/
theorem test_getChar : (nextOf (exec (.getChar 0) both)).map (fun t => (t.rx.rd, t.rx.occ, t.obs.replies)) =
    some (1, 0, [{ cmd := .getChar 0, stat := .ok, res := 0x78 }]) := by decide
/-- V18: the stream is checked before the queue. -/
theorem test_getChar_stream : (nextOf (exec (.getChar 7) base)).map (fun t => t.obs.replies.map (·.stat)) =
    some [.invalidStream] := by decide
/-- V20. -/
theorem test_charsAvailable : (nextOf (exec (.charsAvailable 0) full)).map (·.obs.replies) =
    some [{ cmd := .charsAvailable 0, stat := .ok, res := 4 }] := by decide
/-- V26. -/
theorem test_invalidOp : (nextOf (exec (.invalidOp 0x01610002) base)).map
    (fun t => (t.tx.occ, t.txie, t.obs.replies.map (·.stat))) = some (0, false, [.invalidOp]) := by decide
/-- S8. -/
theorem test_rbInit : (nextOf (exec (.rbInit .tx) cold)).map (fun t => (t.tx.occ, t.tx.ready, t.rx.ready)) =
    some (0, true, false) := by decide
/-- S1 step 4: the write index wraps. -/
theorem test_rbPush : (nextOf (exec (.rbPush .fg .tx 0x64) { base with tx := filled [0x61, 0x62, 0x63] })).map
    (fun t => (t.tx.wr, t.tx.occ, t.obs.ports)) = some (0, 4, [.freeAfter .tx 0]) := by decide
/-- S1 step 6: the storage keeps the popped byte. -/
theorem test_rbPop : (nextOf (exec (.rbPop .ih .tx) full)).map (fun t => (t.tx, t.obs.ports)) =
    some ({ full.tx with rd := 1, occ := 3 }, [.popped .tx 1 true]) := by decide
/-- V5. -/
theorem test_rbUsed : (nextOf (exec (.rbUsed .rx) full)).map (·.obs.ports) = some [.used .rx 4] := by decide
theorem test_rbFree : (nextOf (exec (.rbFree .rx) base)).map (·.obs.ports) = some [.free .rx 4] := by decide
/-- V47. -/
theorem test_ihInvoke : (nextOf (exec .ihInvoke
    { base with tx := filled [0x61], txie := true, env := { base.env with rxq := [0x78] } })).map
    (fun t => (t.txie, t.obs.wireTx, t.rx, t.txcount, t.rxcount)) =
    some (false, [0x61], filled [0x78], 1, 1) := by decide
/-- V44: TXIE is recomputed although nothing is sent. -/
theorem test_ihTxduty : (nextOf (exec .ihTxduty
    { base with tx := filled [0x61], env := { base.env with writable := false } })).map
    (fun t => (t.txie, t.obs.wireTx)) = some (true, []) := by decide
/-- V48. -/
theorem test_ihRxduty_full : (nextOf (exec .ihRxduty { full with env := { base.env with rxq := [5, 6] } })).map
    (fun t => (decide (t.rx = full.rx), t.rxcount)) = some (true, 2) := by decide
/-- V49: the counter wraps. -/
theorem test_ihRxduty_wraps : (nextOf (exec .ihRxduty
    { base with rxcount := 0xFFFFFFFF, env := { base.env with rxq := [0x78] } })).map
    (fun t => (t.rx.occ, t.rxcount)) = some (1, 0) := by decide
/-- The placed word is the first instruction after reset, the OPEN parameters left open. -/
theorem test_placed_word : (nextOf (step (State.reset.withFetchWord 32 0x00000703))).map
    (fun t => (t.fg.cmds, t.obs.replies.map (·.cmd))) = some ([], [.getChar 7]) := rfl

/-- R131: instances initialised by themselves do not make a block in operation. -/
theorem test_rbPush_before_reset : exec (.rbPush .fg .tx 1) initialised = .refused .notReset := rfl
/-- R143: in the block no port is driven from outside. -/
theorem test_port_in_block : step (withRun base [] [.port (.used .tx)]) = .refused (.portAccess (.used .tx)) := rfl
theorem test_placed_port : (nextOf (step (State.reset.withFetchWord 16 0x161))).map (·.tx.occ) = some 1 := rfl

/-! ### Invariants of the states above -/

theorem filled_inv (bs : List Byte) (h : bs.length ≤ 4) :
    (filled bs).Inv ∧ (filled bs).occ = bs.length ∧ (filled bs).cap = 4 := by
  have key : ∀ (bs : List Byte) (r : Ring), r.Inv → r.cap = 4 → r.occ + bs.length ≤ 4 →
      (bs.foldl Ring.pushed r).Inv ∧ (bs.foldl Ring.pushed r).occ = r.occ + bs.length ∧
        (bs.foldl Ring.pushed r).cap = 4 := by
    intro bs
    induction bs with
    | nil => exact fun r hr hc _ => ⟨hr, rfl, hc⟩
    | cons b bs ih =>
      intro r hr hc hl
      rw [List.length_cons] at hl
      obtain ⟨h1, h2, h3⟩ := ih (r.pushed b) (pushed_inv hr (by omega) b) hc (by rw [pushed_occ]; omega)
      exact ⟨h1, by rw [List.foldl_cons, h2, pushed_occ, List.length_cons]; omega, h3⟩
  obtain ⟨h1, h2, h3⟩ := key bs (freshRing 4) (freshRing_inv (by decide) (by decide)) rfl (by simpa [freshRing] using h)
  exact ⟨h1, h2.trans (Nat.zero_add _), h3⟩

theorem withRun_inv {s : State} (h : s.Inv) (cmds : List Word) (sched : List Turn) : (withRun s cmds sched).Inv :=
  ⟨h.reset, h.tx, h.rx, h.rxie, h.inactive, h.txcount, h.rxcount⟩

theorem base_inv : base.Inv :=
  ⟨rfl, (filled_inv [] (by decide)).1, (filled_inv [] (by decide)).1, rfl, rfl, rfl, rfl⟩
theorem both_inv : both.Inv :=
  ⟨rfl, (filled_inv [0x61] (by decide)).1, (filled_inv [0x78] (by decide)).1, rfl, rfl, rfl, rfl⟩
theorem full_inv : full.Inv :=
  ⟨rfl, (filled_inv [1, 2, 3, 4] (by decide)).1, (filled_inv [1, 2, 3, 4] (by decide)).1, rfl, rfl, rfl, rfl⟩

/-! ### A state for the hypotheses of each statement -/

theorem witness_DecodeUndoesEncode :
    (Instr.invalidOp 0xFFFFFFFF).wellFormed = true ∧ (Instr.putChar 255 255).wellFormed = true ∧
    (Instr.rbPush .ih .rx 255).wellFormed = true ∧ (Instr.rbPop .fg .rx).wellFormed = true := by decide
theorem witness_DecodeRespectsTheCarrier :
    decode (.port (.push .ih .rx 0b1_11111111#9)) = .ok (.rbPush .ih .rx 255) ∧
    decode (.port (.pop .ih .tx 1)) = .ok (.rbPop .ih .tx) := by decide
theorem witness_RegisterWidthsFit : 1 ≤ 1 ∧ 1 - 1 < 2 ^ 1 ∧ 1 < 2 ^ 1 ∧ 1 ≤ 4 ∧ 4 - 1 < 2 ^ 2 ∧ 4 < 2 ^ 3 := by decide
theorem witness_StepRunsTheDecodedCommand :
    (withRun base [0x00000000] [.fg]).fg.cmds = [0x00000000] ∧ (withRun base [0x00000000] [.fg]).sched = [.fg] := by decide
theorem witness_StepRunsTheDecodedSignal :
    ((withRun base [] [.event .invoke]).sched = [.event .invoke] ∧ decode (.event .invoke) = .ok .ihInvoke) ∧
    ((withRun base [] [.port (.used .tx)]).sched = [.port (.used .tx)] ∧ decode (.port (.used .tx)) = .ok (.rbUsed .tx) ∧
      base.portsOut = false ∧ ({ base with portsOut := true } : State).portsOut = true) ∧
    ((withRun base [] [.port (.pop .ih .tx 0)]).sched = [.port (.pop .ih .tx 0)] ∧
      decode (.port (.pop .ih .tx 0)) = .error .noStrobe) := by decide
theorem witness_EnvTurnTouchesOnlyEnv :
    (withRun base [] [.env (.rx 5)]).sched = [.env (.rx 5)] ∧
    (withRun base [] [.env (.writable false)]).sched = [.env (.writable false)] ∧
    (withRun base [] [.env (.answers [7] true)]).sched = [.env (.answers [7] true)] := by decide
theorem witness_ResetEventInitialisesTheBlock :
    (withRun cold [] [.reset]).sched = [.reset] ∧ isReset (withRun cold [] [.reset]) = false ∧
    (withRun cold [] [.reset]).tx.ready = false ∧
    (withRun cold [] [.reset]).rx.ready = false ∧ (withRun cold [] [.reset]).tx.Params ∧
    (withRun cold [] [.reset]).rx.Params := ⟨rfl, rfl, rfl, rfl, ⟨by decide, by decide⟩, ⟨by decide, by decide⟩⟩
theorem witness_NothingRunsBeforeReset :
    isReset cold = false ∧ isReset initialised = false ∧ cold.ih.active = false ∧
    (Instr.putChar 0 1).wellFormed = true ∧ ∀ q, Instr.putChar 0 1 ≠ .rbInit q :=
  ⟨rfl, rfl, rfl, rfl, fun _ => Instr.noConfusion⟩
theorem witness_RbInitEmptiesTheQueue :
    (isReset cold = false ∧ (cold.ring .tx).ready = false ∧ (cold.ring .tx).Params) ∧
    (isReset base = true ∧ base.ring .tx = (initialised.ring .tx)) ∧ ({ cold.tx with cap := 4294967295 } : Ring).Params ∧
    ({ cold.tx with cap := 1 } : Ring).Params :=
  ⟨⟨rfl, rfl, ⟨by decide, by decide⟩⟩, ⟨rfl, rfl⟩, ⟨by decide, by decide⟩, ⟨by decide, by decide⟩⟩
theorem witness_InitialisationOutOfContractIsRefused :
    let none : State := { cold with tx := { cold.tx with cap := 0 } }
    let huge : State := { withRun cold [] [.reset] with rx := { cold.rx with cap := 4294967296 } }
    ((withRun base [] [.reset]).sched = [.reset] ∧ isReset (withRun base [] [.reset]) = true) ∧
    (initialised.ring .rx).ready = true ∧ isReset none = false ∧ isReset huge = false ∧
    ((none.ring .tx).ready = false ∧ (none.ring .tx).cap = 0) ∧
    ((withRun none [] [.reset]).sched = [.reset] ∧ (withRun none [] [.reset]).tx.cap = 0) ∧
    (huge.sched = [.reset] ∧ huge.tx.ready = false ∧ (1 ≤ huge.tx.cap ∧ huge.tx.cap ≤ Config.maxCapacity) ∧
      huge.rx.ready = false ∧ 2 ^ 32 ≤ huge.rx.cap) := by decide
theorem witness_RbPushStoresTheByte :
    let s : State := { base with tx := filled [1, 2, 3] }
    isReset s = true ∧ ((Queue.tx).producer = .fg → s.ih.active = false) ∧ (s.ring .tx).occ < (s.ring .tx).cap ∧
    (s.ring .tx).wr < (s.ring .tx).cap ∧ (s.ring .tx).wr = 3 := by decide
theorem witness_RbPushDropsOnFull :
    isReset full = true ∧ ((Queue.rx).producer = .fg → full.ih.active = false) ∧
    (full.ring .rx).occ = (full.ring .rx).cap := by decide
theorem witness_StoresTouchOnlyTheWriteSlot :
    Memory.wf both.tx.mem ∧ Memory.wf both.rx.mem ∧ (∃ t, exec (.rbPush .fg .tx 5) both = .next t) ∧
    (∃ t, exec (.putChar 0 5) both = .next t) ∧
    (∃ t, rxTake { both with env := { both.env with rxq := [5] } } = .next t) ∧
    (∃ t, exec (.getChar 0) both = .next t) ∧ (∃ t, exec (.rbPop .ih .tx) both = .next t) ∧
    (∃ t, exec .ihTxduty both = .next t) :=
  ⟨by decide, by decide, ⟨_, rfl⟩, ⟨_, rfl⟩, ⟨_, rfl⟩, ⟨_, rfl⟩, ⟨_, rfl⟩, ⟨_, rfl⟩⟩
theorem witness_RbPopTakesTheByte :
    isReset both = true ∧ ((Queue.rx).consumer = .fg → both.ih.active = false) ∧ (both.ring .rx).occ ≠ 0 ∧
    (both.ring .rx).rd < (both.ring .rx).cap ∧ Memory.read (both.ring .rx).mem (both.ring .rx).rd = some 0x78 := by decide
theorem witness_RbPopDrawsUnspecifiedBytes :
    let s : State := { base with rx := { base.rx with occ := 1 } }
    (isReset base = true ∧ ((Queue.tx).consumer = .fg → base.ih.active = false) ∧ (base.ring .tx).occ = 0) ∧
    (isReset s = true ∧ ((Queue.rx).consumer = .fg → s.ih.active = false) ∧ (s.ring .rx).occ ≠ 0 ∧
      (s.ring .rx).rd < (s.ring .rx).cap ∧ Memory.read (s.ring .rx).mem (s.ring .rx).rd = none) := by decide
theorem witness_IndexOutsideTheStorageFaults :
    let s : State := { base with tx := { base.tx with wr := 4, rd := 4, occ := 1 } }
    isReset s = true ∧ s.ih.active = false ∧
    ((s.ring .tx).occ ≠ (s.ring .tx).cap ∧ (s.ring .tx).cap ≤ (s.ring .tx).wr) ∧
    ((s.ring .tx).occ ≠ 0 ∧ (s.ring .tx).cap ≤ (s.ring .tx).rd) := by decide
theorem witness_AdvanceWrapsAtTheCapacity : (1 < 3 ∧ 1 < 3 - 1) ∧ (2 < 3 ∧ 2 = 3 - 1) ∧ (0 < 1 ∧ 0 = 1 - 1) := by decide
theorem witness_UsedAndFreeAreQueries : isReset full = true ∧ isReset base = true := by decide
theorem witness_RoleViolationIsRefused : Agent.ih ≠ (Queue.tx).producer ∧ Agent.ih ≠ (Queue.rx).consumer := by decide
theorem witness_UsedPlusFreeIsCapacity : isReset both = true ∧ (both.ring .tx).Inv ∧
    ∃ t, runInstrs ([PortOp.pop, .pop, .push 7, .used].map (PortOp.instr .tx)) both = .next t := ⟨rfl, both_inv.tx, _, rfl⟩
theorem witness_QueueRefinesBoundedList :
    (∃ t, exec (.rbInit .tx) cold = .next t) ∧
    isReset both = true ∧ (both.ring .tx).Inv ∧ both.ih.active = false ∧ (both.ring .tx).contents = [(0x61 : Byte)].map some :=
  ⟨⟨_, rfl⟩, rfl, both_inv.tx, rfl, rfl⟩
theorem witness_VersionAnswersTheIdentifier : ForegroundReady base ∧ (0x00AB1200 : Word) &&& 0xFF0000FF = 0 :=
  ⟨⟨rfl, rfl, rfl⟩, by decide⟩
theorem witness_InvalidOpFailsClosed : ForegroundReady base ∧
    (0x80000000 : Word).toNat / 2 ^ 24 ≠ 0 ∧ (0xFF01 : Word).toNat % 2 ^ 8 = 1 ∧ 5 ≤ (5 : Word).toNat % 2 ^ 8 :=
  ⟨⟨rfl, rfl, rfl⟩, by decide, by decide, by decide⟩
theorem witness_InvalidStreamFailsClosed : ForegroundReady full ∧ (1 : Byte) ≠ 0 ∧ (255 : Byte) ≠ 0 :=
  ⟨⟨rfl, rfl, rfl⟩, by decide, by decide⟩
theorem witness_PutCharPushesFirst :
    (ForegroundReady both ∧ both.tx.occ < both.tx.cap ∧ both.tx.wr < both.tx.cap) ∧
    (ForegroundReady full ∧ full.tx.occ = full.tx.cap) :=
  ⟨⟨⟨rfl, rfl, rfl⟩, by decide, by decide⟩, ⟨rfl, rfl, rfl⟩, rfl⟩
theorem witness_PutCharArmsAndResponds :
    isReset armed = true ∧ armed.ih.active = false ∧ armed.fg.phase = .putArm := by decide
theorem witness_PutCharCompletesInTwoTurns :
    (ForegroundReady (withRun base [0x00610002] [.fg, .fg]) ∧ (withRun base [0x00610002] [.fg, .fg]).tx.Inv ∧
      (withRun base [0x00610002] [.fg, .fg]).fg.cmds = [0x00610002] ∧ decodeCommand 0x00610002 = .putChar 0 0x61 ∧
      (withRun base [0x00610002] [.fg, .fg]).sched = [.fg, .fg]) ∧
    (ForegroundReady (withRun full [0x00610002] [.fg, .fg]) ∧ (withRun full [0x00610002] [.fg, .fg]).tx.Inv ∧
      (withRun full [0x00610002] [.fg, .fg]).tx.occ = (withRun full [0x00610002] [.fg, .fg]).tx.cap) :=
  ⟨⟨⟨rfl, rfl, rfl⟩, base_inv.tx, rfl, by decide, rfl⟩, ⟨rfl, rfl, rfl⟩, full_inv.tx, rfl⟩
theorem witness_GetCharTakesTheOldestByte : ForegroundReady both ∧ both.rx.occ ≠ 0 ∧ both.rx.rd < both.rx.cap ∧
    Memory.read both.rx.mem both.rx.rd = some 0x78 := ⟨⟨rfl, rfl, rfl⟩, by decide, by decide, by decide⟩
theorem witness_GetCharOnEmptySaysSo : ForegroundReady base ∧ base.rx.occ = 0 := ⟨⟨rfl, rfl, rfl⟩, rfl⟩
theorem witness_CharsAvailableAnswersTheOccupancy :
    ForegroundReady full ∧ full.rx.occ ≤ full.rx.cap ∧ full.rx.cap ≤ Config.maxCapacity :=
  ⟨⟨rfl, rfl, rfl⟩, by decide, by decide⟩
theorem witness_SecondCommandInFlightIsRefused :
    isReset armed = true ∧ armed.ih.active = false ∧ armed.fg.phase = .putArm ∧ (Instr.putChar 1 0).format = .cg ∧
    ∀ b, Instr.putChar 1 0 ≠ .putChar 0 b :=
  ⟨rfl, rfl, rfl, rfl, fun _ h => absurd (Instr.putChar.inj h).1 (by decide)⟩
theorem witness_ActiveHandlerSuspendsTheForeground :
    isReset insideHandler = true ∧ insideHandler.ih.active = true ∧ Instr.version.format = .cg := by decide
theorem witness_TxDutySendsAtMostOneByte :
    (isReset both = true ∧ both.tx.occ ≠ 0 ∧ both.env.writable = true ∧ both.tx.rd < both.tx.cap ∧
      Memory.read both.tx.mem both.tx.rd = some 0x61) ∧ (isReset base = true ∧ base.tx.occ = 0) := by decide
theorem witness_RxDutyDrainsTheHardware :
    isReset { full with env := { full.env with rxq := [5, 6] } } = true ∧ full.rx.Inv ∧ full.env.endless = false :=
  ⟨rfl, full_inv.rx, rfl⟩
theorem witness_EndlessReceiveHangs :
    isReset endlessEnv = true ∧ endlessEnv.env.endless = true ∧ endlessEnv.ih.active = false ∧ endlessEnv.tx.Inv :=
  ⟨rfl, rfl, rfl, base_inv.tx⟩
theorem witness_InvokeIsTransmitThenReceive :
    isReset both = true ∧ both.tx.Inv ∧ both.rx.Inv ∧ both.ih.active = false ∧ both.env.endless = false :=
  ⟨rfl, both_inv.tx, both_inv.rx, rfl, rfl⟩
theorem witness_TxieHasTwoWriters :
    (∃ t, exec (.putChar 0 0x61) armed = .next t) ∧ (∃ t, exec .ihTxduty both = .next t) ∧
    (∃ t, exec .ihInvoke both = .next t) ∧ (∃ t, exec .ihRxduty both = .next t) := ⟨⟨_, rfl⟩, ⟨_, rfl⟩, ⟨_, rfl⟩, ⟨_, rfl⟩⟩
theorem witness_CountsGoStaleOnTheSafeSide :
    ((withRun both [] [.fg]).Inv ∧ Roles (withRun both [] [.fg]) ∧ ∃ t, step (withRun both [] [.fg]) = .next t) ∧
    ((withRun both [3] [.fg]).Inv ∧ Roles (withRun both [3] [.fg]) ∧ ∃ t, step (withRun both [3] [.fg]) = .next t) :=
  ⟨⟨withRun_inv both_inv _ _, by simp [Roles, withRun, Turn.inContract], _, rfl⟩,
   ⟨withRun_inv both_inv _ _, by simp [Roles, withRun, Turn.inContract], _, rfl⟩⟩
theorem witness_ContextsKeepToTheirOwnState :
    (∃ t, exec (.getChar 0) both = .next t ∧ (Instr.getChar 0).format = .cg) ∧
    (∃ t, exec .ihInvoke both = .next t ∧ Instr.ihInvoke.format = .event) := ⟨⟨_, rfl, rfl⟩, ⟨_, rfl, rfl⟩⟩
theorem witness_EveryStepKeepsTheInvariant :
    (withRun both [0x00610002] [.fg]).Inv ∧ ∃ t, step (withRun both [0x00610002] [.fg]) = .next t :=
  ⟨withRun_inv both_inv _ _, _, rfl⟩

/-- A safe state in the middle of a run: a byte queued and armed, a PUT_CHAR to come, ENV writable. -/
theorem safe_state : Safe (withRun both [0x00610002] [.fg, .event .invoke]) where
  inv := withRun_inv both_inv _ _
  handshake _ _ := rfl
  inFlight h := Phase.noConfusion h
  roles := by simp [Roles, withRun, Turn.inContract]
  finiteReads := ⟨rfl, by simp [withRun, Turn.keepsE2]⟩

theorem witness_EveryStepKeepsSafety : Safe (withRun both [0x00610002] [.fg, .event .invoke]) ∧
    ∃ t, step (withRun both [0x00610002] [.fg, .event .invoke]) = .next t := ⟨safe_state, _, rfl⟩
theorem witness_ResetIsSafe : ∀ u ∈ [Turn.fg, .event .invoke, .env (.answers [1] false)],
    u.inContract = true ∧ u.keepsE2 = true := by decide
theorem witness_SafeRunsNeverStop : Safe (withRun both [0x00610002] [.fg, .event .invoke]) := safe_state
theorem witness_ReachableIndexEquation : ∃ t, run 3 (startState [0x00610002] [.fg, .event .invoke, .fg]) = .next t :=
  ⟨_, rfl⟩
theorem witness_ReachableCountersCountTheWires :
    ∃ t, run 3 (startState [0x00610002] [.fg, .event .invoke, .fg]) = .next t := ⟨_, rfl⟩
theorem witness_HandshakeInvariant :
    (∃ t, exec .ihInvoke both = .next t) ∧ (∀ u ∈ [Turn.fg, .fg], u.inContract = true) ∧
    ∃ t, run 2 (startState [0x00610002] [.fg, .fg]) = .next t ∧ t.fg.phase = .idle ∧ t.tx.occ ≠ 0 :=
  ⟨⟨_, rfl⟩, by decide, _, rfl, rfl, by decide⟩
theorem witness_CapacityIsFixed : ∃ t, step (withRun both [] [.event .invoke]) = .next t := ⟨_, rfl⟩
theorem witness_AtMostOneByteSentPerStep :
    2 ≤ (withRun full [] [.event .invoke, .fg]).sched.length ∧
    (∃ t, step (withRun full [] [.event .invoke, .fg]) = .next t) ∧
    ∃ t, run 2 (withRun full [] [.event .invoke, .fg]) = .next t := ⟨by decide, ⟨_, rfl⟩, ⟨_, rfl⟩⟩
theorem witness_TransmitEndToEndOrder :
    let s := withRun both [0x00610002] [.fg, .event .invoke, .fg]
    s.Inv ∧ InFlight s ∧ Roles s ∧ ∃ t, run 3 s = .next t :=
  ⟨withRun_inv both_inv _ _, fun h => Phase.noConfusion h, by simp [Roles, withRun, Turn.inContract], _, rfl⟩
theorem witness_ReceiveEndToEndOrder :
    let s := withRun both [0x00000003] [.env (.rx 7), .event .invoke, .fg]
    s.Inv ∧ Roles s ∧ ∃ t, run 3 s = .next t :=
  ⟨withRun_inv both_inv _ _, by simp [Roles, withRun, Turn.inContract], _, rfl⟩
theorem witness_InvocationsDrainTheQueue_bounded :
    let s := withRun full [] (List.replicate 4 (.event .invoke) ++ [])
    s.Inv ∧ s.env.writable = true ∧ s.env.endless = false ∧ 4 ≤ s.tx.occ ∧
      s.sched = List.replicate 4 (.event .invoke) ++ [] := ⟨withRun_inv full_inv _ _, rfl, rfl, by decide, rfl⟩
/-- P1 step 1 from reset, the capacities left open: after step 1 of PUT_CHAR, and after step 2. -/
def pushed1 : State :=
  { State.reset with
    tx := State.reset.tx.pushed 0x61
    fg := { phase := .putArm, pend := countWord (Config.capTx - 1), cmds := [0x00610002] } }
def pushed2 : State :=
  { pushed1 with
    txie := true
    fg := { phase := .idle, pend := countWord (Config.capTx - 1), cmds := [] }
    obs := { State.reset.obs with
      replies := [{ cmd := .putChar 0 0x61, stat := .ok, res := countWord (Config.capTx - 1) }] } }

/-- The byte is sent, and invocations go on for ever. -/
def drained : State :=
  { pushed2 with tx := pushed2.tx.popped, txie := false, txcount := 1, obs := { pushed2.obs with wireTx := [0x61] } }
def draining : Execution where
  state | 0 => State.reset | 1 => pushed1 | 2 => pushed2 | _ + 3 => drained
  turn | 0 => .fg | 1 => .fg | _ + 2 => .event .invoke
  words | 0 => [0x00610002] | _ + 1 => []
  steps | 0 => rfl | 1 => rfl | 2 => rfl | _ + 3 => rfl

/-- The hardware stops being writable before the first invocation, and nothing more happens. -/
def silenced : Execution where
  state | 0 => State.reset | 1 => pushed1 | 2 => pushed2
        | _ + 3 => { pushed2 with env := { pushed2.env with writable := false } }
  turn | 0 => .fg | 1 => .fg | 2 => .env (.writable false) | _ + 3 => .fg
  words | 0 => [0x00610002] | _ + 1 => []
  steps | 0 => rfl | 1 => rfl | 2 => rfl | _ + 3 => rfl

theorem draining_idle (n : Nat) : (draining.state (n + 2)).fg.phase = .idle := by cases n <;> rfl
theorem silenced_idle (n : Nat) : (silenced.state (n + 2)).fg.phase = .idle := by cases n <;> rfl

/-- The premises of both clauses about executions without end, met by `draining`. -/
theorem witness_InvocationsDrainTheQueue :
    draining.PReset ∧ draining.PRoles ∧ draining.PE3 ∧ draining.InvokesForever ∧ draining.PFair ∧ draining.PFgDone ∧
    draining.StaysWritable := by
  have later (n : Nat) : draining.turn (n + 2) = .event .invoke := rfl
  have forever : draining.InvokesForever := fun n => ⟨n + 2, Nat.le_add_right n 2, later n⟩
  refine ⟨rfl, ?_, ?_, forever, fun n _ => forever n, fun n _ => ⟨n + 2, Nat.le_add_right n 2, draining_idle n⟩, ?_⟩
  · rintro (_ | _ | n) <;> rfl
  · intro h
    obtain ⟨m, hm, -, ho⟩ := h 3
    obtain ⟨k, rfl⟩ := Nat.exists_eq_add_of_le' hm
    exact absurd rfl ho
  · exact fun n => ⟨n, le_refl n, fun k _ _ => by rcases k with _ | _ | _ | k <;> rfl⟩

/-- P_E3 and P_FAIR as R96 and R115 word them do not give R99 (log 25): a hardware that is never asked and an interrupt
that is not requested meet them. -/
theorem worded_premises_do_not_deliver :
    silenced.PReset ∧ silenced.PRoles ∧ silenced.PE3 ∧ silenced.PFair ∧ silenced.PFgDone ∧ ¬silenced.Delivers := by
  refine ⟨rfl, ?_, ?_, ?_, fun n _ => ⟨n + 2, Nat.le_add_right n 2, silenced_idle n⟩, ?_⟩
  · rintro (_ | _ | _ | n) <;> rfl
  · intro h
    obtain ⟨m, hm, ht, -⟩ := h 3
    obtain ⟨k, rfl⟩ := Nat.exists_eq_add_of_le' hm
    exact absurd ht Bool.false_ne_true
  · intro n h
    exact absurd (h (n + 3) (Nat.le_add_right n 3)) Bool.false_ne_true
  · intro h
    obtain ⟨m, hm, hp⟩ := h 2
    obtain ⟨k, rfl⟩ := Nat.exists_eq_add_of_le' hm
    have hl := hp.length_le
    rw [show (silenced.state (k + 2)).obs.wireTx = [] by cases k <;> rfl] at hl
    exact absurd hl (by simp [txHistory, silenced, pushed2, pushed1, State.reset, State.resetWith])
theorem witness_EagerRunReachesQuiescence :
    Safe both ∧ both.sched = [] ∧ both.fg.cmds = [] ∧ both.env.writable = true :=
  ⟨⟨both_inv, fun _ _ => rfl, fun h => Phase.noConfusion h, by simp [Roles, both, base, State.resetWith],
    ⟨rfl, by simp [both, base, State.resetWith]⟩⟩, rfl, rfl, rfl⟩

/-- `both` with a stale byte in a slot of `tx` that is not occupied. -/
def bothStale : State := { both with tx := { both.tx with mem := [(0, 0x61), (3, 0x77)] } }

theorem bothStale_inv : bothStale.Inv where
  reset := rfl
  tx := { both_inv.tx with
    params := ⟨by decide, by decide⟩
    mem_wf := by decide
    mem_lt := by decide
    written := by decide }
  rx := both_inv.rx
  rxie := rfl
  inactive := rfl
  txcount := rfl
  rxcount := rfl

theorem witness_StaleSlotsAreUnobservable :
    both.Inv ∧ bothStale.Inv ∧ both.SameButStale bothStale ∧ ∃ t, step both = .next t :=
  ⟨both_inv, bothStale_inv, ⟨⟨rfl, rfl, rfl, rfl, rfl, rfl⟩, ⟨rfl, rfl, rfl, rfl, rfl, rfl⟩, rfl⟩, _, rfl⟩

end Sys2Proof.Tests
end

section
/-! The register widths (spec/00_scope.md R7). -/

namespace Sys2Proof.Config

/-- A register of at least one bit holds every index of a queue of capacity `C` exactly when it has `IW(C)` bits. -/
theorem indexWidth_le_iff {C k : Nat} (hC : 1 ≤ C) : indexWidth C ≤ k ↔ 1 ≤ k ∧ C - 1 < 2 ^ k := by
  rw [indexWidth, max_le_iff, Nat.clog_le_iff_le_pow Nat.one_lt_two]
  exact and_congr_right fun _ => by omega

/-- A register holds every occupancy of a queue of capacity `C` exactly when it has `CW(C)` bits. -/
theorem occWidth_le_iff {C k : Nat} : occWidth C ≤ k ↔ C < 2 ^ k := by
  rw [occWidth, Nat.clog_le_iff_le_pow Nat.one_lt_two, Nat.succ_le_iff]

/-- Settles O6: each width is the least one that fits, and so it fits itself. -/
theorem registerWidthsFit : Obligations.RegisterWidthsFit := by
  intro C hC
  have hIndex := (indexWidth_le_iff hC).1 le_rfl
  exact ⟨hIndex.2, occWidth_le_iff.1 le_rfl, fun _ hk hfit => (indexWidth_le_iff hC).2 ⟨hk, hfit⟩,
    fun _ => occWidth_le_iff.2⟩

end Sys2Proof.Config
end

section
/-! The frame of the capacities (R5, R23): each shared operation, meaning and turn, when it answers, leaves both as they
were. -/

namespace Sys2Proof.Machine

variable {s t : State}

/-- The two capacities, which are fixed at construction (R5). An equation `t.caps = s.caps` says that neither changed. -/
def State.caps (s : State) : Nat × Nat := (s.tx.cap, s.rx.cap)

theorem caps_eq_iff : t.caps = s.caps ↔ t.tx.cap = s.tx.cap ∧ t.rx.cap = s.rx.cap := Prod.mk_inj

/-- Storing a ring of the same capacity keeps both. -/
theorem caps_setRing (q : Queue) {r : Ring} (h : r.cap = (s.ring q).cap) : (s.setRing q r).caps = s.caps := by
  cases q
  · exact caps_eq_iff.2 ⟨h, rfl⟩
  · exact caps_eq_iff.2 ⟨rfl, h⟩

theorem caps_retire (s : State) : (retire s).caps = s.caps := by simp [State.caps]

theorem caps_envChange (e : EnvEvent) (s : State) : (envChange e s).caps = s.caps := by cases e <;> rfl

/-! ### The shared operations -/

theorem initRing_caps {q : Queue} (h : initRing q s = .next t) : t.caps = s.caps := by
  obtain ⟨-, -, -, -, rfl⟩ := initRing_eq_next.1 h
  exact caps_setRing q rfl

theorem pushRing_caps {q : Queue} {b : Byte} {n : Nat} (h : pushRing q b s = .next (n, t)) : t.caps = s.caps := by
  obtain ⟨-, ⟨-, -, rfl⟩ | ⟨-, -, -, rfl⟩⟩ := pushRing_eq_next.1 h
  · rfl
  · exact caps_setRing q rfl

theorem popRing_caps {q : Queue} {b : Byte} {ok : Bool} (h : popRing q s = .next (b, ok, t)) : t.caps = s.caps := by
  obtain ⟨-, ⟨-, -, -, rfl⟩ | ⟨-, -, -, ⟨-, rfl⟩ | ⟨-, -, rfl⟩⟩⟩ := popRing_eq_next.1 h
  · rfl
  · exact caps_setRing q rfl
  · exact caps_setRing (s := (draw8 s).2) q (by cases q <;> rfl)

theorem envReadByte_caps {b : Byte} (h : envReadByte s = .next (b, t)) : t.caps = s.caps := by
  obtain ⟨_, -, rfl⟩ | ⟨-, -, -, rfl⟩ := envReadByte_eq_next.1 h <;> rfl

theorem txSend_caps (h : txSend s = .next t) : t.caps = s.caps := by
  obtain ⟨-, rfl⟩ | ⟨-, -, b, ok, s1, hpop, rfl⟩ := txSend_eq_next.1 h
  · rfl
  · exact (popRing_caps hpop :)

theorem txDuty_caps (h : txDuty s = .next t) : t.caps = s.caps := by
  obtain ⟨s1, hsend, rfl⟩ := txDuty_eq_next.1 h
  exact (txSend_caps hsend :)

theorem rxTake_caps (h : rxTake s = .next t) : t.caps = s.caps := by
  obtain ⟨b, s1, n, s2, hread, hpush, rfl⟩ := rxTake_eq_next.1 h
  exact (pushRing_caps hpush).trans (envReadByte_caps hread)

theorem rxDuty_caps (h : rxDuty s = .next t) : t.caps = s.caps := by
  obtain ⟨-, hloop⟩ := rxDuty_eq_next.1 h
  exact (rxLoop_induction (P := fun u => u.caps = s.caps) (fun _ _ hu htake => (rxTake_caps htake).trans hu)
    _ s t rfl hloop).1

theorem resetBlock_caps (h : resetBlock s = .next t) : t.caps = s.caps := by
  obtain ⟨s1, s2, htx, hrx, rfl⟩ := resetBlock_eq_next.1 h
  exact (initRing_caps hrx).trans (initRing_caps htx)

/-! ### The meanings -/

theorem execPutChar_caps {sid b : Byte} (h : execPutChar sid b s = .next t) : t.caps = s.caps := by
  obtain ⟨-, -, ⟨-, -, hstep⟩ | ⟨-, -, rfl⟩ | ⟨-, -, rfl⟩⟩ := execPutChar_eq_next.1 h
  · obtain ⟨n, s1, hpush, rfl⟩ := putCharPush_eq_next.1 hstep
    exact (pushRing_caps hpush :)
  · rfl
  · rfl

theorem execGetChar_caps {sid : Byte} (h : execGetChar sid s = .next t) : t.caps = s.caps := by
  obtain ⟨-, -, -, ⟨-, b, ok, s1, hpop, ⟨-, rfl⟩ | ⟨-, rfl⟩⟩ | ⟨-, rfl⟩⟩ := execGetChar_eq_next.1 h
  · exact (popRing_caps hpop :)
  · exact (popRing_caps hpop :)
  · rfl

theorem execIhInvoke_caps (h : execIhInvoke s = .next t) : t.caps = s.caps := by
  obtain ⟨-, -, s2, s3, htx, hrx, rfl⟩ := execIhInvoke_eq_next.1 h
  exact (rxDuty_caps hrx).trans (txDuty_caps htx :)

/-- No operation changes a capacity. -/
theorem exec_caps {i : Instr} (h : exec i s = .next t) : t.caps = s.caps := by
  cases i with
  | version =>
    obtain ⟨-, -, -, rfl⟩ := execVersion_eq_next.1 h
    rfl
  | putChar sid b => exact execPutChar_caps h
  | getChar sid => exact execGetChar_caps h
  | charsAvailable sid =>
    obtain ⟨-, -, -, ⟨-, rfl⟩ | ⟨-, rfl⟩⟩ := execCharsAvailable_eq_next.1 h <;> rfl
  | invalidOp w =>
    obtain ⟨-, -, -, rfl⟩ := execInvalidOp_eq_next.1 h
    rfl
  | rbInit q => exact initRing_caps h
  | rbPush a q b =>
    obtain ⟨-, -, n, s1, hpush, rfl⟩ := execRbPush_eq_next.1 h
    exact (pushRing_caps hpush :)
  | rbPop a q =>
    obtain ⟨-, -, b, ok, s1, hpop, rfl⟩ := execRbPop_eq_next.1 h
    exact (popRing_caps hpop :)
  | rbUsed q =>
    obtain ⟨-, rfl⟩ := execRbUsed_eq_next.1 h
    rfl
  | rbFree q =>
    obtain ⟨-, rfl⟩ := execRbFree_eq_next.1 h
    rfl
  | ihInvoke => exact execIhInvoke_caps h
  | ihTxduty => exact txDuty_caps (execIhTxduty_eq_next.1 h).2
  | ihRxduty => exact rxDuty_caps (execIhRxduty_eq_next.1 h).2

/-! ### Turns and steps -/

theorem foregroundTurn_caps (h : foregroundTurn s = .next t) : t.caps = s.caps := by
  obtain ⟨-, rfl⟩ | ⟨i, s1, -, hexec, rfl⟩ := foregroundTurn_eq_next.1 h
  · rfl
  · exact (caps_retire s1).trans (exec_caps hexec)

theorem portTurn_caps {p : PortSignal} (h : portTurn p s = .next t) : t.caps = s.caps := by
  obtain ⟨-, rfl⟩ | ⟨i, -, -, hexec⟩ := portTurn_eq_next.1 h
  · rfl
  · exact exec_caps hexec

theorem eagerTurn_caps (h : eagerTurn s = .next t) : t.caps = s.caps := by
  obtain ⟨-, -, hinvoke⟩ | ⟨-, hturn⟩ := eagerTurn_eq_next.1 h
  · exact exec_caps hinvoke
  · exact foregroundTurn_caps hturn

theorem runTurn_caps {u : Turn} (h : runTurn u s = .next t) : t.caps = s.caps := by
  cases u with
  | fg => exact foregroundTurn_caps h
  | event e => exact exec_caps h
  | env e =>
    obtain rfl := Host.Outcome.next.inj h
    exact caps_envChange e s
  | port p => exact portTurn_caps h
  | reset => exact resetBlock_caps h

theorem step_caps (h : step s = .next t) : t.caps = s.caps := by
  obtain ⟨u, us, -, hturn⟩ | ⟨-, hturn⟩ := step_eq_next.1 h
  · exact (runTurn_caps hturn :)
  · exact eagerTurn_caps hturn

/-- Settles O54, by the frame of every turn. -/
theorem capacityIsFixed : Obligations.CapacityIsFixed := fun _ _ h => caps_eq_iff.1 (step_caps h)

end Sys2Proof.Machine
end

section
/-! The refusals of RB.INIT and of reset (spec/70_reset_and_hazards.md R132; R5, U14). -/

namespace Sys2Proof.Machine

variable {s : State} {q : Queue}

theorem exec_rbInit (q : Queue) (s : State) : exec (.rbInit q) s = initRing q s := rfl

theorem step_of_sched_cons {u : Turn} {us : List Turn} (h : s.sched = u :: us) :
    step s = runTurn u { s with sched := us } := by
  simp only [step, h]

/-- A reset turn resets the block, whose schedule is what remains of it. -/
theorem step_reset {us : List Turn} (h : s.sched = .reset :: us) : step s = resetBlock { s with sched := us } :=
  step_of_sched_cons h

/-- The capacities beyond what a result value can hold (R5). -/
theorem maxCapacity_lt_iff {C : Nat} : Config.maxCapacity < C ↔ 2 ^ 32 ≤ C := by
  unfold Config.maxCapacity
  omega

theorem initRing_of_initialised (h : (s.ring q).ready = true ∨ isReset s = true) :
    initRing q s = .refused (.secondInit q) := by
  unfold initRing
  rw [if_pos (Bool.or_eq_true_iff.2 h)]

theorem initRing_of_badCapacity (hready : (s.ring q).ready = false) (hreset : isReset s = false)
    (hcap : (s.ring q).cap = 0 ∨ 2 ^ 32 ≤ (s.ring q).cap) : initRing q s = .refused (.badCapacity q) := by
  unfold initRing
  rw [if_neg (by simp [hready, hreset]), if_pos (hcap.imp_right maxCapacity_lt_iff.2)]

/-- A refusal to initialise `tx` refuses the reset. -/
theorem resetBlock_of_tx_refused {r : Refusal} (h : initRing .tx s = .refused r) : resetBlock s = .refused r := by
  rw [resetBlock, h, andThen_refused]

/-- Once `tx` can be initialised, a refusal to initialise `rx` refuses the reset. -/
theorem resetBlock_of_rx_refused {r : Refusal} {s1 : State} (htx : initRing .tx s = .next s1)
    (hrx : initRing .rx s1 = .refused r) : resetBlock s = .refused r := by
  rw [resetBlock, htx, andThen_next, hrx, andThen_refused]

/-- Settles O15: a refused reset is refused by the first of the two queues that RB.INIT refuses. -/
theorem initialisationOutOfContractIsRefused : Obligations.InitialisationOutOfContractIsRefused := by
  intro s
  refine ⟨fun us hs hreset => ?_, fun q h => initRing_of_initialised h, fun hreset =>
    ⟨fun q hready hcap => initRing_of_badCapacity hready hreset hcap, fun us hs hready hcap => ?_,
      fun us hs htx hparams hrx hcap => ?_⟩⟩
  · rw [step_reset hs]
    exact resetBlock_of_tx_refused (initRing_of_initialised (.inr hreset))
  · rw [step_reset hs]
    exact resetBlock_of_tx_refused (initRing_of_badCapacity hready hreset hcap)
  · rw [step_reset hs]
    exact resetBlock_of_rx_refused (initRing_eq_next.2 ⟨htx, hreset, hparams.pos, hparams.fits, rfl⟩)
      (initRing_of_badCapacity hrx hreset hcap)

end Sys2Proof.Machine
end

section
/-! What each shared operation can write when it answers, as one record update (R118), and what no operation writes. -/

namespace Sys2Proof.Machine

variable {s t : State}

theorem pushRing_frame {q : Queue} {b : Byte} {n : Nat} (h : pushRing q b s = .next (n, t)) :
    ∃ r, t = s.setRing q r := by
  obtain ⟨-, ⟨-, -, rfl⟩ | ⟨-, -, -, rfl⟩⟩ := pushRing_eq_next.1 h
  · exact ⟨_, (setRing_self s q).symm⟩
  · exact ⟨_, rfl⟩

/-- A pop writes registers of its own ring and may draw a byte; it stores nothing (R34). -/
theorem popRing_frame {q : Queue} {b : Byte} {ok : Bool} (h : popRing q s = .next (b, ok, t)) :
    ∃ r d, t = { s.setRing q r with draws := d } ∧ r.mem = (s.ring q).mem := by
  obtain ⟨-, ⟨-, -, -, rfl⟩ | ⟨-, -, -, ⟨-, rfl⟩ | ⟨-, -, rfl⟩⟩⟩ := popRing_eq_next.1 h
  · exact ⟨s.ring q, s.draws + 1, by cases q <;> rfl, rfl⟩
  · exact ⟨_, s.draws, by cases q <;> rfl, popped_mem _⟩
  · exact ⟨_, s.draws + 1, by cases q <;> rfl, popped_mem _⟩

theorem envReadByte_frame {b : Byte} (h : envReadByte s = .next (b, t)) :
    ∃ e d, t = { s with env := e, draws := d, obs := { s.obs with wireRx := s.obs.wireRx ++ [b] } } := by
  obtain ⟨_, -, rfl⟩ | ⟨-, -, -, rfl⟩ := envReadByte_eq_next.1 h <;> exact ⟨_, _, rfl⟩

theorem txSend_frame (h : txSend s = .next t) :
    ∃ r d c w, t = { s with tx := r, draws := d, txcount := c, obs := { s.obs with wireTx := w } } ∧
      r.mem = s.tx.mem := by
  obtain ⟨-, rfl⟩ | ⟨-, -, b, ok, s1, hpop, rfl⟩ := txSend_eq_next.1 h
  · exact ⟨_, _, _, _, rfl, rfl⟩
  · obtain ⟨r, d, rfl, hmem⟩ := popRing_frame hpop
    exact ⟨r, d, _, _, rfl, hmem⟩

/-- The transmit duty stores into TXIE whether the `tx` it leaves is non-empty (R91). -/
theorem txDuty_frame (h : txDuty s = .next t) :
    ∃ r d c w, t = { s with
        tx := r, txie := r.nonEmpty, draws := d, txcount := c, obs := { s.obs with wireTx := w } } ∧
      r.mem = s.tx.mem := by
  obtain ⟨s1, hsend, rfl⟩ := txDuty_eq_next.1 h
  obtain ⟨r, d, c, w, rfl, hmem⟩ := txSend_frame hsend
  exact ⟨r, d, c, w, rfl, hmem⟩

theorem rxTake_frame (h : rxTake s = .next t) :
    ∃ r e d c w, t = { s with rx := r, env := e, draws := d, rxcount := c, obs := { s.obs with wireRx := w } } := by
  obtain ⟨b, s1, n, s2, hread, hpush, rfl⟩ := rxTake_eq_next.1 h
  obtain ⟨e, d, rfl⟩ := envReadByte_frame hread
  obtain ⟨r, rfl⟩ := pushRing_frame hpush
  exact ⟨r, e, d, _, _, rfl⟩

/-- The receive duty leaves `tx` and TXIE alone (R92). -/
theorem rxDuty_frame (h : rxDuty s = .next t) :
    ∃ r e d c w, t = { s with rx := r, env := e, draws := d, rxcount := c, obs := { s.obs with wireRx := w } } := by
  obtain ⟨-, hloop⟩ := rxDuty_eq_next.1 h
  refine (rxLoop_induction
    (P := fun u => ∃ r e d c w,
      u = { s with rx := r, env := e, draws := d, rxcount := c, obs := { s.obs with wireRx := w } })
    ?_ _ s t ⟨_, _, _, _, _, rfl⟩ hloop).1
  rintro _ u ⟨_, _, _, _, _, rfl⟩ htake
  obtain ⟨r, e, d, c, w, rfl⟩ := rxTake_frame htake
  exact ⟨r, e, d, c, w, rfl⟩

/-! ### What no operation writes -/

/-- What every operation leaves as it was: the turns to come, the ports, RXIE (R17), the record of the reset (R131), the
program, and, when the operation answers, whether an invocation is active (R22). -/
structure Fixed where
  sched : List Turn
  portsOut : Bool
  rxie : Bool
  inOperation : Bool
  cmds : List Word
  active : Bool

/-- An equation `t.fixed = s.fixed` says that none of them changed. -/
def State.fixed (s : State) : Fixed :=
  ⟨s.sched, s.portsOut, s.rxie, s.inOperation, s.fg.cmds, s.ih.active⟩

theorem fixed_setRing (s : State) (q : Queue) (r : Ring) : (s.setRing q r).fixed = s.fixed := by cases q <;> rfl

theorem pushRing_fixed {q : Queue} {b : Byte} {n : Nat} (h : pushRing q b s = .next (n, t)) : t.fixed = s.fixed := by
  obtain ⟨r, rfl⟩ := pushRing_frame h
  exact fixed_setRing s q r

theorem popRing_fixed {q : Queue} {b : Byte} {ok : Bool} (h : popRing q s = .next (b, ok, t)) : t.fixed = s.fixed := by
  obtain ⟨r, d, rfl, -⟩ := popRing_frame h
  exact fixed_setRing s q r

theorem txDuty_fixed (h : txDuty s = .next t) : t.fixed = s.fixed := by
  obtain ⟨_, _, _, _, rfl, -⟩ := txDuty_frame h
  rfl

theorem rxDuty_fixed (h : rxDuty s = .next t) : t.fixed = s.fixed := by
  obtain ⟨_, _, _, _, _, rfl⟩ := rxDuty_frame h
  rfl

theorem execPutChar_fixed {sid b : Byte} (h : execPutChar sid b s = .next t) : t.fixed = s.fixed := by
  obtain ⟨-, -, ⟨-, -, hstep⟩ | ⟨-, -, rfl⟩ | ⟨-, -, rfl⟩⟩ := execPutChar_eq_next.1 h
  · obtain ⟨n, s1, hpush, rfl⟩ := putCharPush_eq_next.1 hstep
    exact (pushRing_fixed hpush :)
  · rfl
  · rfl

theorem execGetChar_fixed {sid : Byte} (h : execGetChar sid s = .next t) : t.fixed = s.fixed := by
  obtain ⟨-, -, -, ⟨-, b, ok, s1, hpop, ⟨-, rfl⟩ | ⟨-, rfl⟩⟩ | ⟨-, rfl⟩⟩ := execGetChar_eq_next.1 h
  · exact (popRing_fixed hpop :)
  · exact (popRing_fixed hpop :)
  · rfl

/-- An invocation sets and clears `ih.active` within one step (R90). -/
theorem execIhInvoke_fixed (h : execIhInvoke s = .next t) : t.fixed = s.fixed := by
  obtain ⟨-, hinactive, s2, s3, htx, hrx, rfl⟩ := execIhInvoke_eq_next.1 h
  obtain ⟨_, _, _, _, rfl, -⟩ := txDuty_frame htx
  obtain ⟨_, _, _, _, _, rfl⟩ := rxDuty_frame hrx
  simp [State.fixed, hinactive]

theorem exec_fixed {i : Instr} (h : exec i s = .next t) : t.fixed = s.fixed := by
  cases i with
  | version =>
    obtain ⟨-, -, -, rfl⟩ := execVersion_eq_next.1 h
    rfl
  | putChar sid b => exact execPutChar_fixed h
  | getChar sid => exact execGetChar_fixed h
  | charsAvailable sid =>
    obtain ⟨-, -, -, ⟨-, rfl⟩ | ⟨-, rfl⟩⟩ := execCharsAvailable_eq_next.1 h <;> rfl
  | invalidOp w =>
    obtain ⟨-, -, -, rfl⟩ := execInvalidOp_eq_next.1 h
    rfl
  | rbInit q =>
    obtain ⟨-, -, -, -, rfl⟩ := initRing_eq_next.1 h
    exact fixed_setRing s q _
  | rbPush a q b =>
    obtain ⟨-, -, n, s1, hpush, rfl⟩ := execRbPush_eq_next.1 h
    exact (pushRing_fixed hpush :)
  | rbPop a q =>
    obtain ⟨-, -, b, ok, s1, hpop, rfl⟩ := execRbPop_eq_next.1 h
    exact (popRing_fixed hpop :)
  | rbUsed q =>
    obtain ⟨-, rfl⟩ := execRbUsed_eq_next.1 h
    rfl
  | rbFree q =>
    obtain ⟨-, rfl⟩ := execRbFree_eq_next.1 h
    rfl
  | ihInvoke => exact execIhInvoke_fixed h
  | ihTxduty => exact txDuty_fixed (execIhTxduty_eq_next.1 h).2
  | ihRxduty => exact rxDuty_fixed (execIhRxduty_eq_next.1 h).2

theorem exec_rxie {i : Instr} (h : exec i s = .next t) : t.rxie = s.rxie := congrArg Fixed.rxie (exec_fixed h)

theorem exec_inOperation {i : Instr} (h : exec i s = .next t) : t.inOperation = s.inOperation :=
  congrArg Fixed.inOperation (exec_fixed h)

theorem exec_active {i : Instr} (h : exec i s = .next t) : t.ih.active = s.ih.active :=
  congrArg Fixed.active (exec_fixed h)

theorem exec_sched {i : Instr} (h : exec i s = .next t) : t.sched = s.sched := congrArg Fixed.sched (exec_fixed h)

end Sys2Proof.Machine
end

section
/-! The invariants of the block (R14, R15, R17, R22, R101): every step keeps them, and reset establishes them. -/

namespace Sys2Proof.Machine

variable {s t : State}

/-! ### The queues and the counters -/

/-- The part of the invariant that the operations write to: both rings, and the two counters with their traces. It holds
inside an invocation as well. -/
structure State.Ledger (s : State) : Prop where
  tx : s.tx.Inv
  rx : s.rx.Inv
  txcount : s.txcount = BitVec.ofNat 32 s.obs.wireTx.length
  rxcount : s.rxcount = BitVec.ofNat 32 s.obs.wireRx.length

theorem State.Inv.ledger (h : s.Inv) : s.Ledger := ⟨h.tx, h.rx, h.txcount, h.rxcount⟩

theorem State.Ledger.ring (h : s.Ledger) (q : Queue) : (s.ring q).Inv := by
  cases q
  · exact h.tx
  · exact h.rx

/-- Storing a ring with the invariants keeps the rest. -/
theorem State.Ledger.setRing (h : s.Ledger) (q : Queue) {r : Ring} (hr : r.Inv) : (s.setRing q r).Ledger := by
  cases q
  · exact { h with tx := hr }
  · exact { h with rx := hr }

/-- One more byte on a wire is one more in its counter, modulo 2^32 (R18). -/
theorem count_append (w : List Byte) (b : Byte) :
    BitVec.ofNat 32 w.length + 1 = BitVec.ofNat 32 (w ++ [b]).length := by
  rw [List.length_append, List.length_singleton, BitVec.ofNat_add]
  rfl

theorem pushRing_ledger {q : Queue} {b : Byte} {n : Nat} (hs : s.Ledger) (h : pushRing q b s = .next (n, t)) :
    t.Ledger := by
  obtain ⟨-, ⟨-, -, rfl⟩ | ⟨hroom, -, -, rfl⟩⟩ := pushRing_eq_next.1 h
  · exact hs
  · exact hs.setRing q (pushed_inv (hs.ring q) (lt_of_le_of_ne (hs.ring q).occ_le hroom) b)

theorem popRing_ledger {q : Queue} {b : Byte} {ok : Bool} (hs : s.Ledger) (h : popRing q s = .next (b, ok, t)) :
    t.Ledger := by
  have hdraw : (draw8 s).2.Ledger := { hs with }
  obtain ⟨-, ⟨-, -, -, rfl⟩ | ⟨ho, -, -, ⟨-, rfl⟩ | ⟨-, -, rfl⟩⟩⟩ := popRing_eq_next.1 h
  · exact hdraw
  · exact hs.setRing q (popped_inv (hs.ring q) ho)
  · exact hdraw.setRing q (popped_inv (hs.ring q) ho)

/-- A byte given to the hardware is counted in the same step (R91). -/
theorem txDuty_ledger (hs : s.Ledger) (h : txDuty s = .next t) : t.Ledger := by
  obtain ⟨s1, hsend, rfl⟩ := txDuty_eq_next.1 h
  obtain ⟨-, rfl⟩ | ⟨-, -, b, ok, s2, hpop, rfl⟩ := txSend_eq_next.1 hsend
  · exact { hs with }
  · have h2 := popRing_ledger hs hpop
    exact { h2 with txcount := (congrArg (· + 1) h2.txcount).trans (count_append _ b) }

/-- A byte read is counted in the same round, whether or not there was room for it (R92). -/
theorem rxTake_ledger (hs : s.Ledger) (h : rxTake s = .next t) : t.Ledger := by
  obtain ⟨b, s1, n, s2, hread, hpush, rfl⟩ := rxTake_eq_next.1 h
  obtain ⟨e, d, rfl⟩ := envReadByte_frame hread
  obtain ⟨-, ⟨-, -, rfl⟩ | ⟨hroom, -, -, rfl⟩⟩ := pushRing_eq_next.1 hpush
  · exact { hs with rxcount := (congrArg (· + 1) hs.rxcount).trans (count_append _ b) }
  · exact { hs with
      rx := pushed_inv hs.rx (lt_of_le_of_ne hs.rx.occ_le hroom) b
      rxcount := (congrArg (· + 1) hs.rxcount).trans (count_append _ b) }

theorem rxDuty_ledger (hs : s.Ledger) (h : rxDuty s = .next t) : t.Ledger :=
  (rxLoop_induction (fun _ _ => rxTake_ledger) _ s t hs (rxDuty_eq_next.1 h).2).1

/-! ### The meanings -/

theorem execPutChar_ledger {sid b : Byte} (hs : s.Ledger) (h : execPutChar sid b s = .next t) : t.Ledger := by
  obtain ⟨-, -, ⟨-, -, hstep⟩ | ⟨-, -, rfl⟩ | ⟨-, -, rfl⟩⟩ := execPutChar_eq_next.1 h
  · obtain ⟨n, s1, hpush, rfl⟩ := putCharPush_eq_next.1 hstep
    exact { pushRing_ledger hs hpush with }
  · exact { hs with }
  · exact { hs with }

theorem execGetChar_ledger {sid : Byte} (hs : s.Ledger) (h : execGetChar sid s = .next t) : t.Ledger := by
  obtain ⟨-, -, -, ⟨-, b, ok, s1, hpop, ⟨-, rfl⟩ | ⟨-, rfl⟩⟩ | ⟨-, rfl⟩⟩ := execGetChar_eq_next.1 h
  · exact { popRing_ledger hs hpop with }
  · exact { popRing_ledger hs hpop with }
  · exact { hs with }

theorem execIhInvoke_ledger (hs : s.Ledger) (h : execIhInvoke s = .next t) : t.Ledger := by
  obtain ⟨-, -, s2, s3, htx, hrx, rfl⟩ := execIhInvoke_eq_next.1 h
  have hentry : State.Ledger { s with ih := { active := true } } := { hs with }
  exact { rxDuty_ledger (txDuty_ledger hentry htx) hrx with }

/-- RB.INIT is never performed on an initialised ring (R132). -/
theorem initRing_ne_next {q : Queue} (h : (s.ring q).ready = true) : initRing q s ≠ .next t := by
  simp [initRing_of_initialised (Or.inl h)]

theorem exec_ledger {i : Instr} (hs : s.Ledger) (h : exec i s = .next t) : t.Ledger := by
  cases i with
  | version =>
    obtain ⟨-, -, -, rfl⟩ := execVersion_eq_next.1 h
    exact { hs with }
  | putChar sid b => exact execPutChar_ledger hs h
  | getChar sid => exact execGetChar_ledger hs h
  | charsAvailable sid =>
    obtain ⟨-, -, -, ⟨-, rfl⟩ | ⟨-, rfl⟩⟩ := execCharsAvailable_eq_next.1 h <;> exact { hs with }
  | invalidOp w =>
    obtain ⟨-, -, -, rfl⟩ := execInvalidOp_eq_next.1 h
    exact { hs with }
  | rbInit q => exact absurd h (initRing_ne_next (hs.ring q).ready)
  | rbPush a q b =>
    obtain ⟨-, -, n, s1, hpush, rfl⟩ := execRbPush_eq_next.1 h
    exact { pushRing_ledger hs hpush with }
  | rbPop a q =>
    obtain ⟨-, -, b, ok, s1, hpop, rfl⟩ := execRbPop_eq_next.1 h
    exact { popRing_ledger hs hpop with }
  | rbUsed q =>
    obtain ⟨-, rfl⟩ := execRbUsed_eq_next.1 h
    exact { hs with }
  | rbFree q =>
    obtain ⟨-, rfl⟩ := execRbFree_eq_next.1 h
    exact { hs with }
  | ihInvoke => exact execIhInvoke_ledger hs h
  | ihTxduty => exact txDuty_ledger hs (execIhTxduty_eq_next.1 h).2
  | ihRxduty => exact rxDuty_ledger hs (execIhRxduty_eq_next.1 h).2

/-- Every operation keeps the invariants: what it writes keeps the ledger, and the rest it does not write. -/
theorem exec_inv {i : Instr} (hs : s.Inv) (h : exec i s = .next t) : t.Inv :=
  { exec_ledger hs.ledger h with
    reset := (exec_inOperation h).trans hs.reset
    rxie := (exec_rxie h).trans hs.rxie
    inactive := (exec_active h).trans hs.inactive }

/-! ### Turns, steps and runs -/

theorem retire_inv (hs : s.Inv) : (retire s).Inv := by
  cases hphase : s.fg.phase with
  | idle =>
    rw [retire_idle s hphase]
    exact { hs with }
  | putArm =>
    rw [retire_putArm s hphase]
    exact hs

theorem foregroundTurn_inv (hs : s.Inv) (h : foregroundTurn s = .next t) : t.Inv := by
  obtain ⟨-, rfl⟩ | ⟨i, s1, -, hexec, rfl⟩ := foregroundTurn_eq_next.1 h
  · exact hs
  · exact retire_inv (exec_inv hs hexec)

theorem portTurn_inv {p : PortSignal} (hs : s.Inv) (h : portTurn p s = .next t) : t.Inv := by
  obtain ⟨-, rfl⟩ | ⟨i, -, -, hexec⟩ := portTurn_eq_next.1 h
  · exact hs
  · exact exec_inv hs hexec

theorem eagerTurn_inv (hs : s.Inv) (h : eagerTurn s = .next t) : t.Inv := by
  obtain ⟨-, -, hinvoke⟩ | ⟨-, hturn⟩ := eagerTurn_eq_next.1 h
  · exact exec_inv hs hinvoke
  · exact foregroundTurn_inv hs hturn

theorem envChange_inv (e : EnvEvent) (hs : s.Inv) : (envChange e s).Inv := by cases e <;> exact { hs with }

/-- A block in operation is not reset again (R132). -/
theorem resetBlock_ne_next (h : s.tx.ready = true) : resetBlock s ≠ .next t := by
  simp [resetBlock_of_tx_refused (initRing_of_initialised (s := s) (q := .tx) (Or.inl h))]

theorem runTurn_inv {u : Turn} (hs : s.Inv) (h : runTurn u s = .next t) : t.Inv := by
  cases u with
  | fg => exact foregroundTurn_inv hs h
  | event e => exact exec_inv hs h
  | env e =>
    obtain rfl := Host.Outcome.next.inj h
    exact envChange_inv e hs
  | port p => exact portTurn_inv hs h
  | reset => exact absurd h (resetBlock_ne_next hs.tx.ready)

/-- Settles O47, turn by turn. -/
theorem everyStepKeepsTheInvariant : Obligations.EveryStepKeepsTheInvariant := by
  intro s t hs h
  obtain ⟨u, us, -, hturn⟩ | ⟨-, hturn⟩ := step_eq_next.1 h
  · have hpopped : State.Inv { s with sched := us } := { hs with }
    exact runTurn_inv hpopped hturn
  · exact eagerTurn_inv hs hturn

theorem startState_inv (cmds : List Word) (sched : List Turn) : (startState cmds sched).Inv where
  reset := rfl
  tx := freshRing_inv reset_params.1.pos reset_params.1.fits
  rx := freshRing_inv reset_params.2.pos reset_params.2.fits
  rxie := rfl
  inactive := rfl
  txcount := rfl
  rxcount := rfl

/-- Every state reached from reset has the invariants. -/
theorem reachable_inv {n : Nat} {cmds : List Word} {sched : List Turn} (h : run n (startState cmds sched) = .next t) :
    t.Inv :=
  run_induction everyStepKeepsTheInvariant n _ t (startState_inv cmds sched) h

/-- Settles O51: it is one of the invariants. -/
theorem reachableIndexEquation : Obligations.ReachableIndexEquation :=
  fun _ _ _ _ q h => ((reachable_inv h).ledger.ring q).wr_eq

/-- Settles O52: the counters are among the invariants. -/
theorem reachableCountersCountTheWires : Obligations.ReachableCountersCountTheWires := by
  intro n cmds sched t h
  have ht := reachable_inv h
  exact ⟨by rw [ht.txcount, BitVec.toNat_ofNat], by rw [ht.rxcount, BitVec.toNat_ofNat]⟩

/-- Settles O49: in the reset state the foreground is in IDLE over an empty `tx`, and the premises are those given. -/
theorem resetIsSafe : Obligations.ResetIsSafe := by
  intro cmds sched hsched
  exact {
    inv := startState_inv cmds sched
    handshake := fun _ hqueued => absurd rfl hqueued
    inFlight := fun harm => Phase.noConfusion harm
    roles := fun u hu => (hsched u hu).1
    finiteReads := ⟨rfl, fun u hu => (hsched u hu).2⟩ }

end Sys2Proof.Machine
end

section
/-! Which slots an operation can store to (R10, R34). -/

namespace Sys2Proof.Machine

variable {s t : State}

/-- A push stores at most the one byte at its own write index. -/
theorem pushRing_read {q p : Queue} {b : Byte} {n j : Nat} (hwf : Memory.wf (s.ring q).mem)
    (h : pushRing q b s = .next (n, t)) (hj : p = q → j ≠ (s.ring q).wr) :
    Memory.read (t.ring p).mem j = Memory.read (s.ring p).mem j := by
  obtain ⟨-, ⟨-, -, rfl⟩ | ⟨-, -, -, rfl⟩⟩ := pushRing_eq_next.1 h
  · rfl
  · by_cases hp : p = q
    · subst hp
      rw [setRing_ring, pushed_mem, read_write_ne _ _ _ _ hwf (hj rfl).symm]
    · rw [setRing_ring_ne s q p _ hp]

/-- A pop stores nothing. -/
theorem popRing_mem {q : Queue} {b : Byte} {ok : Bool} (h : popRing q s = .next (b, ok, t)) (p : Queue) :
    (t.ring p).mem = (s.ring p).mem := by
  obtain ⟨r, d, rfl, hmem⟩ := popRing_frame h
  change ((s.setRing q r).ring p).mem = (s.ring p).mem
  by_cases hp : p = q
  · rw [hp, setRing_ring, hmem]
  · rw [setRing_ring_ne s q p _ hp]

/-- The transmit duty stores nothing. -/
theorem txDuty_mem (h : txDuty s = .next t) (p : Queue) : (t.ring p).mem = (s.ring p).mem := by
  obtain ⟨r, d, c, w, rfl, hmem⟩ := txDuty_frame h
  cases p
  · exact hmem
  · rfl

theorem execGetChar_mem {sid : Byte} (h : execGetChar sid s = .next t) (p : Queue) :
    (t.ring p).mem = (s.ring p).mem := by
  obtain ⟨-, -, -, ⟨-, b, ok, s1, hpop, ⟨-, rfl⟩ | ⟨-, rfl⟩⟩ | ⟨-, rfl⟩⟩ := execGetChar_eq_next.1 h
  · exact (popRing_mem hpop p :)
  · exact (popRing_mem hpop p :)
  · rfl

/-- A PUT_CHAR stores through the push of its first step only. -/
theorem execPutChar_read {sid b : Byte} {p : Queue} {j : Nat} (hwf : Memory.wf s.tx.mem)
    (h : execPutChar sid b s = .next t) (hj : s.fg.phase = .idle → p = .tx → j ≠ s.tx.wr) :
    Memory.read (t.ring p).mem j = Memory.read (s.ring p).mem j := by
  obtain ⟨-, -, ⟨hidle, -, hstep⟩ | ⟨-, -, rfl⟩ | ⟨-, -, rfl⟩⟩ := execPutChar_eq_next.1 h
  · obtain ⟨n, s1, hpush, rfl⟩ := putCharPush_eq_next.1 hstep
    exact (pushRing_read (q := .tx) hwf hpush (hj hidle) :)
  · rfl
  · rfl

theorem rxTake_read {p : Queue} {j : Nat} (hwf : Memory.wf s.rx.mem) (h : rxTake s = .next t)
    (hj : p = .rx → j ≠ s.rx.wr) : Memory.read (t.ring p).mem j = Memory.read (s.ring p).mem j := by
  obtain ⟨b, s1, n, s2, hread, hpush, rfl⟩ := rxTake_eq_next.1 h
  obtain ⟨e, d, rfl⟩ := envReadByte_frame hread
  refine (pushRing_read (q := .rx) ?_ hpush ?_ :)
  · exact hwf
  · exact hj

/-- Settles O18: a push stores at its write index, and the operations that do not push store nothing. -/
theorem storesTouchOnlyTheWriteSlot : Obligations.StoresTouchOnlyTheWriteSlot := by
  intro s t htx hrx
  have hwf (q : Queue) : Memory.wf (s.ring q).mem := by
    cases q
    · exact htx
    · exact hrx
  refine ⟨fun a q b h p j hj => ?_, fun sid b h p j hj => execPutChar_read htx h hj,
    fun h p j hj => rxTake_read hrx h hj, fun i h hi p j => ?_⟩
  · obtain ⟨-, -, n, s1, hpush, rfl⟩ := execRbPush_eq_next.1 h
    exact (pushRing_read (hwf q) hpush hj :)
  · refine congrArg (Memory.read · j) ?_
    obtain ⟨sid, rfl⟩ | ⟨a, q, rfl⟩ | rfl := hi
    · exact execGetChar_mem h p
    · obtain ⟨-, -, b, ok, s1, hpop, rfl⟩ := execRbPop_eq_next.1 h
      exact (popRing_mem hpop p :)
    · exact txDuty_mem (execIhTxduty_eq_next.1 h).2 p

end Sys2Proof.Machine
end

section
/-! An executing invocation suspends the foreground and does not nest (R22, R117, R119). -/

namespace Sys2Proof.Machine

variable {s : State}

theorem whenForegroundRuns_of_active (k : Res State) (hr : isReset s = true) (ha : s.ih.active = true) :
    whenForegroundRuns s k = .refused .foregroundSuspended := by
  simp [whenForegroundRuns, hr, ha]

theorem whenAgentRuns_of_active (k : Res State) (ha : s.ih.active = true) :
    whenAgentRuns .fg s k = .refused .foregroundSuspended := by
  simp [whenAgentRuns, ha]

/-- Every command runs under the foreground's guard. -/
theorem exec_cg_of_active {i : Instr} (hr : isReset s = true) (ha : s.ih.active = true) (hi : i.format = .cg) :
    exec i s = .refused .foregroundSuspended := by
  cases i with
  | version | putChar | getChar | charsAvailable | invalidOp => exact whenForegroundRuns_of_active _ hr ha
  | rbInit | rbPush | rbPop | rbUsed | rbFree | ihInvoke | ihTxduty | ihRxduty => cases hi

/-- Settles O37, by the guards of the foreground, of its ports and of the handler's entry. -/
theorem activeHandlerSuspendsTheForeground : Obligations.ActiveHandlerSuspendsTheForeground := by
  intro s hr ha
  refine ⟨fun i hi => exec_cg_of_active hr ha hi, fun b => whenAgentRuns_of_active _ ha,
    whenAgentRuns_of_active _ ha, ?_⟩
  have hentry : handlerEntry s = .refused .nestedInvocation := by simp [handlerEntry, ha]
  change execIhInvoke s = _
  rw [execIhInvoke, if_pos hr, hentry, andThen_refused]

end Sys2Proof.Machine
end

section
/-! TXIE: who writes it (R16, R40), and the handshake between it and `tx` (R98). -/

namespace Sys2Proof.Machine

variable {s t : State}

/-! ### The writers of TXIE -/

theorem setRing_txie (s : State) (q : Queue) (r : Ring) : (s.setRing q r).txie = s.txie := by cases q <;> rfl

theorem pushRing_txie {q : Queue} {b : Byte} {n : Nat} (h : pushRing q b s = .next (n, t)) : t.txie = s.txie := by
  obtain ⟨r, rfl⟩ := pushRing_frame h
  exact setRing_txie s q r

theorem popRing_txie {q : Queue} {b : Byte} {ok : Bool} (h : popRing q s = .next (b, ok, t)) : t.txie = s.txie := by
  obtain ⟨r, d, rfl, -⟩ := popRing_frame h
  exact setRing_txie s q r

theorem txDuty_txie (h : txDuty s = .next t) : t.txie = decide (t.tx.occ ≠ 0) := by
  obtain ⟨_, _, _, _, rfl, -⟩ := txDuty_frame h
  rfl

/-- The receive duty of an invocation touches neither TXIE nor `tx`, so the value the transmit duty stored stands. -/
theorem execIhInvoke_txie (h : execIhInvoke s = .next t) : t.txie = decide (t.tx.occ ≠ 0) := by
  obtain ⟨-, -, s2, s3, htx, hrx, rfl⟩ := execIhInvoke_eq_next.1 h
  obtain ⟨_, _, _, _, _, rfl⟩ := rxDuty_frame hrx
  exact (txDuty_txie htx :)

theorem execPutChar_txie {sid b : Byte} (h : execPutChar sid b s = .next t) :
    t.txie = if s.fg.phase = .putArm then true else s.txie := by
  obtain ⟨-, -, ⟨hidle, -, hstep⟩ | ⟨hidle, -, rfl⟩ | ⟨harm, -, rfl⟩⟩ := execPutChar_eq_next.1 h
  · obtain ⟨n, s1, hpush, rfl⟩ := putCharPush_eq_next.1 hstep
    simpa [hidle] using pushRing_txie hpush
  · simp [hidle]
  · simp [harm]

theorem execGetChar_txie {sid : Byte} (h : execGetChar sid s = .next t) : t.txie = s.txie := by
  obtain ⟨-, -, -, ⟨-, b, ok, s1, hpop, ⟨-, rfl⟩ | ⟨-, rfl⟩⟩ | ⟨-, rfl⟩⟩ := execGetChar_eq_next.1 h
  · exact (popRing_txie hpop :)
  · exact (popRing_txie hpop :)
  · rfl

/-- Settles O43, operation by operation. -/
theorem txieHasTwoWriters : Obligations.TxieHasTwoWriters := by
  intro s t i h
  cases i with
  | version =>
    obtain ⟨-, -, -, rfl⟩ := execVersion_eq_next.1 h
    rfl
  | putChar sid b => exact execPutChar_txie h
  | getChar sid => exact execGetChar_txie h
  | charsAvailable sid =>
    obtain ⟨-, -, -, ⟨-, rfl⟩ | ⟨-, rfl⟩⟩ := execCharsAvailable_eq_next.1 h <;> rfl
  | invalidOp w =>
    obtain ⟨-, -, -, rfl⟩ := execInvalidOp_eq_next.1 h
    rfl
  | rbInit q =>
    obtain ⟨-, -, -, -, rfl⟩ := initRing_eq_next.1 h
    exact setRing_txie s q _
  | rbPush a q b =>
    obtain ⟨-, -, n, s1, hpush, rfl⟩ := execRbPush_eq_next.1 h
    exact (pushRing_txie hpush :)
  | rbPop a q =>
    obtain ⟨-, -, b, ok, s1, hpop, rfl⟩ := execRbPop_eq_next.1 h
    exact (popRing_txie hpop :)
  | rbUsed q =>
    obtain ⟨-, rfl⟩ := execRbUsed_eq_next.1 h
    rfl
  | rbFree q =>
    obtain ⟨-, rfl⟩ := execRbFree_eq_next.1 h
    rfl
  | ihInvoke => exact execIhInvoke_txie h
  | ihTxduty => exact txDuty_txie (execIhTxduty_eq_next.1 h).2
  | ihRxduty =>
    obtain ⟨_, _, _, _, _, rfl⟩ := rxDuty_frame (execIhRxduty_eq_next.1 h).2
    rfl

/-! ### The handshake -/

/-- A command word decodes to a command. -/
theorem decodeCommand_format (w : Word) : (decodeCommand w).format = .cg := by
  unfold decodeCommand
  split_ifs <;> rfl

theorem fetch_format {i : Instr} (h : fetch s = some i) : i.format = .cg := by
  obtain ⟨w, ws, -, rfl⟩ := fetch_eq_some.1 h
  exact decodeCommand_format w

/-- TXIE that says whether `tx` is non-empty is a handshake, whatever the foreground does. -/
theorem handshake_of_txie (h : t.txie = decide (t.tx.occ ≠ 0)) : Handshake t := fun _ hqueued => by
  rw [h, decide_eq_true hqueued]

/-- PUT_CHAR leaves IDLE with its push and comes back armed (R79). -/
theorem execPutChar_handshake {sid b : Byte} (hs : Handshake s) (h : execPutChar sid b s = .next t) :
    Handshake t := by
  obtain ⟨-, -, ⟨-, -, hstep⟩ | ⟨-, -, rfl⟩ | ⟨-, -, rfl⟩⟩ := execPutChar_eq_next.1 h
  · obtain ⟨n, s1, -, rfl⟩ := putCharPush_eq_next.1 hstep
    exact fun hidle => Phase.noConfusion hidle
  · exact hs
  · exact fun _ _ => rfl

/-- GET_CHAR pops from `rx`, which the handshake does not speak of. -/
theorem execGetChar_handshake {sid : Byte} (hs : Handshake s) (h : execGetChar sid s = .next t) : Handshake t := by
  obtain ⟨-, -, -, ⟨-, b, ok, s1, hpop, ⟨-, rfl⟩ | ⟨-, rfl⟩⟩ | ⟨-, rfl⟩⟩ := execGetChar_eq_next.1 h
  · obtain ⟨r, d, rfl, -⟩ := popRing_frame hpop
    exact hs
  · obtain ⟨r, d, rfl, -⟩ := popRing_frame hpop
    exact hs
  · exact hs

/-- The commands keep the handshake. -/
theorem exec_cg_handshake {i : Instr} (hi : i.format = .cg) (hs : Handshake s) (h : exec i s = .next t) :
    Handshake t := by
  cases i with
  | version =>
    obtain ⟨-, -, -, rfl⟩ := execVersion_eq_next.1 h
    exact hs
  | putChar sid b => exact execPutChar_handshake hs h
  | getChar sid => exact execGetChar_handshake hs h
  | charsAvailable sid =>
    obtain ⟨-, -, -, ⟨-, rfl⟩ | ⟨-, rfl⟩⟩ := execCharsAvailable_eq_next.1 h <;> exact hs
  | invalidOp w =>
    obtain ⟨-, -, -, rfl⟩ := execInvalidOp_eq_next.1 h
    exact hs
  | rbInit | rbPush | rbPop | rbUsed | rbFree | ihInvoke | ihTxduty | ihRxduty => cases hi

/-- The handler steps keep the handshake: the transmit duty restores it, the receive duty leaves it. -/
theorem exec_event_handshake {e : HandlerEvent} (hs : Handshake s) (h : exec (decodeEvent e) s = .next t) :
    Handshake t := by
  cases e with
  | invoke => exact handshake_of_txie (execIhInvoke_txie h)
  | txduty => exact handshake_of_txie (txDuty_txie (execIhTxduty_eq_next.1 h).2)
  | rxduty =>
    obtain ⟨_, _, _, _, _, rfl⟩ := rxDuty_frame (execIhRxduty_eq_next.1 h).2
    exact hs

theorem retire_handshake (hs : Handshake s) : Handshake (retire s) := by simpa [Handshake] using hs

theorem foregroundTurn_handshake (hs : Handshake s) (h : foregroundTurn s = .next t) : Handshake t := by
  obtain ⟨-, rfl⟩ | ⟨i, s1, hfetch, hexec, rfl⟩ := foregroundTurn_eq_next.1 h
  · exact hs
  · exact retire_handshake (exec_cg_handshake (fetch_format hfetch) hs hexec)

theorem eagerTurn_handshake (hs : Handshake s) (h : eagerTurn s = .next t) : Handshake t := by
  obtain ⟨-, -, hinvoke⟩ | ⟨-, hturn⟩ := eagerTurn_eq_next.1 h
  · exact handshake_of_txie (execIhInvoke_txie hinvoke)
  · exact foregroundTurn_handshake hs hturn

theorem envChange_handshake (e : EnvEvent) (hs : Handshake s) : Handshake (envChange e s) := by cases e <;> exact hs

/-- Under the role binding a turn keeps the handshake. -/
theorem runTurn_handshake {u : Turn} (hu : u.inContract = true) (hs : Handshake s) (h : runTurn u s = .next t) :
    Handshake t := by
  cases u with
  | fg => exact foregroundTurn_handshake hs h
  | event e => exact exec_event_handshake hs h
  | env e =>
    obtain rfl := Host.Outcome.next.inj h
    exact envChange_handshake e hs
  | port p => cases hu
  | reset => cases hu

theorem step_handshake (hroles : Roles s) (hs : Handshake s) (h : step s = .next t) : Handshake t := by
  obtain ⟨u, us, hsched, hturn⟩ | ⟨-, hturn⟩ := step_eq_next.1 h
  · have hu : u.inContract = true := hroles u (by simp [hsched])
    exact runTurn_handshake (s := { s with sched := us }) hu hs hturn
  · exact eagerTurn_handshake hs hturn

/-! ### The schedule -/

theorem foregroundTurn_sched (h : foregroundTurn s = .next t) : t.sched = s.sched := by
  obtain ⟨-, rfl⟩ | ⟨i, s1, -, hexec, rfl⟩ := foregroundTurn_eq_next.1 h
  · rfl
  · exact (retire_sched s1).trans (exec_sched hexec)

theorem portTurn_sched {p : PortSignal} (h : portTurn p s = .next t) : t.sched = s.sched := by
  obtain ⟨-, rfl⟩ | ⟨i, -, -, hexec⟩ := portTurn_eq_next.1 h
  · rfl
  · exact exec_sched hexec

theorem envChange_sched (e : EnvEvent) (s : State) : (envChange e s).sched = s.sched := by cases e <;> rfl

theorem resetBlock_sched (h : resetBlock s = .next t) : t.sched = s.sched := by
  obtain ⟨s1, s2, htx, hrx, rfl⟩ := resetBlock_eq_next.1 h
  obtain ⟨-, -, -, -, rfl⟩ := initRing_eq_next.1 htx
  obtain ⟨-, -, -, -, rfl⟩ := initRing_eq_next.1 hrx
  rfl

theorem runTurn_sched {u : Turn} (h : runTurn u s = .next t) : t.sched = s.sched := by
  cases u with
  | fg => exact foregroundTurn_sched h
  | event e => exact exec_sched h
  | env e =>
    obtain rfl := Host.Outcome.next.inj h
    exact envChange_sched e s
  | port p => exact portTurn_sched h
  | reset => exact resetBlock_sched h

theorem eagerTurn_sched (h : eagerTurn s = .next t) : t.sched = s.sched := by
  obtain ⟨-, -, hinvoke⟩ | ⟨-, hturn⟩ := eagerTurn_eq_next.1 h
  · exact exec_sched hinvoke
  · exact foregroundTurn_sched hturn

/-- A step uses up the turn it takes. -/
theorem step_sched (h : step s = .next t) : t.sched = s.sched.tail := by
  obtain ⟨u, us, hsched, hturn⟩ | ⟨hsched, hturn⟩ := step_eq_next.1 h
  · rw [hsched]
    exact (runTurn_sched hturn :)
  · rw [eagerTurn_sched hturn, hsched, List.tail_nil]

theorem step_roles (hroles : Roles s) (h : step s = .next t) : Roles t := fun u hu =>
  hroles u (List.mem_of_mem_tail (step_sched h ▸ hu))

/-- Every state reached from reset under the role binding keeps the handshake. -/
theorem reachable_handshake {n : Nat} {cmds : List Word} {sched : List Turn}
    (hsched : ∀ u ∈ sched, u.inContract = true) (h : run n (startState cmds sched) = .next t) : Handshake t := by
  have hroles : Roles (startState cmds sched) := hsched
  have hstart : Handshake (startState cmds sched) := fun _ hqueued => absurd rfl hqueued
  exact (run_induction (P := fun u => Roles u ∧ Handshake u)
    (fun _ _ ⟨hr, hs⟩ hstep => ⟨step_roles hr hstep, step_handshake hr hs hstep⟩) n _ t ⟨hroles, hstart⟩ h).2

/-- Settles O53. The converse of (ii) fails when an invocation falls between the two steps of a PUT_CHAR: it sends the
byte, and step 2 then arms an empty `tx`. -/
theorem handshakeInvariant : Obligations.HandshakeInvariant := by
  refine ⟨fun s t => execIhInvoke_txie, fun n cmds sched t hsched h => reachable_handshake hsched h,
    3, [0x00610002], [.fg, .event .invoke, .fg], ?_⟩
  exact ⟨_, by decide, rfl, rfl, rfl, rfl⟩

end Sys2Proof.Machine
end

section
/-! The command at the gate (R21, R75), the reset state (R25) and the reset event (R130). -/

namespace Sys2Proof.Machine

variable {s : State}

theorem fetch_of_cmds_cons {w : Word} {ws : List Word} (h : s.fg.cmds = w :: ws) :
    fetch s = some (decodeCommand w) :=
  fetch_eq_some.2 ⟨w, ws, h, rfl⟩

/-- With a word at the gate the foreground's turn runs the command it decodes to, and retires it. -/
theorem foregroundTurn_of_cmds_cons {w : Word} {ws : List Word} (h : s.fg.cmds = w :: ws) :
    foregroundTurn s = andThen (exec (decodeCommand w) s) fun t => .next (retire t) := by
  simp only [foregroundTurn, fetch_of_cmds_cons h]

/-- Settles O7: the turn is the command and then `retire`, and a stop of the command passes through. -/
theorem stepRunsTheDecodedCommand : Obligations.StepRunsTheDecodedCommand := by
  intro s w ws us hcmds hsched
  have hturn : step s = andThen (exec (decodeCommand w) { s with sched := us }) fun t => .next (retire t) :=
    (step_of_sched_cons hsched).trans (foregroundTurn_of_cmds_cons (s := { s with sched := us }) hcmds)
  rw [hturn]
  cases exec (decodeCommand w) { s with sched := us } <;> rfl

/-- Settles O11: each row of the table is a field of the reset state. -/
theorem resetStateHoldsTheTable : Obligations.ResetStateHoldsTheTable :=
  ⟨rfl, rfl, rfl, rfl, rfl, rfl, rfl, rfl, rfl, rfl, rfl, rfl, rfl⟩

/-- Settles O12: both rings can be initialised, one after the other, and then the line is reset. -/
theorem resetEventInitialisesTheBlock : Obligations.ResetEventInitialisesTheBlock := by
  intro s us hsched hreset htx hrx htxParams hrxParams
  rw [step_reset hsched]
  exact resetBlock_eq_next.2 ⟨_, _,
    initRing_eq_next.2 ⟨htx, hreset, htxParams.pos, htxParams.fits, rfl⟩,
    initRing_eq_next.2 ⟨hrx, hreset, hrxParams.pos, hrxParams.fits, rfl⟩, rfl⟩

end Sys2Proof.Machine
end

section
/-! Stale and never-written slots cannot be observed (R35, R14): a simulation between two states that differ only there,
one lemma for each operation. -/

namespace Sys2Proof.Machine

variable {s s' t : State}

/-! ### Twin rings -/

/-- Two rings with the invariants that differ only in slots outside the occupied region. -/
structure Ring.Twin (r r' : Ring) : Prop where
  inv : r.Inv
  inv' : r'.Inv
  same : r.SameButStale r'

/-- The oldest byte and the bytes behind it are the same in a twin. -/
theorem Ring.Twin.contents_cons {r r' : Ring} (h : r.Twin r') (ho : r.occ ≠ 0) :
    Memory.read r'.mem r'.rd :: r'.popped.contents = Memory.read r.mem r.rd :: r.popped.contents := by
  rw [← contents_popped h.inv ho, ← contents_popped h.inv' (h.same.occ ▸ ho), h.same.contents]

theorem Ring.Twin.nonEmpty {r r' : Ring} (h : r.Twin r') : r'.nonEmpty = r.nonEmpty := by
  rw [Ring.nonEmpty, Ring.nonEmpty, h.same.occ]

theorem Ring.Twin.popped {r r' : Ring} (h : r.Twin r') (ho : r.occ ≠ 0) : r.popped.Twin r'.popped where
  inv := popped_inv h.inv ho
  inv' := popped_inv h.inv' (h.same.occ ▸ ho)
  same := {
    cap := h.same.cap
    wr := h.same.wr
    rd := by simp [h.same.cap, h.same.rd]
    occ := by simp [h.same.occ]
    ready := h.same.ready
    contents := (List.cons.inj (h.contents_cons ho)).2 }

theorem Ring.Twin.pushed {r r' : Ring} (h : r.Twin r') (hroom : r.occ < r.cap) (b : Byte) :
    (r.pushed b).Twin (r'.pushed b) := by
  have hroom' : r'.occ < r'.cap := by rwa [h.same.occ, h.same.cap]
  exact {
    inv := pushed_inv h.inv hroom b
    inv' := pushed_inv h.inv' hroom' b
    same := {
      cap := h.same.cap
      wr := by simp [h.same.cap, h.same.wr]
      rd := h.same.rd
      occ := by simp [h.same.occ]
      ready := h.same.ready
      contents := by rw [contents_pushed h.inv hroom, contents_pushed h.inv' hroom', h.same.contents] } }

/-! ### Twin states -/

/-- Two states whose rings are twins and that agree in everything else. -/
inductive State.Twin (s : State) : State → Prop where
  | mk {a b : Ring} (tx : s.tx.Twin a) (rx : s.rx.Twin b) : State.Twin s { s with tx := a, rx := b }

theorem State.SameButStale.twin (h : s.SameButStale s') (hs : s.Inv) (hs' : s'.Inv) : s.Twin s' := by
  rw [h.rest]
  exact .mk ⟨hs.tx, hs'.tx, h.tx⟩ ⟨hs.rx, hs'.rx, h.rx⟩

theorem State.Twin.sameButStale (h : s.Twin s') : s.SameButStale s' := by
  obtain ⟨htx, hrx⟩ := h
  exact ⟨htx.same, hrx.same, rfl⟩

theorem State.Twin.ring (h : s.Twin s') (q : Queue) : (s.ring q).Twin (s'.ring q) := by
  obtain ⟨htx, hrx⟩ := h
  cases q
  · exact htx
  · exact hrx

theorem State.Twin.isReset (h : s.Twin s') : isReset s' = isReset s := by
  obtain ⟨htx, hrx⟩ := h
  rfl

theorem State.Twin.fg (h : s.Twin s') : s'.fg = s.fg := by
  obtain ⟨htx, hrx⟩ := h
  rfl

theorem State.Twin.setRing (h : s.Twin s') (q : Queue) {r r' : Ring} (hr : r.Twin r') :
    (s.setRing q r).Twin (s'.setRing q r') := by
  obtain ⟨htx, hrx⟩ := h
  cases q
  · exact .mk hr hrx
  · exact .mk htx hr

theorem State.Twin.draw8 (h : s.Twin s') : (draw8 s).2.Twin (draw8 s').2 := by
  obtain ⟨htx, hrx⟩ := h
  exact .mk htx hrx

/-- Twins take the same `f`: where one state answers, so does its twin, and the answers are twins again. -/
def TwinsAgree (f : State → Res State) : Prop :=
  ∀ ⦃s s' t : State⦄, s.Twin s' → f s = .next t → ∃ t', f s' = .next t' ∧ t.Twin t'

/-! ### The shared operations -/

theorem pushRing_twin {q : Queue} {b : Byte} {n : Nat} (hs : s.Twin s') (h : pushRing q b s = .next (n, t)) :
    ∃ t', pushRing q b s' = .next (n, t') ∧ t.Twin t' := by
  have hq := hs.ring q
  obtain ⟨hr, ⟨hfull, rfl, rfl⟩ | ⟨hroom, hwr, rfl, rfl⟩⟩ := pushRing_eq_next.1 h
  · exact ⟨s', pushRing_rejected (hs.isReset.trans hr) (by rw [hq.same.occ, hq.same.cap, hfull]), hs⟩
  · refine ⟨_, pushRing_eq_next.2 ⟨hs.isReset.trans hr, .inr ⟨?_, ?_, ?_, rfl⟩⟩,
      hs.setRing q (hq.pushed (lt_of_le_of_ne hq.inv.occ_le hroom) b)⟩
    · rwa [hq.same.occ, hq.same.cap]
    · rwa [hq.same.wr, hq.same.cap]
    · rw [hq.same.occ, hq.same.cap]

theorem popRing_twin {q : Queue} {b : Byte} {ok : Bool} (hs : s.Twin s') (h : popRing q s = .next (b, ok, t)) :
    ∃ t', popRing q s' = .next (b, ok, t') ∧ t.Twin t' := by
  have hq := hs.ring q
  have hdraws : s'.draws = s.draws := by obtain ⟨-, -⟩ := hs; rfl
  obtain ⟨hr, ⟨ho, hb, hok, rfl⟩ | ⟨ho, hrd, hok, hread⟩⟩ := popRing_eq_next.1 h
  · exact ⟨_, popRing_eq_next.2 ⟨hs.isReset.trans hr, .inl ⟨hq.same.occ.trans ho, hdraws ▸ hb, hok, rfl⟩⟩, hs.draw8⟩
  · obtain ⟨hhead, -⟩ := List.cons.inj (hq.contents_cons ho)
    obtain ⟨c, hc⟩ := head_written hq.inv ho
    obtain ⟨hb, rfl⟩ | ⟨hnone, -⟩ := hread
    · refine ⟨_, ?_, hs.setRing q (hq.popped ho)⟩
      rw [← hok]
      exact popRing_taken (hs.isReset.trans hr) (hq.same.occ ▸ ho) hq.inv'.rd_lt (hhead.trans hb)
    · exact absurd (hc.symm.trans hnone) (Option.some_ne_none c)

theorem envReadByte_twin {b : Byte} (hs : s.Twin s') (h : envReadByte s = .next (b, t)) :
    ∃ t', envReadByte s' = .next (b, t') ∧ t.Twin t' := by
  obtain ⟨htx, hrx⟩ := hs
  obtain ⟨rest, hrxq, rfl⟩ | ⟨hrxq, hendless, hb, rfl⟩ := envReadByte_eq_next.1 h
  · exact ⟨_, envReadByte_eq_next.2 (.inl ⟨rest, hrxq, rfl⟩), .mk htx hrx⟩
  · exact ⟨_, envReadByte_eq_next.2 (.inr ⟨hrxq, hendless, hb, rfl⟩), .mk htx hrx⟩

theorem txSend_twin : TwinsAgree txSend := by
  intro s s' t hs h
  have hocc : s'.tx.occ = s.tx.occ := (hs.ring .tx).same.occ
  have henv : s'.env = s.env := by obtain ⟨-, -⟩ := hs; rfl
  obtain ⟨hidle, rfl⟩ | ⟨ho, hw, b, ok, s1, hpop, rfl⟩ := txSend_eq_next.1 h
  · exact ⟨s', txSend_eq_next.2 (.inl ⟨by rwa [hocc, henv], rfl⟩), hs⟩
  · obtain ⟨s1', hpop', htx, hrx⟩ := popRing_twin hs hpop
    exact ⟨_, txSend_eq_next.2 (.inr ⟨hocc ▸ ho, henv ▸ hw, b, ok, _, hpop', rfl⟩), .mk htx hrx⟩

theorem txDuty_twin : TwinsAgree txDuty := by
  intro s s' t hs h
  obtain ⟨s1, hsend, rfl⟩ := txDuty_eq_next.1 h
  obtain ⟨s1', hsend', htwin⟩ := txSend_twin hs hsend
  refine ⟨_, txDuty_eq_next.2 ⟨s1', hsend', rfl⟩, ?_⟩
  have htxie : s1'.tx.nonEmpty = s1.tx.nonEmpty := (htwin.ring .tx).nonEmpty
  rw [htxie]
  obtain ⟨htx, hrx⟩ := htwin
  exact .mk htx hrx

theorem rxTake_twin : TwinsAgree rxTake := by
  intro s s' t hs h
  obtain ⟨b, s1, n, s2, hread, hpush, rfl⟩ := rxTake_eq_next.1 h
  obtain ⟨s1', hread', htwin⟩ := envReadByte_twin hs hread
  obtain ⟨s2', hpush', htx, hrx⟩ := pushRing_twin htwin hpush
  exact ⟨_, rxTake_eq_next.2 ⟨b, s1', n, _, hread', hpush', rfl⟩, .mk htx hrx⟩

theorem State.Twin.readable (h : s.Twin s') : envIsReadable s' = envIsReadable s := by
  obtain ⟨-, -⟩ := h
  rfl

theorem rxLoop_twin (n : Nat) : TwinsAgree (rxLoop n) := by
  induction n with
  | zero =>
    intro s s' t hs h
    rw [rxLoop] at h ⊢
    rw [hs.readable]
    split at h
    · cases h
    · obtain rfl := Host.Outcome.next.inj h
      exact ⟨s', if_neg ‹_›, hs⟩
  | succ n ih =>
    intro s s' t hs h
    rw [rxLoop] at h ⊢
    rw [hs.readable]
    split at h
    · obtain ⟨s1, htake, hrest⟩ := andThen_eq_next.1 h
      obtain ⟨s1', htake', htwin⟩ := rxTake_twin hs htake
      obtain ⟨t', hrest', ht⟩ := ih htwin hrest
      exact ⟨t', (if_pos ‹_›).trans (andThen_eq_next.2 ⟨s1', htake', hrest'⟩), ht⟩
    · obtain rfl := Host.Outcome.next.inj h
      exact ⟨s', if_neg ‹_›, hs⟩

theorem rxDuty_twin : TwinsAgree rxDuty := by
  intro s s' t hs h
  obtain ⟨hendless, hloop⟩ := rxDuty_eq_next.1 h
  obtain ⟨t', hloop', ht⟩ := rxLoop_twin _ hs hloop
  obtain ⟨htx, hrx⟩ := hs
  exact ⟨t', rxDuty_eq_next.2 ⟨hendless, hloop'⟩, ht⟩

/-! ### The meanings -/

theorem execPutChar_twin (sid b : Byte) : TwinsAgree (execPutChar sid b) := by
  intro s s' t hs h
  obtain ⟨hr, ha, ⟨hp, hv, hstep⟩ | ⟨hp, hv, rfl⟩ | ⟨hp, hv, rfl⟩⟩ := execPutChar_eq_next.1 h
  · obtain ⟨n, s1, hpush, rfl⟩ := putCharPush_eq_next.1 hstep
    obtain ⟨s1', hpush', h1tx, h1rx⟩ := pushRing_twin hs hpush
    obtain ⟨-, -⟩ := hs
    exact ⟨_, execPutChar_eq_next.2 ⟨hr, ha, .inl ⟨hp, hv, putCharPush_eq_next.2 ⟨n, _, hpush', rfl⟩⟩⟩,
      .mk h1tx h1rx⟩
  · obtain ⟨htx, hrx⟩ := hs
    exact ⟨_, execPutChar_eq_next.2 ⟨hr, ha, .inr (.inl ⟨hp, hv, rfl⟩)⟩, .mk htx hrx⟩
  · obtain ⟨htx, hrx⟩ := hs
    exact ⟨_, execPutChar_eq_next.2 ⟨hr, ha, .inr (.inr ⟨hp, hv, rfl⟩)⟩, .mk htx hrx⟩

theorem execGetChar_twin (sid : Byte) : TwinsAgree (execGetChar sid) := by
  intro s s' t hs h
  obtain ⟨hr, ha, hp, ⟨hv, b, ok, s1, hpop, hanswer⟩ | ⟨hv, rfl⟩⟩ := execGetChar_eq_next.1 h
  · obtain ⟨s1', hpop', h1tx, h1rx⟩ := popRing_twin hs hpop
    obtain ⟨-, -⟩ := hs
    obtain ⟨hok, rfl⟩ | ⟨hok, rfl⟩ := hanswer
    · exact ⟨_, execGetChar_eq_next.2 ⟨hr, ha, hp, .inl ⟨hv, b, ok, _, hpop', .inl ⟨hok, rfl⟩⟩⟩, .mk h1tx h1rx⟩
    · exact ⟨_, execGetChar_eq_next.2 ⟨hr, ha, hp, .inl ⟨hv, b, ok, _, hpop', .inr ⟨hok, rfl⟩⟩⟩, .mk h1tx h1rx⟩
  · obtain ⟨htx, hrx⟩ := hs
    exact ⟨_, execGetChar_eq_next.2 ⟨hr, ha, hp, .inr ⟨hv, rfl⟩⟩, .mk htx hrx⟩

theorem execCharsAvailable_twin (sid : Byte) : TwinsAgree (execCharsAvailable sid) := by
  intro s s' t hs h
  obtain ⟨htx, hrx⟩ := hs
  obtain ⟨hr, ha, hp, ⟨hv, rfl⟩ | ⟨hv, rfl⟩⟩ := execCharsAvailable_eq_next.1 h
  · refine ⟨_, execCharsAvailable_eq_next.2 ⟨hr, ha, hp, .inl ⟨hv, rfl⟩⟩, ?_⟩
    rw [hrx.same.occ]
    exact .mk htx hrx
  · exact ⟨_, execCharsAvailable_eq_next.2 ⟨hr, ha, hp, .inr ⟨hv, rfl⟩⟩, .mk htx hrx⟩

theorem execRbPush_twin (a : Agent) (q : Queue) (b : Byte) : TwinsAgree (execRbPush a q b) := by
  intro s s' t hs h
  obtain ⟨hrole, hruns, n, s1, hpush, rfl⟩ := execRbPush_eq_next.1 h
  obtain ⟨s1', hpush', h1tx, h1rx⟩ := pushRing_twin hs hpush
  obtain ⟨-, -⟩ := hs
  exact ⟨_, execRbPush_eq_next.2 ⟨hrole, hruns, n, _, hpush', rfl⟩, .mk h1tx h1rx⟩

theorem execRbPop_twin (a : Agent) (q : Queue) : TwinsAgree (execRbPop a q) := by
  intro s s' t hs h
  obtain ⟨hrole, hruns, b, ok, s1, hpop, rfl⟩ := execRbPop_eq_next.1 h
  obtain ⟨s1', hpop', h1tx, h1rx⟩ := popRing_twin hs hpop
  obtain ⟨-, -⟩ := hs
  exact ⟨_, execRbPop_eq_next.2 ⟨hrole, hruns, b, ok, _, hpop', rfl⟩, .mk h1tx h1rx⟩

theorem State.Twin.portReply (hs : s.Twin s') (p : PortReply) : (portReply p s).Twin (portReply p s') := by
  obtain ⟨htx, hrx⟩ := hs
  exact .mk htx hrx

theorem execRbUsed_twin (q : Queue) : TwinsAgree (execRbUsed q) := by
  intro s s' t hs h
  obtain ⟨hr, rfl⟩ := execRbUsed_eq_next.1 h
  refine ⟨_, execRbUsed_eq_next.2 ⟨hs.isReset.trans hr, rfl⟩, ?_⟩
  rw [(hs.ring q).same.occ]
  exact hs.portReply _

theorem execRbFree_twin (q : Queue) : TwinsAgree (execRbFree q) := by
  intro s s' t hs h
  obtain ⟨hr, rfl⟩ := execRbFree_eq_next.1 h
  refine ⟨_, execRbFree_eq_next.2 ⟨hs.isReset.trans hr, rfl⟩, ?_⟩
  rw [(hs.ring q).same.occ, (hs.ring q).same.cap]
  exact hs.portReply _

theorem execIhInvoke_twin : TwinsAgree execIhInvoke := by
  intro s s' t hs h
  obtain ⟨htx, hrx⟩ := hs
  obtain ⟨hr, ha, s2, s3, htxDuty, hrxDuty, rfl⟩ := execIhInvoke_eq_next.1 h
  have hentry : State.Twin { s with ih := { active := true } } _ := .mk htx hrx
  obtain ⟨s2', htxDuty', htwin⟩ := txDuty_twin hentry htxDuty
  obtain ⟨s3', hrxDuty', h3tx, h3rx⟩ := rxDuty_twin htwin hrxDuty
  exact ⟨_, execIhInvoke_eq_next.2 ⟨hr, ha, s2', _, htxDuty', hrxDuty', rfl⟩, .mk h3tx h3rx⟩

theorem exec_twin (i : Instr) : TwinsAgree (exec i) := by
  intro s s' t hs h
  cases i with
  | version =>
    obtain ⟨htx, hrx⟩ := hs
    obtain ⟨hr, ha, hp, rfl⟩ := execVersion_eq_next.1 h
    exact ⟨_, execVersion_eq_next.2 ⟨hr, ha, hp, rfl⟩, .mk htx hrx⟩
  | putChar sid b => exact execPutChar_twin sid b hs h
  | getChar sid => exact execGetChar_twin sid hs h
  | charsAvailable sid => exact execCharsAvailable_twin sid hs h
  | invalidOp w =>
    obtain ⟨htx, hrx⟩ := hs
    obtain ⟨hr, ha, hp, rfl⟩ := execInvalidOp_eq_next.1 h
    exact ⟨_, execInvalidOp_eq_next.2 ⟨hr, ha, hp, rfl⟩, .mk htx hrx⟩
  | rbInit q => exact absurd h (initRing_ne_next (hs.ring q).inv.ready)
  | rbPush a q b => exact execRbPush_twin a q b hs h
  | rbPop a q => exact execRbPop_twin a q hs h
  | rbUsed q => exact execRbUsed_twin q hs h
  | rbFree q => exact execRbFree_twin q hs h
  | ihInvoke => exact execIhInvoke_twin hs h
  | ihTxduty =>
    obtain ⟨hr, hduty⟩ := execIhTxduty_eq_next.1 h
    obtain ⟨t', hduty', ht⟩ := txDuty_twin hs hduty
    exact ⟨t', execIhTxduty_eq_next.2 ⟨hs.isReset.trans hr, hduty'⟩, ht⟩
  | ihRxduty =>
    obtain ⟨hr, hduty⟩ := execIhRxduty_eq_next.1 h
    obtain ⟨t', hduty', ht⟩ := rxDuty_twin hs hduty
    exact ⟨t', execIhRxduty_eq_next.2 ⟨hs.isReset.trans hr, hduty'⟩, ht⟩

/-! ### Turns and steps -/

theorem State.Twin.retire (h : s.Twin s') : (retire s).Twin (retire s') := by
  cases hp : s.fg.phase with
  | idle =>
    rw [retire_idle s hp, retire_idle s' (h.fg ▸ hp)]
    obtain ⟨htx, hrx⟩ := h
    exact .mk htx hrx
  | putArm => rwa [retire_putArm s hp, retire_putArm s' (h.fg ▸ hp)]

theorem foregroundTurn_twin : TwinsAgree foregroundTurn := by
  intro s s' t hs h
  obtain ⟨hnil, rfl⟩ | ⟨i, s1, hfetch, hexec, rfl⟩ := foregroundTurn_eq_next.1 h
  · exact ⟨s', foregroundTurn_eq_next.2 (.inl ⟨hs.fg ▸ hnil, rfl⟩), hs⟩
  · obtain ⟨s1', hexec', htwin⟩ := exec_twin _ hs hexec
    have hfetch' : fetch s' = some i := by rwa [fetch, hs.fg]
    exact ⟨_, foregroundTurn_eq_next.2 (.inr ⟨i, s1', hfetch', hexec', rfl⟩), htwin.retire⟩

theorem portTurn_twin (p : PortSignal) : TwinsAgree (portTurn p) := by
  intro s s' t hs h
  obtain ⟨herr, rfl⟩ | ⟨i, hdecode, hports, hexec⟩ := portTurn_eq_next.1 h
  · exact ⟨s', portTurn_eq_next.2 (.inl ⟨herr, rfl⟩), hs⟩
  · obtain ⟨t', hexec', ht⟩ := exec_twin _ hs hexec
    obtain ⟨-, -⟩ := hs
    exact ⟨t', portTurn_eq_next.2 (.inr ⟨i, hdecode, hports, hexec'⟩), ht⟩

theorem eagerTurn_twin : TwinsAgree eagerTurn := by
  intro s s' t hs h
  obtain ⟨hirq, ha, hinvoke⟩ | ⟨hidle, hturn⟩ := eagerTurn_eq_next.1 h
  · obtain ⟨t', hinvoke', ht⟩ := exec_twin _ hs hinvoke
    obtain ⟨-, -⟩ := hs
    exact ⟨t', eagerTurn_eq_next.2 (.inl ⟨hirq, ha, hinvoke'⟩), ht⟩
  · obtain ⟨t', hturn', ht⟩ := foregroundTurn_twin hs hturn
    obtain ⟨-, -⟩ := hs
    exact ⟨t', eagerTurn_eq_next.2 (.inr ⟨hidle, hturn'⟩), ht⟩

theorem State.Twin.envChange (e : EnvEvent) (h : s.Twin s') : (envChange e s).Twin (envChange e s') := by
  obtain ⟨htx, hrx⟩ := h
  cases e <;> exact .mk htx hrx

theorem runTurn_twin (u : Turn) : TwinsAgree (runTurn u) := by
  intro s s' t hs h
  cases u with
  | fg => exact foregroundTurn_twin hs h
  | event e => exact exec_twin _ hs h
  | env e =>
    obtain rfl := Host.Outcome.next.inj h
    exact ⟨_, rfl, hs.envChange e⟩
  | port p => exact portTurn_twin p hs h
  | reset => exact absurd h (resetBlock_ne_next (hs.ring .tx).inv.ready)

theorem step_twin : TwinsAgree step := by
  intro s s' t hs h
  obtain ⟨u, us, hsched, hturn⟩ | ⟨hsched, hturn⟩ := step_eq_next.1 h
  · obtain ⟨htx, hrx⟩ := hs
    have hpopped : State.Twin { s with sched := us } _ := .mk htx hrx
    obtain ⟨t', hturn', ht⟩ := runTurn_twin u hpopped hturn
    exact ⟨t', step_eq_next.2 (.inl ⟨u, us, hsched, hturn'⟩), ht⟩
  · obtain ⟨t', hturn', ht⟩ := eagerTurn_twin hs hturn
    obtain ⟨-, -⟩ := hs
    exact ⟨t', step_eq_next.2 (.inr ⟨hsched, hturn'⟩), ht⟩

/-- Settles O60, by the simulation: two states that differ only in stale slots are twins, and twins take the same
step. -/
theorem staleSlotsAreUnobservable : Obligations.StaleSlotsAreUnobservable := by
  intro s s' t hs hs' hsame h
  obtain ⟨t', hstep, htwin⟩ := step_twin (hsame.twin hs hs') h
  exact ⟨t', hstep, htwin.sameButStale⟩

end Sys2Proof.Machine
end

section
/-! The ring-buffer ports that give no answer: a driver outside the role binding (R71, U1) and an index outside the
storage (R31). -/

namespace Sys2Proof.Machine

variable {s : State} {q : Queue}

/-! ### The guards of a port -/

/-- Between invocations either agent may drive a port (R22). -/
theorem whenAgentRuns_of_inactive (a : Agent) (k : Res State) (ha : s.ih.active = false) : whenAgentRuns a s k = k := by
  rw [whenAgentRuns, if_neg (by simp [ha])]

theorem exec_rbPush_of_ne_producer {a : Agent} (h : a ≠ q.producer) (b : Byte) (s : State) :
    exec (.rbPush a q b) s = .refused (.roleViolation a q) :=
  if_neg h

theorem exec_rbPop_of_ne_consumer {a : Agent} (h : a ≠ q.consumer) (s : State) :
    exec (.rbPop a q) s = .refused (.roleViolation a q) :=
  if_neg h

/-- Driven by the producer between invocations, the port pushes and shows its answer. -/
theorem exec_rbPush_producer (b : Byte) (ha : s.ih.active = false) :
    exec (.rbPush q.producer q b) s =
      andThen (pushRing q b s) fun r => .next (portReply (.freeAfter q r.1) r.2) :=
  (if_pos rfl).trans (whenAgentRuns_of_inactive _ _ ha)

/-- Driven by the consumer between invocations, the port pops and shows its answer. -/
theorem exec_rbPop_consumer (ha : s.ih.active = false) :
    exec (.rbPop q.consumer q) s =
      andThen (popRing q s) fun r => .next (portReply (.popped q r.1 r.2.1) r.2.2) :=
  (if_pos rfl).trans (whenAgentRuns_of_inactive _ _ ha)

/-! ### Indices outside the storage -/

theorem pushRing_of_cap_le_wr (b : Byte) (hr : isReset s = true) (hf : (s.ring q).occ ≠ (s.ring q).cap)
    (hw : (s.ring q).cap ≤ (s.ring q).wr) : pushRing q b s = .fault (.indexOutOfRange q (s.ring q).wr) := by
  simp [pushRing, hr, hf, Nat.not_lt.2 hw]

theorem popRing_of_cap_le_rd (hr : isReset s = true) (ho : (s.ring q).occ ≠ 0) (hd : (s.ring q).cap ≤ (s.ring q).rd) :
    popRing q s = .fault (.indexOutOfRange q (s.ring q).rd) := by
  simp [popRing, hr, ho, Nat.not_lt.2 hd]

/-- Settles O21: the primitive faults on its own index, and a fault of the primitive is the port's. -/
theorem indexOutsideTheStorageFaults : Obligations.IndexOutsideTheStorageFaults := by
  intro q s hr ha
  refine ⟨fun hf hw b => ?_, fun ho hd => ?_⟩
  · rw [exec_rbPush_producer b ha, pushRing_of_cap_le_wr b hr hf hw, andThen_fault]
  · rw [exec_rbPop_consumer ha, popRing_of_cap_le_rd hr ho hd, andThen_fault]

/-- Settles O24: the driver is checked before anything else, so the refusal holds in every state. -/
theorem roleViolationIsRefused : Obligations.RoleViolationIsRefused := fun _ _ s =>
  ⟨fun h b => exec_rbPush_of_ne_producer h b s, fun h => exec_rbPop_of_ne_consumer h s⟩

end Sys2Proof.Machine
end

section
/-! The command decoder, operation by operation (R45, R47), and its words through the encoder (R48, R56). -/

namespace Sys2Proof

/-! ### The equations of the decoder -/

/-- The reserved space decodes to INVALID_OP (R47). -/
theorem decodeCommand_of_reservedWord {w : Word} (h : reservedWord w = true) : decodeCommand w = .invalidOp w := by
  unfold decodeCommand
  obtain hrsv | ⟨h0, h2, h3, h4⟩ := (reservedWord_iff w).1 h
  · rw [if_pos hrsv]
  · rw [if_neg h0, if_neg h2, if_neg h3, if_neg h4, ite_self]

theorem decodeCommand_version (data stream : Byte) : decodeCommand (commandWord 0 data stream 0) = .version := by
  simp [decodeCommand]

theorem decodeCommand_putChar (data stream : Byte) :
    decodeCommand (commandWord 0 data stream 2) = .putChar stream data := by
  simp [decodeCommand]

theorem decodeCommand_getChar (data stream : Byte) : decodeCommand (commandWord 0 data stream 3) = .getChar stream := by
  simp [decodeCommand]

theorem decodeCommand_charsAvailable (data stream : Byte) :
    decodeCommand (commandWord 0 data stream 4) = .charsAvailable stream := by
  simp [decodeCommand]

/-- A word outside the reserved space is a word of one of the four operations (R47). -/
theorem reservedWord_or_operation (w : Word) :
    reservedWord w = true ∨
      ∃ data stream op, w = commandWord 0 data stream op ∧ (op = 0 ∨ op = 2 ∨ op = 3 ∨ op = 4) := by
  rw [reservedWord_iff]
  by_cases hrsv : rsvField w = 0
  · by_cases hop : opField w = 0 ∨ opField w = 2 ∨ opField w = 3 ∨ opField w = 4
    · exact .inr ⟨dataField w, streamField w, opField w, by rw [← hrsv, commandWord_fields], hop⟩
    · exact .inl (.inr (by simpa only [not_or] using hop))
  · exact .inl (.inl hrsv)

/-! ### The fields as numbers -/

theorem rsvField_eq_zero_iff (w : Word) : rsvField w = 0 ↔ w.toNat / 2 ^ 24 = 0 := by
  rw [← rsvField_toNat, BitVec.toNat_eq]
  rfl

theorem opField_eq_iff (w : Word) (op : Byte) : opField w = op ↔ w.toNat % 2 ^ 8 = op.toNat := by
  rw [← opField_toNat, BitVec.toNat_eq]

theorem streamField_eq_ofNat (w : Word) : streamField w = BitVec.ofNat 8 (w.toNat / 2 ^ 8) := by
  rw [streamField, BitVec.extractLsb', Nat.shiftRight_eq_div_pow]

theorem dataField_eq_ofNat (w : Word) : dataField w = BitVec.ofNat 8 (w.toNat / 2 ^ 16) := by
  rw [dataField, BitVec.extractLsb', Nat.shiftRight_eq_div_pow]

/-- The reserved space as R47 and R78 list it. -/
theorem reservedWord_iff_toNat (w : Word) :
    reservedWord w = true ↔ w.toNat / 2 ^ 24 ≠ 0 ∨ w.toNat % 2 ^ 8 = 1 ∨ 5 ≤ w.toNat % 2 ^ 8 := by
  simp only [reservedWord_iff, ne_eq, rsvField_eq_zero_iff, opField_eq_iff, BitVec.reduceToNat]
  omega

/-- Settles O2: each test of the decoder, and each operand, is the same one on the number. -/
theorem commandDecodeReadsTheFields : Obligations.CommandDecodeReadsTheFields := by
  intro w
  simp only [decodeCommand, ne_eq, rsvField_eq_zero_iff, opField_eq_iff, streamField_eq_ofNat, dataField_eq_ofNat,
    BitVec.reduceToNat]

/-- Settles O5: the four operations by their fields, the other words by being reserved. -/
theorem vectorWordsDecode : Obligations.VectorWordsDecode :=
  ⟨decodeCommand_version 0 0, decodeCommand_version 0xAB 0x12,
    decodeCommand_putChar 0x61 0, decodeCommand_putChar 0 0, decodeCommand_putChar 0xFF 0, decodeCommand_putChar 0x61 1,
    decodeCommand_getChar 0 0, decodeCommand_getChar 0 7, decodeCommand_getChar 0x55 0,
    decodeCommand_charsAvailable 0 0, decodeCommand_charsAvailable 0 255,
    decodeCommand_of_reservedWord (by decide), decodeCommand_of_reservedWord (by decide),
    decodeCommand_of_reservedWord (by decide), decodeCommand_of_reservedWord (by decide),
    decodeCommand_of_reservedWord (by decide), decodeCommand_of_reservedWord (by decide)⟩

/-! ### Clearing the ignored fields -/

/-- The mask that clears DATA and keeps the rest. -/
theorem data_mask (w : Word) : w &&& 0xFF00FFFF = commandWord (rsvField w) 0 (streamField w) (opField w) := by
  conv_lhs => rw [← commandWord_fields w, show (0xFF00FFFF : Word) = commandWord 0xFF 0 0xFF 0xFF by decide,
    commandWord_and, and_ones, and_ones, and_ones]
  simp

/-- Settles O3: a reserved word is carried whole, and each operation's word loses what its mask clears. -/
theorem encodeClearsIgnoredFieldsOnly : Obligations.EncodeClearsIgnoredFieldsOnly := by
  intro w
  obtain hres | ⟨data, stream, op, rfl, rfl | rfl | rfl | rfl⟩ := reservedWord_or_operation w
  · simp only [decodeCommand_of_reservedWord hres, encode]
  · simp only [decodeCommand_version, encode, row_mask, rsvField_commandWord, opField_commandWord]
  · simp only [decodeCommand_putChar, encode]
  · simp only [decodeCommand_getChar, encode, data_mask, rsvField_commandWord, streamField_commandWord,
      opField_commandWord]
  · simp only [decodeCommand_charsAvailable, encode, data_mask, rsvField_commandWord, streamField_commandWord,
      opField_commandWord]

end Sys2Proof
end

section
/-! Decoding against encoding for every carrier (R53, R54, R56). -/

namespace Sys2Proof

/-! ### Push patterns -/

/-- A push pattern with a high strobe is the strobe above its byte. -/
theorem push_bits {bits : BitVec 9} (h : bits.extractLsb' 8 1 = 1#1) : 1#1 ++ bits.extractLsb' 0 8 = bits := by
  rw [← h]
  have happend : bits.extractLsb' 8 1 ++ bits.extractLsb' 0 8 = bits.extractLsb' 0 (1 + 8) :=
    BitVec.extractLsb'_append_extractLsb'_eq_extractLsb' rfl
  exact happend.trans BitVec.extractLsb'_eq_self

theorem push_toNat (b : Byte) : (1#1 ++ b).toNat = 2 ^ 8 + b.toNat := by
  rw [BitVec.toNat_append, ← Nat.shiftLeft_add_eq_or_of_lt b.isLt]
  rfl

theorem decodePort_push_high (a : Agent) (q : Queue) (b : Byte) :
    decodePort (.push a q (1#1 ++ b)) = .ok (.rbPush a q b) := by
  rw [decodePort, if_pos (push_strobe b), push_data]

/-- Settles O1, operation by operation. -/
theorem decodeUndoesEncode : Obligations.DecodeUndoesEncode := by
  intro i hwf
  cases i with
  | version => exact congrArg Except.ok (decodeCommand_version 0 0)
  | putChar sid b => exact congrArg Except.ok (decodeCommand_putChar b sid)
  | getChar sid => exact congrArg Except.ok (decodeCommand_getChar 0 sid)
  | charsAvailable sid => exact congrArg Except.ok (decodeCommand_charsAvailable 0 sid)
  | invalidOp w => exact congrArg Except.ok (decodeCommand_of_reservedWord hwf)
  | rbPush a q b => exact decodePort_push_high a q b
  | rbInit | rbPop | rbUsed | rbFree | ihInvoke | ihTxduty | ihRxduty => rfl

/-! ### What a carrier gives -/

/-- A port carries its operation whole: encoding what it decodes to gives the signal back. -/
theorem encode_of_decodePort {p : PortSignal} {i : Instr} (h : decodePort p = .ok i) : encode i = .port p := by
  cases p with
  | init q strobe =>
    simp only [decodePort] at h
    split at h
    next hstrobe =>
      cases h
      rw [encode, hstrobe]
    next => cases h
  | push a q bits =>
    simp only [decodePort] at h
    split at h
    next hstrobe =>
      cases h
      rw [encode, push_bits hstrobe]
    next => cases h
  | pop a q strobe =>
    simp only [decodePort] at h
    split at h
    next hstrobe =>
      cases h
      rw [encode, hstrobe]
    next => cases h
  | used q => cases h; rfl
  | free q => cases h; rfl

theorem encode_decodeEvent (e : HandlerEvent) : encode (decodeEvent e) = .event e := by cases e <;> rfl

/-- A port or an event is what its operation encodes to; a command word need not be (R48). -/
theorem encode_of_decode {x : Signal} {i : Instr} (h : decode x = .ok i) (hx : x.format ≠ .cg) : encode i = x := by
  cases x with
  | word w => exact absurd rfl hx
  | port p => exact encode_of_decodePort h
  | event e =>
    obtain rfl := Except.ok.inj h
    exact encode_decodeEvent e

theorem encode_format (i : Instr) : (encode i).format = i.format := by cases i <;> rfl

theorem decode_format {x : Signal} {i : Instr} (h : decode x = .ok i) : i.format = x.format := by
  cases x with
  | word w =>
    obtain rfl := Except.ok.inj h
    exact Machine.decodeCommand_format w
  | port p => rw [← encode_of_decodePort h, encode_format]
  | event e =>
    obtain rfl := Except.ok.inj h
    rw [← encode_decodeEvent e, encode_format]

/-- Settles O4: a push or a pop is no command, so its signal is its encoding. -/
theorem decodeRespectsTheCarrier : Obligations.DecodeRespectsTheCarrier := by
  intro x i h
  have hformat := decode_format h
  refine ⟨hformat, ?_, ?_⟩
  · rintro a q b rfl
    have hx : encode (.rbPush a q b) = x := encode_of_decode h (by rw [← hformat]; nofun)
    exact ⟨1#1 ++ b, hx.symm, push_toNat b⟩
  · rintro a q rfl
    have hx : encode (.rbPop a q) = x := encode_of_decode h (by rw [← hformat]; nofun)
    exact hx.symm

end Sys2Proof
end

section
/-! The turn of an event and of a port (R53, R54, R143), and the commands that fail closed (R76, R78). -/

namespace Sys2Proof.Machine

variable {s : State}

theorem portTurn_of_ok {p : PortSignal} {i : Instr} (h : decodePort p = .ok i) :
    portTurn p s = if s.portsOut = true then exec i s else .refused (.portAccess p) := by
  simp only [portTurn, h]

theorem portTurn_of_error {p : PortSignal} {e : DecodeRefusal} (h : decodePort p = .error e) :
    portTurn p s = .next s := by
  simp only [portTurn, h]

/-- Settles O8: the step is the turn at the head of the schedule. -/
theorem stepRunsTheDecodedSignal : Obligations.StepRunsTheDecodedSignal := by
  intro s us
  refine ⟨fun e i hsched hdec => ?_, fun p i hsched hdec => ?_, fun p e hsched hdec => ?_⟩
  · obtain rfl := Except.ok.inj hdec
    exact step_of_sched_cons hsched
  · exact (step_of_sched_cons hsched).trans (portTurn_of_ok hdec)
  · exact (step_of_sched_cons hsched).trans (portTurn_of_error hdec)

/-- Settles O28: such a word is reserved, and INVALID_OP only responds. -/
theorem invalidOpFailsClosed : Obligations.InvalidOpFailsClosed := by
  intro s w hs hw
  exact ⟨rfl, decodeCommand_of_reservedWord ((reservedWord_iff_toNat w).2 hw),
    execInvalidOp_eq_next.2 ⟨hs.reset, hs.inactive, hs.idle, rfl⟩⟩

/-- Stream 0 is the only one (R4). -/
theorem validStream_of_ne_zero {sid : Byte} (h : sid ≠ 0) : validStream sid = false := beq_eq_false_iff_ne.2 h

/-- Settles O29: each of the three commands tests its stream before anything else. -/
theorem invalidStreamFailsClosed : Obligations.InvalidStreamFailsClosed := by
  intro s sid b i hs hsid hi
  have hstream := validStream_of_ne_zero hsid
  refine ⟨rfl, ?_⟩
  obtain rfl | rfl | rfl := hi
  · exact execPutChar_eq_next.2 ⟨hs.reset, hs.inactive, .inr (.inl ⟨hs.idle, hstream, rfl⟩)⟩
  · exact execGetChar_eq_next.2 ⟨hs.reset, hs.inactive, hs.idle, .inr ⟨hstream, rfl⟩⟩
  · exact execCharsAvailable_eq_next.2 ⟨hs.reset, hs.inactive, hs.idle, .inr ⟨hstream, rfl⟩⟩

end Sys2Proof.Machine
end

section
/-! What the ring-buffer ports answer, operation by operation (R60 to R65). -/

namespace Sys2Proof.Machine

variable {s t : State} {q : Queue}

/-! ### From the primitive to the port -/

/-- Driven by its producer, a port gives what the push gives and shows its answer. -/
theorem exec_rbPush_of_push {b : Byte} {n : Nat} (hagent : q.producer = .fg → s.ih.active = false)
    (h : pushRing q b s = .next (n, t)) :
    exec (.rbPush q.producer q b) s = .next (portReply (.freeAfter q n) t) :=
  execRbPush_eq_next.2 ⟨rfl, fun ⟨hfg, hactive⟩ => by simp [hagent hfg] at hactive, n, t, h, rfl⟩

/-- Driven by its consumer, a port gives what the pop gives and shows its answer. -/
theorem exec_rbPop_of_pop {b : Byte} {ok : Bool} (hagent : q.consumer = .fg → s.ih.active = false)
    (h : popRing q s = .next (b, ok, t)) :
    exec (.rbPop q.consumer q) s = .next (portReply (.popped q b ok) t) :=
  execRbPop_eq_next.2 ⟨rfl, fun ⟨hfg, hactive⟩ => by simp [hagent hfg] at hactive, b, ok, t, h, rfl⟩

/-- A port's answer goes to the trace of the ports, whatever ring was stored before. -/
theorem portReply_setRing (s : State) (q : Queue) (r : Ring) (p : PortReply) :
    portReply p (s.setRing q r) =
      { s.setRing q r with obs := { s.obs with ports := s.obs.ports ++ [p] } } := by cases q <;> rfl

/-- A pop of a slot never written takes a free byte (log 4). -/
theorem popRing_unwritten (hr : isReset s = true) (ho : (s.ring q).occ ≠ 0) (hd : (s.ring q).rd < (s.ring q).cap)
    (hm : Memory.read (s.ring q).mem (s.ring q).rd = none) :
    popRing q s = .next (Config.unspecified8 s.draws, true, (draw8 s).2.setRing q (s.ring q).popped) :=
  popRing_eq_next.2 ⟨hr, .inr ⟨ho, hd, rfl, .inr ⟨hm, rfl, rfl⟩⟩⟩

/-! ### The operations -/

/-- Settles O14: the cleared registers are an empty queue, and the queries of a block in operation read them. -/
theorem rbInitEmptiesTheQueue : Obligations.RbInitEmptiesTheQueue := by
  intro q s hreset hready hparams
  refine ⟨_, initRing_eq_next.2 ⟨hready, hreset, hparams.pos, hparams.fits, rfl⟩, rfl, ?_, fun u hu hring => ?_⟩
  · exact contents_eq_nil (by rw [setRing_ring, cleared_occ])
  · rw [setRing_ring] at hring
    exact ⟨usedRing_eq_next.2 ⟨hu, by rw [hring, cleared_occ]⟩,
      freeRing_eq_next.2 ⟨hu, by rw [hring, cleared_occ, cleared_cap, Nat.sub_zero]⟩⟩

/-- Settles O16: it is the accepted push, shown at the port. -/
theorem rbPushStoresTheByte : Obligations.RbPushStoresTheByte := by
  intro q b s hr hagent hroom hwr
  rw [exec_rbPush_of_push hagent (pushRing_accepted hr (Nat.ne_of_lt hroom) hwr), portReply_setRing]
  rfl

/-- Settles O17: it is the rejected push, shown at the port. -/
theorem rbPushDropsOnFull : Obligations.RbPushDropsOnFull :=
  fun _ _ _ hr hagent hfull => exec_rbPush_of_push hagent (pushRing_rejected hr hfull)

/-- Settles O19: it is the pop of a written slot, shown at the port. -/
theorem rbPopTakesTheByte : Obligations.RbPopTakesTheByte := by
  intro q b s hr hagent ho hrd hread
  rw [exec_rbPop_of_pop hagent (popRing_taken hr ho hrd hread), portReply_setRing]
  rfl

/-- Settles O20: the empty pop only draws, and the pop of a slot never written draws and advances. -/
theorem rbPopDrawsUnspecifiedBytes : Obligations.RbPopDrawsUnspecifiedBytes := by
  intro q s hr hagent
  refine ⟨fun ho => exec_rbPop_of_pop hagent (popRing_empty hr ho), fun ho hrd hread => ?_⟩
  rw [exec_rbPop_of_pop hagent (popRing_unwritten hr ho hrd hread)]
  cases q <;> rfl

/-- Settles O22: below `C - 1` the successor is itself a remainder, and the successor of `C - 1` is `C`. -/
theorem advanceWrapsAtTheCapacity : Obligations.AdvanceWrapsAtTheCapacity := by
  intro C i hi
  refine ⟨rfl, fun hbelow => Nat.mod_eq_of_lt (by omega), fun hlast => ?_, Nat.mod_lt _ (by omega)⟩
  have hsucc : i + 1 = C := by omega
  rw [advance, hsucc, Nat.mod_self]

/-- Settles O23: either query answers a register and only shows it at the port (R53). -/
theorem usedAndFreeAreQueries : Obligations.UsedAndFreeAreQueries :=
  fun _ _ hr => ⟨execRbUsed_eq_next.2 ⟨hr, rfl⟩, execRbFree_eq_next.2 ⟨hr, rfl⟩⟩

end Sys2Proof.Machine
end

section
/-! Sequences of operations on one ring buffer (R67, R69). -/

namespace Sys2Proof.Machine

variable {s t : State} {q : Queue}

/-! ### One operation -/

/-- A push keeps the invariants of its ring. -/
theorem pushRing_ring_inv {b : Byte} {n : Nat} (hs : (s.ring q).Inv) (h : pushRing q b s = .next (n, t)) :
    (t.ring q).Inv := by
  obtain ⟨-, ⟨-, -, rfl⟩ | ⟨hroom, -, -, rfl⟩⟩ := pushRing_eq_next.1 h
  · exact hs
  · rw [setRing_ring]
    exact pushed_inv hs (lt_of_le_of_ne hs.occ_le hroom) b

/-- A pop of a ring with the invariants is empty and only draws, or takes the oldest byte. -/
theorem popRing_of_inv {b : Byte} {ok : Bool} (hs : (s.ring q).Inv) (h : popRing q s = .next (b, ok, t)) :
    ((s.ring q).occ = 0 ∧ ok = false ∧ t = (draw8 s).2) ∨
    ((s.ring q).occ ≠ 0 ∧ ok = true ∧ (s.ring q).contents = some b :: (s.ring q).popped.contents ∧
      t = s.setRing q (s.ring q).popped) := by
  obtain ⟨-, ⟨ho, -, rfl, rfl⟩ | ⟨ho, -, rfl, ⟨hread, rfl⟩ | ⟨hread, -, -⟩⟩⟩ := popRing_eq_next.1 h
  · exact .inl ⟨ho, rfl, rfl⟩
  · exact .inr ⟨ho, rfl, hread ▸ contents_popped hs ho, rfl⟩
  · obtain ⟨c, hc⟩ := head_written hs ho
    simp [hc] at hread

theorem draw8_ring (s : State) (q : Queue) : (draw8 s).2.ring q = s.ring q := by cases q <;> rfl

theorem popRing_ring_inv {b : Byte} {ok : Bool} (hs : (s.ring q).Inv) (h : popRing q s = .next (b, ok, t)) :
    (t.ring q).Inv := by
  obtain ⟨-, -, rfl⟩ | ⟨ho, -, -, rfl⟩ := popRing_of_inv hs h
  · rw [draw8_ring]
    exact hs
  · rw [setRing_ring]
    exact popped_inv hs ho

theorem portReply_ring (p : PortReply) (s : State) (q : Queue) : (portReply p s).ring q = s.ring q := by
  cases q <;> rfl

/-- No operation changes the capacity of either ring. -/
theorem exec_ring_cap {i : Instr} (h : exec i s = .next t) (q : Queue) : (t.ring q).cap = (s.ring q).cap := by
  obtain ⟨htx, hrx⟩ := caps_eq_iff.1 (exec_caps h)
  cases q
  · exact htx
  · exact hrx

/-- What holds between the operations on one ring buffer: the block is in operation and the ring has its invariants. -/
structure InService (q : Queue) (s : State) : Prop where
  reset : isReset s = true
  ring : (s.ring q).Inv

theorem exec_portOp_inService {op : PortOp} (hs : InService q s) (h : exec (op.instr q) s = .next t) :
    InService q t := by
  refine ⟨(exec_inOperation h).trans hs.reset, ?_⟩
  cases op with
  | push b =>
    obtain ⟨-, -, n, s1, hpush, rfl⟩ := execRbPush_eq_next.1 h
    rw [portReply_ring]
    exact pushRing_ring_inv hs.ring hpush
  | pop =>
    obtain ⟨-, -, b, ok, s1, hpop, rfl⟩ := execRbPop_eq_next.1 h
    rw [portReply_ring]
    exact popRing_ring_inv hs.ring hpop
  | used =>
    obtain ⟨-, rfl⟩ := execRbUsed_eq_next.1 h
    rw [portReply_ring]
    exact hs.ring
  | free =>
    obtain ⟨-, rfl⟩ := execRbFree_eq_next.1 h
    rw [portReply_ring]
    exact hs.ring

/-! ### Sequences: the capacity -/

theorem runInstrs_cons_eq_next {i : Instr} {is : List Instr} :
    runInstrs (i :: is) s = .next t ↔ ∃ s1, exec i s = .next s1 ∧ runInstrs is s1 = .next t := andThen_eq_next

theorem runInstrs_inService (ops : List PortOp) :
    ∀ s : State, InService q s → runInstrs (ops.map (PortOp.instr q)) s = .next t →
      InService q t ∧ (t.ring q).cap = (s.ring q).cap := by
  induction ops with
  | nil =>
    rintro s hs ⟨⟩
    exact ⟨hs, rfl⟩
  | cons op ops ih =>
    intro s hs h
    obtain ⟨s1, hop, hops⟩ := runInstrs_cons_eq_next.1 h
    obtain ⟨ht, hcap⟩ := ih s1 (exec_portOp_inService hs hop) hops
    exact ⟨ht, hcap.trans (exec_ring_cap hop q)⟩

/-- Settles O25: the occupancy stays within the capacity, which no operation changes. -/
theorem usedPlusFreeIsCapacity : Obligations.UsedPlusFreeIsCapacity := by
  intro q ops s t hr hinv h
  obtain ⟨ht, hcap⟩ := runInstrs_inService ops s ⟨hr, hinv⟩ h
  refine ⟨_, _, usedRing_eq_next.2 ⟨ht.reset, rfl⟩, freeRing_eq_next.2 ⟨ht.reset, rfl⟩, ?_, hcap⟩
  rw [Nat.add_sub_cancel' ht.ring.occ_le, hcap]

/-! ### Sequences: the bounded list -/

/-- The queue of `t` holds `p.1`, and its ports have answered `p.2` since `s`. -/
def Simulates (q : Queue) (s t : State) (p : List Byte × List Answer) : Prop :=
  (t.ring q).contents = p.1.map some ∧
    ∃ rs, t.obs.ports = s.obs.ports ++ rs ∧ rs.map PortReply.answer = p.2

/-- What one operation leaves in the ring and shows at the port is what a bounded list leaves and answers. -/
theorem simulates_portReply {u : State} {l : List Byte} {r : PortReply} (hu : u.obs = s.obs)
    (hl : (u.ring q).contents = l.map some) : Simulates q s (portReply r u) (l, [r.answer]) :=
  ⟨by rw [portReply_ring, hl], [r], by rw [portReply_obs, hu], rfl⟩

theorem setRing_obs (s : State) (q : Queue) (r : Ring) : (s.setRing q r).obs = s.obs := by cases q <;> rfl

theorem length_of_contents {r : Ring} {l : List Byte} (hl : r.contents = l.map some) : l.length = r.occ := by
  rw [← contents_length, hl, List.length_map]

/-- A push appends to the list when there is room, and is dropped when there is none (R61). -/
theorem exec_push_simulates {l : List Byte} (b : Byte) (hs : InService q s) (ha : s.ih.active = false)
    (hl : (s.ring q).contents = l.map some) :
    ∃ t, exec ((PortOp.push b).instr q) s = .next t ∧
      Simulates q s t ((listStep (s.ring q).cap l (.push b)).1, [(listStep (s.ring q).cap l (.push b)).2]) := by
  have hlen := length_of_contents hl
  by_cases hroom : (s.ring q).occ < (s.ring q).cap
  · refine ⟨_, exec_rbPush_of_push (fun _ => ha) (pushRing_accepted hs.reset (Nat.ne_of_lt hroom) hs.ring.wr_lt), ?_⟩
    simp only [listStep, hlen, if_pos hroom]
    refine simulates_portReply (setRing_obs s q _) ?_
    rw [setRing_ring, contents_pushed hs.ring hroom, hl, List.map_append, List.map_singleton]
  · have hfull : (s.ring q).occ = (s.ring q).cap := le_antisymm hs.ring.occ_le (Nat.not_lt.1 hroom)
    refine ⟨_, exec_rbPush_of_push (fun _ => ha) (pushRing_rejected hs.reset hfull), ?_⟩
    simp only [listStep, hlen, if_neg hroom]
    exact simulates_portReply rfl hl

/-- A pop takes the head of the list, if there is one (R62). -/
theorem exec_pop_simulates {l : List Byte} (hs : InService q s) (ha : s.ih.active = false)
    (hl : (s.ring q).contents = l.map some) :
    ∃ t, exec (PortOp.pop.instr q) s = .next t ∧
      Simulates q s t ((listStep (s.ring q).cap l .pop).1, [(listStep (s.ring q).cap l .pop).2]) := by
  have hlen := length_of_contents hl
  cases l with
  | nil =>
    refine ⟨_, exec_rbPop_of_pop (fun _ => ha) (popRing_empty hs.reset hlen.symm), ?_⟩
    exact simulates_portReply rfl ((congrArg Ring.contents (draw8_ring s q)).trans hl)
  | cons b rest =>
    have ho : (s.ring q).occ ≠ 0 := by simp [← hlen]
    have hhead := contents_popped hs.ring ho
    rw [hl, List.map_cons, List.cons.injEq] at hhead
    obtain ⟨hread, hrest⟩ := hhead
    refine ⟨_, exec_rbPop_of_pop (fun _ => ha) (popRing_taken hs.reset ho hs.ring.rd_lt hread.symm), ?_⟩
    refine simulates_portReply (setRing_obs s q _) ?_
    rw [setRing_ring, ← hrest]
    rfl

/-- Each operation completes and does to the contents what it does to a bounded list. -/
theorem exec_portOp_simulates {l : List Byte} (op : PortOp) (hs : InService q s) (ha : s.ih.active = false)
    (hl : (s.ring q).contents = l.map some) :
    ∃ t, exec (op.instr q) s = .next t ∧
      Simulates q s t ((listStep (s.ring q).cap l op).1, [(listStep (s.ring q).cap l op).2]) := by
  have hlen := length_of_contents hl
  cases op with
  | push b => exact exec_push_simulates b hs ha hl
  | pop => exact exec_pop_simulates hs ha hl
  | used =>
    refine ⟨_, execRbUsed_eq_next.2 ⟨hs.reset, rfl⟩, ?_⟩
    simp only [listStep, hlen]
    exact simulates_portReply rfl hl
  | free =>
    refine ⟨_, execRbFree_eq_next.2 ⟨hs.reset, rfl⟩, ?_⟩
    simp only [listStep, hlen]
    exact simulates_portReply rfl hl

theorem runInstrs_simulates (ops : List PortOp) :
    ∀ (l : List Byte) (s : State), InService q s → s.ih.active = false → (s.ring q).contents = l.map some →
      ∃ t, runInstrs (ops.map (PortOp.instr q)) s = .next t ∧ Simulates q s t (listRun (s.ring q).cap l ops) := by
  induction ops with
  | nil => exact fun l s _ _ hl => ⟨s, rfl, hl, [], (List.append_nil _).symm, rfl⟩
  | cons op ops ih =>
    intro l s hs ha hl
    obtain ⟨s1, hop, hl1, rs1, hports1, hans1⟩ := exec_portOp_simulates op hs ha hl
    obtain ⟨t, hops, hlt, rs2, hports2, hans2⟩ :=
      ih _ s1 (exec_portOp_inService hs hop) ((exec_active hop).trans ha) hl1
    rw [exec_ring_cap hop q] at hlt hans2
    refine ⟨t, runInstrs_cons_eq_next.2 ⟨s1, hop, hops⟩, hlt, rs1 ++ rs2, ?_, ?_⟩
    · rw [hports2, hports1, List.append_assoc]
    · rw [List.map_append, hans1, hans2]
      rfl

/-- Settles O26, by induction over the operations. -/
theorem queueRefinesBoundedList : Obligations.QueueRefinesBoundedList := by
  refine ⟨fun q s t h => ?_, fun q ops l s hr hinv ha hl => ?_⟩
  · obtain ⟨-, -, -, -, rfl⟩ := initRing_eq_next.1 h
    exact contents_eq_nil (by rw [setRing_ring, cleared_occ])
  · obtain ⟨t, hrun, hlist, rs, hports, hanswers⟩ := runInstrs_simulates ops l s ⟨hr, hinv⟩ ha hl
    exact ⟨t, rs, hrun, hlist, hports, hanswers⟩

end Sys2Proof.Machine
end

section
/-! The two contexts (R118): what belongs to the handler and no command writes, and what belongs to the foreground and no
handler step writes. -/

namespace Sys2Proof.Machine

variable {s t : State}

/-! ### Commands -/

/-- What belongs to the interrupt context (R84, R71), but for TXIE, which both contexts write (R16). -/
structure HandlerSide where
  txRd : Nat
  rxWr : Nat
  rxMem : List Host.Cell
  rxie : Bool
  txcount : Word
  rxcount : Word
  ih : Handler
  env : Env
  wireTx : List Byte
  wireRx : List Byte

/-- An equation `t.handlerSide = s.handlerSide` says that nothing of the handler's changed. -/
def State.handlerSide (s : State) : HandlerSide where
  txRd := s.tx.rd
  rxWr := s.rx.wr
  rxMem := s.rx.mem
  rxie := s.rxie
  txcount := s.txcount
  rxcount := s.rxcount
  ih := s.ih
  env := s.env
  wireTx := s.obs.wireTx
  wireRx := s.obs.wireRx

/-- A push into `tx` writes the foreground's end of it only. -/
theorem pushRing_tx_handlerSide {b : Byte} {n : Nat} (h : pushRing .tx b s = .next (n, t)) :
    t.handlerSide = s.handlerSide := by
  obtain ⟨-, ⟨-, -, rfl⟩ | ⟨-, -, -, rfl⟩⟩ := pushRing_eq_next.1 h <;> rfl

/-- A pop from `rx` writes the foreground's end of it only. -/
theorem popRing_rx_handlerSide {b : Byte} {ok : Bool} (h : popRing .rx s = .next (b, ok, t)) :
    t.handlerSide = s.handlerSide := by
  obtain ⟨-, ⟨-, -, -, rfl⟩ | ⟨-, -, -, ⟨-, rfl⟩ | ⟨-, -, rfl⟩⟩⟩ := popRing_eq_next.1 h <;> rfl

theorem exec_cg_handlerSide {i : Instr} (hi : i.format = .cg) (h : exec i s = .next t) :
    t.handlerSide = s.handlerSide := by
  cases i with
  | version =>
    obtain ⟨-, -, -, rfl⟩ := execVersion_eq_next.1 h
    rfl
  | putChar sid b =>
    obtain ⟨-, -, ⟨-, -, hstep⟩ | ⟨-, -, rfl⟩ | ⟨-, -, rfl⟩⟩ := execPutChar_eq_next.1 h
    · obtain ⟨n, s1, hpush, rfl⟩ := putCharPush_eq_next.1 hstep
      exact (pushRing_tx_handlerSide hpush :)
    · rfl
    · rfl
  | getChar sid =>
    obtain ⟨-, -, -, ⟨-, b, ok, s1, hpop, ⟨-, rfl⟩ | ⟨-, rfl⟩⟩ | ⟨-, rfl⟩⟩ := execGetChar_eq_next.1 h
    · exact (popRing_rx_handlerSide hpop :)
    · exact (popRing_rx_handlerSide hpop :)
    · rfl
  | charsAvailable sid =>
    obtain ⟨-, -, -, ⟨-, rfl⟩ | ⟨-, rfl⟩⟩ := execCharsAvailable_eq_next.1 h <;> rfl
  | invalidOp w =>
    obtain ⟨-, -, -, rfl⟩ := execInvalidOp_eq_next.1 h
    rfl
  | rbInit | rbPush | rbPop | rbUsed | rbFree | ihInvoke | ihTxduty | ihRxduty => cases hi

/-- A command sets TXIE or leaves it (R79). -/
theorem exec_cg_txie {i : Instr} (hi : i.format = .cg) (h : exec i s = .next t) (harmed : s.txie = true) :
    t.txie = true := by
  have htxie := txieHasTwoWriters s t i h
  cases i with
  | putChar sid b => simpa [harmed] using htxie
  | version | getChar | charsAvailable | invalidOp => exact htxie.trans harmed
  | rbInit | rbPush | rbPop | rbUsed | rbFree | ihInvoke | ihTxduty | ihRxduty => cases hi

/-! ### Handler steps -/

/-- What belongs to the foreground (R84, R71), and RXIE, which no context writes (R17). -/
structure ForegroundSide where
  txWr : Nat
  txMem : List Host.Cell
  rxRd : Nat
  fg : Foreground
  rxie : Bool
  replies : List Reply

/-- An equation `t.foregroundSide = s.foregroundSide` says that nothing of the foreground's changed. -/
def State.foregroundSide (s : State) : ForegroundSide where
  txWr := s.tx.wr
  txMem := s.tx.mem
  rxRd := s.rx.rd
  fg := s.fg
  rxie := s.rxie
  replies := s.obs.replies

/-- A pop from `tx` writes the handler's end of it only. -/
theorem popRing_tx_foregroundSide {b : Byte} {ok : Bool} (h : popRing .tx s = .next (b, ok, t)) :
    t.foregroundSide = s.foregroundSide := by
  obtain ⟨-, ⟨-, -, -, rfl⟩ | ⟨-, -, -, ⟨-, rfl⟩ | ⟨-, -, rfl⟩⟩⟩ := popRing_eq_next.1 h <;> rfl

/-- A push into `rx` writes the handler's end of it only. -/
theorem pushRing_rx_foregroundSide {b : Byte} {n : Nat} (h : pushRing .rx b s = .next (n, t)) :
    t.foregroundSide = s.foregroundSide := by
  obtain ⟨-, ⟨-, -, rfl⟩ | ⟨-, -, -, rfl⟩⟩ := pushRing_eq_next.1 h <;> rfl

theorem txDuty_foregroundSide (h : txDuty s = .next t) : t.foregroundSide = s.foregroundSide := by
  obtain ⟨s1, hsend, rfl⟩ := txDuty_eq_next.1 h
  obtain ⟨-, rfl⟩ | ⟨-, -, b, ok, s2, hpop, rfl⟩ := txSend_eq_next.1 hsend
  · rfl
  · exact (popRing_tx_foregroundSide hpop :)

theorem rxTake_foregroundSide (h : rxTake s = .next t) : t.foregroundSide = s.foregroundSide := by
  obtain ⟨b, s1, n, s2, hread, hpush, rfl⟩ := rxTake_eq_next.1 h
  obtain ⟨e, d, rfl⟩ := envReadByte_frame hread
  exact (pushRing_rx_foregroundSide hpush :)

/-- What every round of the receive loop keeps, the receive duty keeps. -/
theorem rxDuty_induction {P : State → Prop} (htake : ∀ u v, P u → rxTake u = .next v → P v) (hs : P s)
    (h : rxDuty s = .next t) : P t :=
  (rxLoop_induction htake _ s t hs (rxDuty_eq_next.1 h).2).1

/-- What entry and return, the transmit duty and a round of the receive loop keep, every handler step keeps. -/
theorem exec_event_induction {P : State → Prop} {i : Instr} (hi : i.format = .event)
    (hactive : ∀ u a, P u → P { u with ih := { active := a } }) (htx : ∀ u v, P u → txDuty u = .next v → P v)
    (hrx : ∀ u v, P u → rxTake u = .next v → P v) (hs : P s) (h : exec i s = .next t) : P t := by
  cases i with
  | ihInvoke =>
    obtain ⟨-, -, s2, s3, hsend, hread, rfl⟩ := execIhInvoke_eq_next.1 h
    exact hactive s3 false (rxDuty_induction hrx (htx _ s2 (hactive s true hs) hsend) hread)
  | ihTxduty => exact htx s t hs (execIhTxduty_eq_next.1 h).2
  | ihRxduty => exact rxDuty_induction hrx hs (execIhRxduty_eq_next.1 h).2
  | version | putChar | getChar | charsAvailable | invalidOp | rbInit | rbPush | rbPop | rbUsed | rbFree => cases hi

theorem exec_event_foregroundSide {i : Instr} (hi : i.format = .event) (h : exec i s = .next t) :
    t.foregroundSide = s.foregroundSide :=
  exec_event_induction (P := fun u => u.foregroundSide = s.foregroundSide) hi (fun _ _ hu => hu)
    (fun _ _ hu hduty => (txDuty_foregroundSide hduty).trans hu)
    (fun _ _ hu htake => (rxTake_foregroundSide htake).trans hu) rfl h

/-- Settles O46: each side, field by field. -/
theorem contextsKeepToTheirOwnState : Obligations.ContextsKeepToTheirOwnState := by
  intro s t i h
  refine ⟨fun hi => ?_, fun hi => ?_⟩
  · obtain ⟨htxRd, hrxWr, hrxMem, hrxie, htxcount, hrxcount, hih, henv, hwireTx, hwireRx⟩ :=
      HandlerSide.mk.inj (exec_cg_handlerSide hi h)
    exact ⟨htxRd, hrxWr, hrxMem, exec_cg_txie hi h, hrxie, htxcount, hrxcount, hih, henv, hwireTx, hwireRx⟩
  · exact ForegroundSide.mk.inj (exec_event_foregroundSide hi h)

end Sys2Proof.Machine
end

section
/-! A step under the role binding (R71): what it leaves in the two queues (R63, R81), and the command in flight (R79). -/

namespace Sys2Proof.Machine

variable {s t : State}

/-! ### The turns -/

/-- The state once the turn at the head of the schedule, if there is one, has been taken off. -/
def State.turnTaken (s : State) : State := { s with sched := s.sched.tail }

theorem turnTaken_of_nil (h : s.sched = []) : s.turnTaken = s := by
  rw [State.turnTaken, h, List.tail_nil, ← h]

theorem decodeEvent_format (e : HandlerEvent) : (decodeEvent e).format = .event := by cases e <;> rfl

/-- Under the role binding a step is the foreground's, the handler's or ENV's. -/
theorem step_of_roles (hroles : Roles s) (h : step s = .next t) :
    foregroundTurn s.turnTaken = .next t ∨ (∃ i, i.format = .event ∧ exec i s.turnTaken = .next t) ∨
      ∃ e, envChange e s.turnTaken = t := by
  obtain ⟨u, us, hsched, hturn⟩ | ⟨hsched, hturn⟩ := step_eq_next.1 h
  · have hu : u.inContract = true := hroles u (by simp [hsched])
    have htaken : s.turnTaken = { s with sched := us } := by rw [State.turnTaken, hsched, List.tail_cons]
    rw [htaken]
    cases u with
    | fg => exact .inl hturn
    | event e => exact .inr (.inl ⟨_, decodeEvent_format e, hturn⟩)
    | env e => exact .inr (.inr ⟨e, Host.Outcome.next.inj hturn⟩)
    | port p => cases hu
    | reset => cases hu
  · rw [turnTaken_of_nil hsched]
    obtain ⟨-, -, hinvoke⟩ | ⟨-, hfg⟩ := eagerTurn_eq_next.1 hturn
    · exact .inr (.inl ⟨.ihInvoke, rfl, hinvoke⟩)
    · exact .inl hfg

/-! ### What a command does to the queues -/

/-- The only valid stream is 0 (R4). -/
theorem eq_zero_of_validStream {sid : Byte} (h : validStream sid = true) : sid = 0 := beq_iff_eq.1 h

/-- A command pushes into `tx` in the first step of a PUT_CHAR, or leaves `tx` alone and responds. -/
theorem exec_cg_tx {i : Instr} (hi : i.format = .cg) (h : exec i s = .next t) :
    (∃ b n s1, i = .putChar 0 b ∧ s.fg.phase = .idle ∧ pushRing .tx b s = .next (n, s1) ∧
      t = { s1 with fg := { s1.fg with phase := .putArm, pend := countWord n } }) ∨
    (t.fg.phase = .idle ∧ t.tx = s.tx) := by
  cases i with
  | version =>
    obtain ⟨-, -, hidle, rfl⟩ := execVersion_eq_next.1 h
    exact .inr ⟨hidle, rfl⟩
  | putChar sid b =>
    obtain ⟨-, -, ⟨hidle, hsid, hstep⟩ | ⟨hidle, -, rfl⟩ | ⟨-, -, rfl⟩⟩ := execPutChar_eq_next.1 h
    · obtain ⟨n, s1, hpush, rfl⟩ := putCharPush_eq_next.1 hstep
      obtain rfl := eq_zero_of_validStream hsid
      exact .inl ⟨b, n, s1, rfl, hidle, hpush, rfl⟩
    · exact .inr ⟨hidle, rfl⟩
    · exact .inr ⟨rfl, rfl⟩
  | getChar sid =>
    obtain ⟨-, -, hidle, ⟨-, b, ok, s1, hpop, hresponse⟩ | ⟨-, rfl⟩⟩ := execGetChar_eq_next.1 h
    · obtain ⟨r, d, rfl, -⟩ := popRing_frame hpop
      obtain ⟨-, rfl⟩ | ⟨-, rfl⟩ := hresponse <;> exact .inr ⟨hidle, rfl⟩
    · exact .inr ⟨hidle, rfl⟩
  | charsAvailable sid =>
    obtain ⟨-, -, hidle, ⟨-, rfl⟩ | ⟨-, rfl⟩⟩ := execCharsAvailable_eq_next.1 h <;> exact .inr ⟨hidle, rfl⟩
  | invalidOp w =>
    obtain ⟨-, -, hidle, rfl⟩ := execInvalidOp_eq_next.1 h
    exact .inr ⟨hidle, rfl⟩
  | rbInit | rbPush | rbPop | rbUsed | rbFree | ihInvoke | ihTxduty | ihRxduty => cases hi

/-- A response appended to the trace that gives the foreground no byte leaves what it has received. -/
theorem received_of_append {p : Reply} (hreplies : t.obs.replies = s.obs.replies ++ [p]) (hp : p.gotByte = none) :
    received t = received s := by
  simp [received, hreplies, hp]

/-- A command pops from `rx` in a GET_CHAR that answers OK with the byte, or leaves `rx` and what was received alone. -/
theorem exec_cg_rx {i : Instr} (hi : i.format = .cg) (h : exec i s = .next t) :
    (∃ sid b s1, popRing .rx s = .next (b, true, s1) ∧ t = respond (.getChar sid) .ok (byteWord b) s1) ∨
    (t.rx = s.rx ∧ received t = received s) := by
  cases i with
  | version =>
    obtain ⟨-, -, -, rfl⟩ := execVersion_eq_next.1 h
    exact .inr ⟨rfl, received_of_append rfl rfl⟩
  | putChar sid b =>
    obtain ⟨-, -, ⟨-, -, hstep⟩ | ⟨-, -, rfl⟩ | ⟨-, -, rfl⟩⟩ := execPutChar_eq_next.1 h
    · obtain ⟨n, s1, hpush, rfl⟩ := putCharPush_eq_next.1 hstep
      obtain ⟨r, rfl⟩ := pushRing_frame hpush
      exact .inr ⟨rfl, rfl⟩
    · exact .inr ⟨rfl, received_of_append rfl rfl⟩
    · exact .inr ⟨rfl, received_of_append rfl rfl⟩
  | getChar sid =>
    obtain ⟨-, -, -, ⟨-, b, ok, s1, hpop, ⟨rfl, rfl⟩ | ⟨rfl, rfl⟩⟩ | ⟨-, rfl⟩⟩ := execGetChar_eq_next.1 h
    · exact .inl ⟨sid, b, s1, hpop, rfl⟩
    · obtain ⟨-, ⟨-, -, -, rfl⟩ | ⟨-, -, hok, -⟩⟩ := popRing_eq_next.1 hpop
      · exact .inr ⟨rfl, received_of_append rfl rfl⟩
      · cases hok
    · exact .inr ⟨rfl, received_of_append rfl rfl⟩
  | charsAvailable sid =>
    obtain ⟨-, -, -, ⟨-, rfl⟩ | ⟨-, rfl⟩⟩ := execCharsAvailable_eq_next.1 h <;>
      exact .inr ⟨rfl, received_of_append rfl rfl⟩
  | invalidOp w =>
    obtain ⟨-, -, -, rfl⟩ := execInvalidOp_eq_next.1 h
    exact .inr ⟨rfl, received_of_append rfl rfl⟩
  | rbInit | rbPush | rbPop | rbUsed | rbFree | ihInvoke | ihTxduty | ihRxduty => cases hi

/-! ### What a handler step does to the queues -/

theorem txDuty_occ (h : txDuty s = .next t) : t.tx.occ ≤ s.tx.occ := by
  obtain ⟨s1, hsend, rfl⟩ := txDuty_eq_next.1 h
  obtain ⟨-, rfl⟩ | ⟨-, -, b, ok, s2, hpop, rfl⟩ := txSend_eq_next.1 hsend
  · exact le_rfl
  · obtain ⟨-, ⟨-, -, -, rfl⟩ | ⟨-, -, -, ⟨-, rfl⟩ | ⟨-, -, rfl⟩⟩⟩ := popRing_eq_next.1 hpop
    · exact le_rfl
    · exact Nat.sub_le _ _
    · exact Nat.sub_le _ _

theorem txDuty_rx (h : txDuty s = .next t) : t.rx = s.rx := by
  obtain ⟨r, d, c, w, rfl, -⟩ := txDuty_frame h
  rfl

theorem rxTake_tx (h : rxTake s = .next t) : t.tx = s.tx := by
  obtain ⟨r, e, d, c, w, rfl⟩ := rxTake_frame h
  rfl

theorem rxTake_occ (h : rxTake s = .next t) : s.rx.occ ≤ t.rx.occ := by
  obtain ⟨b, s1, n, s2, hread, hpush, rfl⟩ := rxTake_eq_next.1 h
  obtain ⟨e, d, rfl⟩ := envReadByte_frame hread
  obtain ⟨-, ⟨-, -, rfl⟩ | ⟨-, -, -, rfl⟩⟩ := pushRing_eq_next.1 hpush
  · exact le_rfl
  · exact Nat.le_succ _

/-- A handler step leaves `tx` no fuller and `rx` no emptier. -/
theorem exec_event_occ {i : Instr} (hi : i.format = .event) (h : exec i s = .next t) :
    t.tx.occ ≤ s.tx.occ ∧ s.rx.occ ≤ t.rx.occ :=
  exec_event_induction (P := fun u => u.tx.occ ≤ s.tx.occ ∧ s.rx.occ ≤ u.rx.occ) hi (fun _ _ hu => hu)
    (fun _ _ ⟨htx, hrx⟩ hduty => ⟨(txDuty_occ hduty).trans htx, by rwa [txDuty_rx hduty]⟩)
    (fun _ _ ⟨htx, hrx⟩ htake => ⟨by rwa [rxTake_tx htake], hrx.trans (rxTake_occ htake)⟩) ⟨le_rfl, le_rfl⟩ h

/-! ### Staleness -/

theorem foregroundTurn_tx_occ (h : foregroundTurn s = .next t) :
    t.tx.occ ≤ s.tx.occ ∨ (s.fg.phase = .idle ∧ t.fg.phase = .putArm ∧ t.tx.occ = s.tx.occ + 1) := by
  obtain ⟨-, rfl⟩ | ⟨i, s1, hfetch, hexec, rfl⟩ := foregroundTurn_eq_next.1 h
  · exact .inl le_rfl
  · rw [retire_tx, retire_phase]
    obtain ⟨b, n, s2, -, hidle, hpush, rfl⟩ | ⟨-, htx⟩ := exec_cg_tx (fetch_format hfetch) hexec
    · obtain ⟨-, ⟨-, -, rfl⟩ | ⟨-, -, -, rfl⟩⟩ := pushRing_eq_next.1 hpush
      · exact .inl le_rfl
      · exact .inr ⟨hidle, rfl, rfl⟩
    · exact .inl (le_of_eq (congrArg Ring.occ htx))

theorem foregroundTurn_rx_occ (hs : s.rx.Inv) (h : foregroundTurn s = .next t) :
    s.rx.occ ≤ t.rx.occ ∨ (t.rx.occ + 1 = s.rx.occ ∧
      ∃ sid r, t.obs.replies = s.obs.replies ++ [{ cmd := .getChar sid, stat := .ok, res := r }]) := by
  obtain ⟨-, rfl⟩ | ⟨i, s1, hfetch, hexec, rfl⟩ := foregroundTurn_eq_next.1 h
  · exact .inl le_rfl
  · rw [retire_rx, retire_obs]
    obtain ⟨sid, b, s2, hpop, rfl⟩ | ⟨hrx, -⟩ := exec_cg_rx (fetch_format hfetch) hexec
    · obtain ⟨-, hok, -⟩ | ⟨ho, -, -, rfl⟩ := popRing_of_inv (q := .rx) hs hpop
      · cases hok
      · exact .inr ⟨Nat.sub_add_cancel (Nat.pos_of_ne_zero ho), sid, _, rfl⟩
    · exact .inl (le_of_eq (congrArg Ring.occ hrx.symm))

theorem envChange_tx (e : EnvEvent) (s : State) : (envChange e s).tx = s.tx := by cases e <;> rfl

theorem envChange_rx (e : EnvEvent) (s : State) : (envChange e s).rx = s.rx := by cases e <;> rfl

/-- Settles O45: only the foreground fills `tx` and empties `rx`, by one byte a step. -/
theorem countsGoStaleOnTheSafeSide : Obligations.CountsGoStaleOnTheSafeSide := by
  intro s t hs hroles h
  obtain hfg | ⟨i, hi, hexec⟩ | ⟨e, rfl⟩ := step_of_roles hroles h
  · exact ⟨(foregroundTurn_tx_occ hfg :), (foregroundTurn_rx_occ (s := s.turnTaken) hs.rx hfg :)⟩
  · exact (exec_event_occ hi hexec).imp .inl .inl
  · rw [envChange_tx, envChange_rx]
    exact ⟨.inl le_rfl, .inl le_rfl⟩

end Sys2Proof.Machine
end

section
/-! End-to-end order (R68, R100): what has entered a queue grows only at its end, by bytes of its producer. -/

namespace Sys2Proof.Machine

variable {s t u : State}

theorem turnTaken_inv (hs : s.Inv) : s.turnTaken.Inv := { hs with }

/-- What relates the two ends of every step from a state with the invariants and under the role binding, and composes,
relates the two ends of a run. -/
theorem run_of_steps {R : State → State → Prop} (hrefl : ∀ u, R u u) (htrans : ∀ u v w, R u v → R v w → R u w)
    (hstep : ∀ u v, u.Inv → Roles u → step u = .next v → R u v) (n : Nat) (hs : s.Inv) (hroles : Roles s)
    (h : run n s = .next t) : R s t :=
  (run_induction (P := fun u => u.Inv ∧ Roles u ∧ R s u)
    (fun u v ⟨hu, hr, hrel⟩ h1 =>
      ⟨everyStepKeepsTheInvariant u v hu h1, step_roles hr h1, htrans s u v hrel (hstep u v hu hr h1)⟩)
    n s t ⟨hs, hroles, hrefl s⟩ h).2.2

/-! ### Transmit -/

/-- From `s` to `t` the transmit history grows at its end, by bytes that the program of `s` had still to push. -/
def TxGrows (s t : State) : Prop :=
  ∃ accepted : List Byte,
    txHistory t = txHistory s ++ accepted.map some ∧ (accepted ++ unpushed t).Sublist (unpushed s)

theorem TxGrows.refl (s : State) : TxGrows s s := ⟨[], (List.append_nil _).symm, List.Sublist.refl _⟩

theorem TxGrows.trans (h : TxGrows s t) (h' : TxGrows t u) : TxGrows s u := by
  obtain ⟨a, hhist, hsub⟩ := h
  obtain ⟨a', hhist', hsub'⟩ := h'
  refine ⟨a ++ a', by rw [hhist', hhist, List.map_append, List.append_assoc], ?_⟩
  rw [List.append_assoc]
  exact ((List.Sublist.refl a).append hsub').trans hsub

/-- The commands after the one at the gate are all still to be pushed. -/
theorem tail_sublist_unpushed (s : State) : (s.fg.cmds.tail.filterMap putByte).Sublist (unpushed s) := by
  unfold unpushed
  cases s.fg.phase with
  | idle => exact (List.tail_sublist _).filterMap _
  | putArm => exact List.Sublist.refl _

/-- A PUT_CHAR at the gate has its byte still to push, until it has pushed it (R79). -/
theorem unpushed_of_fetch_putChar {b : Byte} (hidle : s.fg.phase = .idle) (h : fetch s = some (.putChar 0 b)) :
    unpushed s = b :: s.fg.cmds.tail.filterMap putByte := by
  obtain ⟨w, ws, hcmds, hdec⟩ := fetch_eq_some.1 h
  have hw : putByte w = some b := by simp [putByte, hdec, validStream]
  simp only [unpushed, hidle, hcmds, List.filterMap_cons, hw, List.tail_cons]

/-- Once the command at the gate has done its push or has left, the commands after it are what is still to be pushed. -/
theorem unpushed_retire (hcmds : t.fg.cmds = s.fg.cmds) : unpushed (retire t) = s.fg.cmds.tail.filterMap putByte := by
  cases hphase : t.fg.phase with
  | idle => simp only [retire_idle t hphase, unpushed, hphase, hcmds]
  | putArm => simp only [retire_putArm t hphase, unpushed, hphase, hcmds]

theorem txHistory_congr (hwire : t.obs.wireTx = s.obs.wireTx) (htx : t.tx = s.tx) : txHistory t = txHistory s := by
  rw [txHistory, txHistory, hwire, htx]

/-- A command appends its byte to the history, if it is a PUT_CHAR that finds room (R61). -/
theorem foregroundTurn_txGrows (hs : s.Inv) (h : foregroundTurn s = .next t) : TxGrows s t := by
  obtain ⟨-, rfl⟩ | ⟨i, s1, hfetch, hexec, rfl⟩ := foregroundTurn_eq_next.1 h
  · exact .refl s
  · have hi := fetch_format hfetch
    have hcmds : s1.fg.cmds = s.fg.cmds := congrArg Fixed.cmds (exec_fixed hexec)
    have hwire : s1.obs.wireTx = s.obs.wireTx := congrArg HandlerSide.wireTx (exec_cg_handlerSide hi hexec)
    have hhist : txHistory (retire s1) = txHistory s1 := txHistory_congr (by rw [retire_obs]) (retire_tx s1)
    obtain ⟨b, n, s2, rfl, hidle, hpush, rfl⟩ | ⟨-, htx⟩ := exec_cg_tx hi hexec
    · obtain ⟨-, ⟨-, -, rfl⟩ | ⟨hroom, -, -, rfl⟩⟩ := pushRing_eq_next.1 hpush
      · refine ⟨[], hhist.trans (List.append_nil _).symm, ?_⟩
        rw [unpushed_retire hcmds]
        exact tail_sublist_unpushed s
      · refine ⟨[b], hhist.trans ?_, ?_⟩
        · have hcontents := contents_pushed hs.tx (lt_of_le_of_ne hs.tx.occ_le hroom) b
          exact (congrArg (s.obs.wireTx.map some ++ ·) hcontents).trans (List.append_assoc _ _ _).symm
        · rw [unpushed_retire hcmds, unpushed_of_fetch_putChar hidle hfetch]
          exact List.Sublist.refl _
    · refine ⟨[], (hhist.trans (txHistory_congr hwire htx)).trans (List.append_nil _).symm, ?_⟩
      rw [unpushed_retire hcmds]
      exact tail_sublist_unpushed s

/-- The byte that the transmit duty sends moves from the head of the queue to the end of the wire (R91). -/
theorem txDuty_txHistory (hs : s.tx.Inv) (h : txDuty s = .next t) : txHistory t = txHistory s := by
  obtain ⟨s1, hsend, rfl⟩ := txDuty_eq_next.1 h
  obtain ⟨-, rfl⟩ | ⟨ho, -, b, ok, s2, hpop, rfl⟩ := txSend_eq_next.1 hsend
  · rfl
  · obtain ⟨hempty, -, -⟩ | ⟨-, -, hcontents, rfl⟩ := popRing_of_inv (q := .tx) hs hpop
    · exact absurd hempty ho
    · rw [ring_tx] at hcontents
      simp [txHistory, hcontents]

theorem rxTake_txHistory (h : rxTake s = .next t) : txHistory t = txHistory s := by
  obtain ⟨r, e, d, c, w, rfl⟩ := rxTake_frame h
  rfl

theorem exec_event_txHistory {i : Instr} (hi : i.format = .event) (hs : s.Inv) (h : exec i s = .next t) :
    txHistory t = txHistory s :=
  (exec_event_induction (P := fun u => u.Ledger ∧ txHistory u = txHistory s) hi
    (fun _ _ ⟨hu, hhist⟩ => ⟨{ hu with }, hhist⟩)
    (fun _ _ ⟨hu, hhist⟩ hduty => ⟨txDuty_ledger hu hduty, (txDuty_txHistory hu.tx hduty).trans hhist⟩)
    (fun _ _ ⟨hu, hhist⟩ htake => ⟨rxTake_ledger hu htake, (rxTake_txHistory htake).trans hhist⟩)
    ⟨hs.ledger, rfl⟩ h).2

/-- A handler step leaves the foreground's program and phase alone. -/
theorem exec_event_fg {i : Instr} (hi : i.format = .event) (h : exec i s = .next t) : t.fg = s.fg :=
  congrArg ForegroundSide.fg (exec_event_foregroundSide hi h)

theorem unpushed_congr (h : t.fg = s.fg) : unpushed t = unpushed s := by rw [unpushed, unpushed, h]

theorem step_txGrows (hs : s.Inv) (hroles : Roles s) (h : step s = .next t) : TxGrows s t := by
  obtain hfg | ⟨i, hi, hexec⟩ | ⟨e, rfl⟩ := step_of_roles hroles h
  · exact (foregroundTurn_txGrows (turnTaken_inv hs) hfg :)
  · have hfg : t.fg = s.fg := (exec_event_fg hi hexec :)
    refine ⟨[], (exec_event_txHistory hi (turnTaken_inv hs) hexec).trans (List.append_nil _).symm, ?_⟩
    rw [List.nil_append, unpushed_congr hfg]
  · cases e <;> exact .refl s

/-- Settles O56: every step of the run lets the history grow, and growing composes. In PUT_ARM no command
pushes, whichever is at the gate, so the premise on the one in flight is not needed. -/
theorem transmitEndToEndOrder : Obligations.TransmitEndToEndOrder := by
  intro n s t hs _ hroles h
  exact run_of_steps (R := TxGrows) .refl (fun _ _ _ => .trans) (fun _ _ => step_txGrows) n hs hroles h

/-! ### Receive -/

/-- From `s` to `t` the receive history grows at its end, by bytes read from the hardware in between. -/
def RxGrows (s t : State) : Prop :=
  ∃ accepted read : List Byte,
    rxHistory t = rxHistory s ++ accepted.map some ∧ t.obs.wireRx = s.obs.wireRx ++ read ∧ accepted.Sublist read

theorem rxGrows_of_eq (hhist : rxHistory t = rxHistory s) (hwire : t.obs.wireRx = s.obs.wireRx) : RxGrows s t :=
  ⟨[], [], hhist.trans (List.append_nil _).symm, hwire.trans (List.append_nil _).symm, List.Sublist.refl _⟩

theorem RxGrows.refl (s : State) : RxGrows s s := rxGrows_of_eq rfl rfl

theorem RxGrows.trans (h : RxGrows s t) (h' : RxGrows t u) : RxGrows s u := by
  obtain ⟨a, r, hhist, hwire, hsub⟩ := h
  obtain ⟨a', r', hhist', hwire', hsub'⟩ := h'
  refine ⟨a ++ a', r ++ r', ?_, ?_, hsub.append hsub'⟩
  · rw [hhist', hhist, List.map_append, List.append_assoc]
  · rw [hwire', hwire, List.append_assoc]

theorem rxHistory_congr (hreceived : received t = received s) (hrx : t.rx = s.rx) : rxHistory t = rxHistory s := by
  rw [rxHistory, rxHistory, hreceived, hrx]

/-- A byte is read back from the result value that carries it (R51). -/
theorem extract_byteWord (b : Byte) : (byteWord b).extractLsb' 0 8 = b := by
  rw [byteWord, BitVec.zeroExtend, BitVec.extractLsb'_setWidth_of_le (by decide), BitVec.extractLsb'_eq_self]

/-- The response that delivers a byte adds it to what the foreground has received (R80). -/
theorem received_getChar (sid b : Byte) (s : State) :
    received (respond (.getChar sid) .ok (byteWord b) s) = received s ++ [b] := by
  simp [received, Reply.gotByte, extract_byteWord]

/-- A command leaves the receive history as it is: the byte a GET_CHAR delivers was the oldest of the queue. -/
theorem exec_cg_rxHistory {i : Instr} (hi : i.format = .cg) (hs : s.rx.Inv) (h : exec i s = .next t) :
    rxHistory t = rxHistory s := by
  obtain ⟨sid, b, s1, hpop, rfl⟩ | ⟨hrx, hreceived⟩ := exec_cg_rx hi h
  · obtain ⟨-, hok, -⟩ | ⟨-, -, hcontents, rfl⟩ := popRing_of_inv (q := .rx) hs hpop
    · cases hok
    · rw [ring_rx] at hcontents
      have hsame : received (s.setRing .rx s.rx.popped) = received s := rfl
      simp [rxHistory, received_getChar, hcontents, hsame]
  · exact rxHistory_congr hreceived hrx

theorem foregroundTurn_rxGrows (hs : s.Inv) (h : foregroundTurn s = .next t) : RxGrows s t := by
  obtain ⟨-, rfl⟩ | ⟨i, s1, hfetch, hexec, rfl⟩ := foregroundTurn_eq_next.1 h
  · exact .refl s
  · have hi := fetch_format hfetch
    have hretired : rxHistory (retire s1) = rxHistory s1 :=
      rxHistory_congr (by rw [received, received, retire_obs]) (retire_rx s1)
    refine rxGrows_of_eq (hretired.trans (exec_cg_rxHistory hi hs.rx hexec)) ?_
    rw [retire_obs]
    exact congrArg HandlerSide.wireRx (exec_cg_handlerSide hi hexec)

/-- A round of the receive loop appends the byte it reads, or drops it when `rx` is full (R92, R70). -/
theorem rxTake_rxGrows (hs : s.rx.Inv) (h : rxTake s = .next t) : RxGrows s t := by
  obtain ⟨b, s1, n, s2, hread, hpush, rfl⟩ := rxTake_eq_next.1 h
  obtain ⟨e, d, rfl⟩ := envReadByte_frame hread
  obtain ⟨-, ⟨-, -, rfl⟩ | ⟨hroom, -, -, rfl⟩⟩ := pushRing_eq_next.1 hpush
  · exact ⟨[], [b], (List.append_nil _).symm, rfl, List.nil_sublist _⟩
  · have hcontents := contents_pushed hs (lt_of_le_of_ne hs.occ_le hroom) b
    refine ⟨[b], [b], ?_, rfl, List.Sublist.refl _⟩
    exact (congrArg ((received s).map some ++ ·) hcontents).trans (List.append_assoc _ _ _).symm

theorem txDuty_rxGrows (h : txDuty s = .next t) : RxGrows s t := by
  obtain ⟨r, d, c, w, rfl, -⟩ := txDuty_frame h
  exact rxGrows_of_eq rfl rfl

theorem exec_event_rxGrows {i : Instr} (hi : i.format = .event) (hs : s.Inv) (h : exec i s = .next t) : RxGrows s t :=
  (exec_event_induction (P := fun u => u.Ledger ∧ RxGrows s u) hi
    (fun _ _ ⟨hu, hg⟩ => ⟨{ hu with }, hg⟩)
    (fun _ _ ⟨hu, hg⟩ hduty => ⟨txDuty_ledger hu hduty, hg.trans (txDuty_rxGrows hduty)⟩)
    (fun _ _ ⟨hu, hg⟩ htake => ⟨rxTake_ledger hu htake, hg.trans (rxTake_rxGrows hu.rx htake)⟩)
    ⟨hs.ledger, .refl s⟩ h).2

theorem step_rxGrows (hs : s.Inv) (hroles : Roles s) (h : step s = .next t) : RxGrows s t := by
  obtain hfg | ⟨i, hi, hexec⟩ | ⟨e, rfl⟩ := step_of_roles hroles h
  · exact (foregroundTurn_rxGrows (turnTaken_inv hs) hfg :)
  · exact (exec_event_rxGrows hi (turnTaken_inv hs) hexec :)
  · cases e <;> exact .refl s

/-- Settles O57: every step of the run lets the history grow, and growing composes. -/
theorem receiveEndToEndOrder : Obligations.ReceiveEndToEndOrder := by
  intro n s t hs hroles h
  exact run_of_steps (R := RxGrows) .refl (fun _ _ _ => .trans) (fun _ _ => step_rxGrows) n hs hroles h

end Sys2Proof.Machine
end

section
/-! Under the premises of R144 every step completes and leaves a safe state (R74, R82, R110). -/

namespace Sys2Proof.Machine

variable {s t : State}

/-! ### What a step keeps: the command in flight -/

theorem fetch_congr (h : t.fg = s.fg) : fetch t = fetch s := by rw [fetch, fetch, h]

/-- The result of a push is at most the free space it leaves. -/
theorem pushRing_free {q : Queue} {b : Byte} {n : Nat} (h : pushRing q b s = .next (n, t)) :
    n ≤ (t.ring q).cap - (t.ring q).occ := by
  obtain ⟨-, ⟨-, rfl, rfl⟩ | ⟨-, -, rfl, rfl⟩⟩ := pushRing_eq_next.1 h
  · exact Nat.zero_le _
  · rw [setRing_ring, pushed_cap, pushed_occ]

theorem countWord_toNat_le (n : Nat) : (countWord n).toNat ≤ n := by
  rw [countWord, BitVec.toNat_ofNat]
  exact Nat.mod_le _ _

/-- In IDLE no command is in flight. -/
theorem inFlight_of_idle (h : s.fg.phase = .idle) : InFlight s := fun harm => by simp [h] at harm

/-- The PUT_CHAR that has just pushed is in flight: it stays at the gate, and its result waits. -/
theorem foregroundTurn_inFlight (hs : InFlight s) (h : foregroundTurn s = .next t) : InFlight t := by
  obtain ⟨-, rfl⟩ | ⟨i, s1, hfetch, hexec, rfl⟩ := foregroundTurn_eq_next.1 h
  · exact hs
  · obtain ⟨b, n, s2, rfl, -, hpush, rfl⟩ | ⟨hidle, -⟩ := exec_cg_tx (fetch_format hfetch) hexec
    · obtain ⟨r, rfl⟩ := pushRing_frame hpush
      exact fun _ => ⟨⟨b, hfetch⟩, (countWord_toNat_le n).trans (pushRing_free hpush)⟩
    · exact inFlight_of_idle (by rw [retire_phase, hidle])

/-- Nothing but the foreground moves the command in flight, and the handler only frees space. -/
theorem InFlight.mono (hs : InFlight s) (hfg : t.fg = s.fg) (hcap : t.tx.cap = s.tx.cap)
    (hocc : t.tx.occ ≤ s.tx.occ) : InFlight t := by
  intro harm
  obtain ⟨hfetch, hpend⟩ := hs (hfg ▸ harm)
  rw [fetch_congr hfg, hfg, hcap]
  exact ⟨hfetch, hpend.trans (Nat.sub_le_sub_left hocc _)⟩

theorem exec_event_inFlight {i : Instr} (hi : i.format = .event) (hs : InFlight s) (h : exec i s = .next t) :
    InFlight t :=
  hs.mono (exec_event_fg hi h) (exec_ring_cap h .tx) (exec_event_occ hi h).1

theorem step_inFlight (hroles : Roles s) (hs : InFlight s) (h : step s = .next t) : InFlight t := by
  have htaken : InFlight s.turnTaken := hs
  obtain hfg | ⟨i, hi, hexec⟩ | ⟨e, rfl⟩ := step_of_roles hroles h
  · exact foregroundTurn_inFlight htaken hfg
  · exact exec_event_inFlight hi htaken hexec
  · cases e <;> exact hs

/-! ### What a step keeps: finite reads -/

theorem envReadByte_endless {b : Byte} (h : envReadByte s = .next (b, t)) : t.env.endless = s.env.endless := by
  obtain ⟨_, -, rfl⟩ | ⟨-, -, -, rfl⟩ := envReadByte_eq_next.1 h <;> rfl

theorem rxTake_endless (h : rxTake s = .next t) : t.env.endless = s.env.endless := by
  obtain ⟨b, s1, n, s2, hread, hpush, rfl⟩ := rxTake_eq_next.1 h
  obtain ⟨r, rfl⟩ := pushRing_frame hpush
  exact (envReadByte_endless hread :)

theorem txDuty_env (h : txDuty s = .next t) : t.env = s.env := by
  obtain ⟨r, d, c, w, rfl, -⟩ := txDuty_frame h
  rfl

theorem exec_event_endless {i : Instr} (hi : i.format = .event) (h : exec i s = .next t) :
    t.env.endless = s.env.endless :=
  exec_event_induction (P := fun u => u.env.endless = s.env.endless) hi (fun _ _ hu => hu)
    (fun _ _ hu hduty => (congrArg Env.endless (txDuty_env hduty)).trans hu)
    (fun _ _ hu htake => (rxTake_endless htake).trans hu) rfl h

theorem foregroundTurn_env (h : foregroundTurn s = .next t) : t.env = s.env := by
  obtain ⟨-, rfl⟩ | ⟨i, s1, hfetch, hexec, rfl⟩ := foregroundTurn_eq_next.1 h
  · rfl
  · rw [retire_env]
    exact congrArg HandlerSide.env (exec_cg_handlerSide (fetch_format hfetch) hexec)

/-- A turn that keeps P_E2 leaves a finite ENV finite. -/
theorem runTurn_endless {u : Turn} (hu : u.inContract = true) (he : u.keepsE2 = true) (hs : s.env.endless = false)
    (h : runTurn u s = .next t) : t.env.endless = false := by
  cases u with
  | fg => rw [foregroundTurn_env h, hs]
  | event e => rw [exec_event_endless (decodeEvent_format e) h, hs]
  | env e =>
    obtain rfl := Host.Outcome.next.inj h
    cases e with
    | rx b => exact hs
    | writable v => exact hs
    | answers bytes endless =>
      have hends : endless = false := by simpa [Turn.keepsE2] using he
      exact hends
  | port p => cases hu
  | reset => cases hu

theorem eagerTurn_endless (h : eagerTurn s = .next t) : t.env.endless = s.env.endless := by
  obtain ⟨-, -, hinvoke⟩ | ⟨-, hfg⟩ := eagerTurn_eq_next.1 h
  · exact exec_event_endless rfl hinvoke
  · rw [foregroundTurn_env hfg]

theorem step_finiteReads (hroles : Roles s) (hs : FiniteReads s) (h : step s = .next t) : FiniteReads t := by
  obtain ⟨hfinite, hturns⟩ := hs
  refine ⟨?_, fun u hu => hturns u (List.mem_of_mem_tail (step_sched h ▸ hu))⟩
  obtain ⟨u, us, hsched, hturn⟩ | ⟨-, hturn⟩ := step_eq_next.1 h
  · have hu : u ∈ s.sched := by simp [hsched]
    exact runTurn_endless (s := { s with sched := us }) (hroles u hu) (hturns u hu) hfinite hturn
  · rw [eagerTurn_endless hturn, hfinite]

theorem step_safe (hs : Safe s) (h : step s = .next t) : Safe t where
  inv := everyStepKeepsTheInvariant s t hs.inv h
  handshake := step_handshake hs.roles hs.handshake h
  inFlight := step_inFlight hs.roles hs.inFlight h
  roles := step_roles hs.roles h
  finiteReads := step_finiteReads hs.roles hs.finiteReads h

/-! ### What completes: the shared operations -/

/-- A push into a ring with the invariants is accepted or rejected. -/
theorem pushRing_completes {q : Queue} (b : Byte) (hs : InService q s) : ∃ n t, pushRing q b s = .next (n, t) := by
  by_cases hfull : (s.ring q).occ = (s.ring q).cap
  · exact ⟨_, _, pushRing_rejected hs.reset hfull⟩
  · exact ⟨_, _, pushRing_accepted hs.reset hfull hs.ring.wr_lt⟩

/-- A pop from a ring with the invariants is empty or takes a written byte. -/
theorem popRing_completes {q : Queue} (hs : InService q s) : ∃ b ok t, popRing q s = .next (b, ok, t) := by
  by_cases hempty : (s.ring q).occ = 0
  · exact ⟨_, _, _, popRing_empty hs.reset hempty⟩
  · obtain ⟨b, hread⟩ := head_written hs.ring hempty
    exact ⟨_, _, _, popRing_taken hs.reset hempty hs.ring.rd_lt hread⟩

/-- The transmit duty sends only what it can pop, and only to a hardware that is writable (R91). -/
theorem txDuty_completes (hs : InService .tx s) : ∃ t, txDuty s = .next t := by
  have hsend : ∃ s1, txSend s = .next s1 := by
    by_cases hidle : s.tx.occ = 0 ∨ s.env.writable = false
    · exact ⟨s, txSend_eq_next.2 (.inl ⟨hidle, rfl⟩)⟩
    · obtain ⟨ho, hw⟩ := not_or.1 hidle
      obtain ⟨b, ok, s1, hpop⟩ := popRing_completes hs
      exact ⟨_, txSend_eq_next.2 (.inr ⟨ho, Bool.eq_true_of_not_eq_false hw, b, ok, s1, hpop, rfl⟩)⟩
  obtain ⟨s1, h⟩ := hsend
  exact ⟨_, txDuty_eq_next.2 ⟨s1, h, rfl⟩⟩

/-- A round of the receive loop consumes the byte it reads. -/
theorem rxTake_completes {b : Byte} {rest : List Byte} (hs : InService .rx s) (hq : s.env.rxq = b :: rest) :
    ∃ t, rxTake s = .next t ∧ InService .rx t ∧ t.env.rxq = rest := by
  have hread : envReadByte s = .next (b, consumeByte b rest s) := envReadByte_eq_next.2 (.inl ⟨rest, hq, rfl⟩)
  have hconsumed : InService .rx (consumeByte b rest s) := ⟨hs.reset, hs.ring⟩
  obtain ⟨n, s2, hpush⟩ := pushRing_completes b hconsumed
  refine ⟨_, rxTake_eq_next.2 ⟨b, _, n, s2, hread, hpush, rfl⟩, ⟨?_, (pushRing_ring_inv hconsumed.ring hpush :)⟩, ?_⟩
  · obtain ⟨r, rfl⟩ := pushRing_frame hpush
    exact hs.reset
  · obtain ⟨r, rfl⟩ := pushRing_frame hpush
    rfl

theorem envIsReadable_of_finite (hfinite : s.env.endless = false) : envIsReadable s = !s.env.rxq.isEmpty := by
  rw [envIsReadable, hfinite, Bool.false_or]

/-- As many rounds as bytes wait read them all (P_E2). -/
theorem rxLoop_completes (l : List Byte) :
    ∀ s : State, InService .rx s → s.env.endless = false → s.env.rxq = l → ∃ t, rxLoop l.length s = .next t := by
  induction l with
  | nil =>
    intro s _ hfinite hq
    have hread : envIsReadable s = false := by rw [envIsReadable_of_finite hfinite, hq]; rfl
    exact ⟨s, if_neg (by simp [hread])⟩
  | cons b rest ih =>
    intro s hs hfinite hq
    have hread : envIsReadable s = true := by rw [envIsReadable_of_finite hfinite, hq]; rfl
    obtain ⟨s1, htake, hs1, hq1⟩ := rxTake_completes hs hq
    obtain ⟨t, hloop⟩ := ih s1 hs1 ((rxTake_endless htake).trans hfinite) hq1
    exact ⟨t, (if_pos hread).trans (andThen_eq_next.2 ⟨s1, htake, hloop⟩)⟩

theorem rxDuty_completes (hs : InService .rx s) (hfinite : s.env.endless = false) : ∃ t, rxDuty s = .next t := by
  obtain ⟨t, hloop⟩ := rxLoop_completes s.env.rxq s hs hfinite rfl
  exact ⟨t, rxDuty_eq_next.2 ⟨hfinite, hloop⟩⟩

/-! ### What completes: commands, handler steps and turns -/

theorem State.Inv.inService (hs : s.Inv) (q : Queue) : InService q s := ⟨hs.reset, hs.ledger.ring q⟩

theorem execPutChar_completes (sid b : Byte) (hs : s.Inv) (hidle : s.fg.phase = .idle) :
    ∃ t, execPutChar sid b s = .next t := by
  cases hsid : validStream sid with
  | true =>
    obtain ⟨n, s1, hpush⟩ := pushRing_completes b (hs.inService .tx)
    exact ⟨_, execPutChar_eq_next.2
      ⟨hs.reset, hs.inactive, .inl ⟨hidle, hsid, putCharPush_eq_next.2 ⟨n, s1, hpush, rfl⟩⟩⟩⟩
  | false => exact ⟨_, execPutChar_eq_next.2 ⟨hs.reset, hs.inactive, .inr (.inl ⟨hidle, hsid, rfl⟩)⟩⟩

theorem execGetChar_completes (sid : Byte) (hs : s.Inv) (hidle : s.fg.phase = .idle) :
    ∃ t, execGetChar sid s = .next t := by
  cases hsid : validStream sid with
  | true =>
    obtain ⟨b, ok, s1, hpop⟩ := popRing_completes (hs.inService .rx)
    cases ok with
    | true => exact ⟨_, execGetChar_eq_next.2
        ⟨hs.reset, hs.inactive, hidle, .inl ⟨hsid, b, true, s1, hpop, .inl ⟨rfl, rfl⟩⟩⟩⟩
    | false => exact ⟨_, execGetChar_eq_next.2
        ⟨hs.reset, hs.inactive, hidle, .inl ⟨hsid, b, false, s1, hpop, .inr ⟨rfl, rfl⟩⟩⟩⟩
  | false => exact ⟨_, execGetChar_eq_next.2 ⟨hs.reset, hs.inactive, hidle, .inr ⟨hsid, rfl⟩⟩⟩

theorem execCharsAvailable_completes (sid : Byte) (hs : s.Inv) (hidle : s.fg.phase = .idle) :
    ∃ t, execCharsAvailable sid s = .next t := by
  cases hsid : validStream sid with
  | true => exact ⟨_, execCharsAvailable_eq_next.2 ⟨hs.reset, hs.inactive, hidle, .inl ⟨hsid, rfl⟩⟩⟩
  | false => exact ⟨_, execCharsAvailable_eq_next.2 ⟨hs.reset, hs.inactive, hidle, .inr ⟨hsid, rfl⟩⟩⟩

/-- In IDLE every command runs. -/
theorem exec_cg_completes {i : Instr} (hi : i.format = .cg) (hs : s.Inv) (hidle : s.fg.phase = .idle) :
    ∃ t, exec i s = .next t := by
  cases i with
  | version => exact ⟨_, execVersion_eq_next.2 ⟨hs.reset, hs.inactive, hidle, rfl⟩⟩
  | putChar sid b => exact execPutChar_completes sid b hs hidle
  | getChar sid => exact execGetChar_completes sid hs hidle
  | charsAvailable sid => exact execCharsAvailable_completes sid hs hidle
  | invalidOp w => exact ⟨_, execInvalidOp_eq_next.2 ⟨hs.reset, hs.inactive, hidle, rfl⟩⟩
  | rbInit | rbPush | rbPop | rbUsed | rbFree | ihInvoke | ihTxduty | ihRxduty => cases hi

/-- In PUT_ARM the command at the gate is the one in flight, which takes its second step. -/
theorem foregroundTurn_completes (hs : s.Inv) (hflight : InFlight s) : ∃ t, foregroundTurn s = .next t := by
  cases hfetch : fetch s with
  | none => exact ⟨s, by rw [foregroundTurn, hfetch]⟩
  | some i =>
    have hexec : ∃ s1, exec i s = .next s1 := by
      cases hphase : s.fg.phase with
      | idle => exact exec_cg_completes (fetch_format hfetch) hs hphase
      | putArm =>
        obtain ⟨⟨b, hput⟩, -⟩ := hflight hphase
        obtain rfl : i = .putChar 0 b := Option.some.inj (hfetch.symm.trans hput)
        exact ⟨_, execPutChar_eq_next.2 ⟨hs.reset, hs.inactive, .inr (.inr ⟨hphase, rfl, rfl⟩)⟩⟩
    obtain ⟨s1, h⟩ := hexec
    exact ⟨_, foregroundTurn_eq_next.2 (.inr ⟨i, s1, hfetch, h, rfl⟩)⟩

/-- The transmit duty of an invocation leaves `rx` and ENV as the receive duty needs them. -/
theorem execIhInvoke_completes (hs : s.Inv) (hfinite : s.env.endless = false) : ∃ t, execIhInvoke s = .next t := by
  have hentry : InService .tx { s with ih := { active := true } } := ⟨hs.reset, hs.tx⟩
  obtain ⟨s2, htx⟩ := txDuty_completes hentry
  have hrest : ∃ s3, rxDuty s2 = .next s3 := by
    obtain ⟨r, d, c, w, rfl, -⟩ := txDuty_frame htx
    exact rxDuty_completes ⟨hs.reset, hs.rx⟩ hfinite
  obtain ⟨s3, hrx⟩ := hrest
  exact ⟨_, execIhInvoke_eq_next.2 ⟨hs.reset, hs.inactive, s2, s3, htx, hrx, rfl⟩⟩

theorem exec_event_completes {i : Instr} (hi : i.format = .event) (hs : s.Inv) (hfinite : s.env.endless = false) :
    ∃ t, exec i s = .next t := by
  cases i with
  | ihInvoke => exact execIhInvoke_completes hs hfinite
  | ihTxduty =>
    obtain ⟨t, h⟩ := txDuty_completes (hs.inService .tx)
    exact ⟨t, execIhTxduty_eq_next.2 ⟨hs.reset, h⟩⟩
  | ihRxduty =>
    obtain ⟨t, h⟩ := rxDuty_completes (hs.inService .rx) hfinite
    exact ⟨t, execIhRxduty_eq_next.2 ⟨hs.reset, h⟩⟩
  | version | putChar | getChar | charsAvailable | invalidOp | rbInit | rbPush | rbPop | rbUsed | rbFree => cases hi

theorem runTurn_completes {u : Turn} (hu : u.inContract = true) (hs : s.Inv) (hflight : InFlight s)
    (hfinite : s.env.endless = false) : ∃ t, runTurn u s = .next t := by
  cases u with
  | fg => exact foregroundTurn_completes hs hflight
  | event e => exact exec_event_completes (decodeEvent_format e) hs hfinite
  | env e => exact ⟨_, rfl⟩
  | port p => cases hu
  | reset => cases hu

theorem eagerTurn_completes (hs : s.Inv) (hflight : InFlight s) (hfinite : s.env.endless = false) :
    ∃ t, eagerTurn s = .next t := by
  by_cases hirq : irq s = true ∧ s.ih.active = false
  · obtain ⟨t, h⟩ := exec_event_completes (i := .ihInvoke) rfl hs hfinite
    exact ⟨t, eagerTurn_eq_next.2 (.inl ⟨hirq.1, hirq.2, h⟩)⟩
  · obtain ⟨t, h⟩ := foregroundTurn_completes hs hflight
    exact ⟨t, eagerTurn_eq_next.2 (.inr ⟨hirq, h⟩)⟩

theorem step_completes (hs : Safe s) : ∃ t, step s = .next t := by
  obtain ⟨hinv, -, hflight, hroles, hfinite, -⟩ := hs
  cases hsched : s.sched with
  | nil =>
    obtain ⟨t, h⟩ := eagerTurn_completes hinv hflight hfinite
    exact ⟨t, step_eq_next.2 (.inr ⟨hsched, h⟩)⟩
  | cons u us =>
    have hpopped : State.Inv { s with sched := us } := { hinv with }
    obtain ⟨t, h⟩ := runTurn_completes (hroles u (by simp [hsched])) hpopped hflight hfinite
    exact ⟨t, step_eq_next.2 (.inl ⟨u, us, hsched, h⟩)⟩

/-- Settles O50: a safe state has a next one, which is safe. -/
theorem safeRunsNeverStop : Obligations.SafeRunsNeverStop := by
  intro n
  induction n with
  | zero => exact fun s hs => ⟨s, run_zero s, hs⟩
  | succ n ih =>
    intro s hs
    obtain ⟨s1, hstep⟩ := step_completes hs
    obtain ⟨t, hrun, ht⟩ := ih s1 (step_safe hs hstep)
    exact ⟨t, (run_succ_of_next hstep).trans hrun, ht⟩

end Sys2Proof.Machine
end

section
/-! The call gate: how a word comes to run (R75), what each command answers (R77 to R81), the two steps of PUT_CHAR
(R79), and the safety that every step keeps (R98). -/

namespace Sys2Proof.Machine

variable {s t : State}

/-- Settles O48: the safety of a state is kept part by part. -/
theorem everyStepKeepsSafety : Obligations.EveryStepKeepsSafety := fun _ _ hs h => step_safe hs h

/-! ### Result words (R51) -/

/-- Under the parameters' bound a count is delivered exactly (R5). -/
theorem countWord_toNat {n : Nat} (h : n ≤ Config.maxCapacity) : (countWord n).toNat = n := by
  rw [countWord, BitVec.toNat_ofNat]
  unfold Config.maxCapacity at h
  exact Nat.mod_eq_of_lt (by omega)

theorem byteWord_toNat (b : Byte) : (byteWord b).toNat = b.toNat := BitVec.toNat_setWidth_of_le (by decide)

theorem versionWord_toNat (major minor : Byte) :
    (versionWord major minor).toNat = major.toNat * 256 + minor.toNat := by
  rw [versionWord, BitVec.toNat_setWidth_of_le (by decide), BitVec.toNat_append,
    ← Nat.shiftLeft_add_eq_or_of_lt minor.isLt, Nat.shiftLeft_eq]

/-! ### Commands that respond at once -/

/-- A word with RSV = 0 and OP = 0 is VERSION, whatever its other fields hold (R47, R48). -/
theorem decodeCommand_of_row_zero {w : Word} (h : w &&& 0xFF0000FF = 0) : decodeCommand w = .version := by
  have hfields : commandWord (rsvField w) 0 0 (opField w) = commandWord 0 0 0 0 := (row_mask w).symm.trans h
  obtain ⟨hrsv, -, -, hop⟩ := commandWord_inj.1 hfields
  rw [← commandWord_fields w, hrsv, hop, decodeCommand_version]

/-- Settles O27: the word decodes to VERSION, which only responds. -/
theorem versionAnswersTheIdentifier : Obligations.VersionAnswersTheIdentifier := fun _ _ hs hw =>
  ⟨decodeCommand_of_row_zero hw, _, versionWord_toNat _ _,
    execVersion_eq_next.2 ⟨hs.reset, hs.inactive, hs.idle, rfl⟩⟩

/-- Settles O33: the pop takes the byte at the read index, which is the response. -/
theorem getCharTakesTheOldestByte : Obligations.GetCharTakesTheOldestByte := by
  intro s b hs ho hrd hread
  have hpop := popRing_taken (q := .rx) hs.reset ho hrd hread
  exact ⟨_, byteWord_toNat b,
    execGetChar_eq_next.2 ⟨hs.reset, hs.inactive, hs.idle, .inl ⟨rfl, b, true, _, hpop, .inl ⟨rfl, rfl⟩⟩⟩⟩

/-- Settles O34: the empty pop draws its byte, and the response draws RES after it. -/
theorem getCharOnEmptySaysSo : Obligations.GetCharOnEmptySaysSo := by
  intro s hs ho
  have hpop := popRing_empty (q := .rx) hs.reset ho
  exact ⟨rfl,
    execGetChar_eq_next.2 ⟨hs.reset, hs.inactive, hs.idle, .inl ⟨rfl, _, false, _, hpop, .inr ⟨rfl, rfl⟩⟩⟩⟩

/-- Settles O35: an occupancy within the capacity fits the response. -/
theorem charsAvailableAnswersTheOccupancy : Obligations.CharsAvailableAnswersTheOccupancy := fun _ hs hocc hcap =>
  ⟨_, countWord_toNat (hocc.trans hcap),
    execCharsAvailable_eq_next.2 ⟨hs.reset, hs.inactive, hs.idle, .inl ⟨rfl, rfl⟩⟩⟩

/-! ### The two steps of PUT_CHAR -/

/-- Step 1: the push into `tx`, whose answer waits in `fg.pend`. -/
theorem exec_putChar_of_push {b : Byte} {n : Nat} (hs : ForegroundReady s) (h : pushRing .tx b s = .next (n, t)) :
    exec (.putChar 0 b) s = .next { t with fg := { t.fg with phase := .putArm, pend := countWord n } } :=
  execPutChar_eq_next.2 ⟨hs.reset, hs.inactive, .inl ⟨hs.idle, rfl, putCharPush_eq_next.2 ⟨n, t, h, rfl⟩⟩⟩

/-- Step 2: TXIE is set and the waiting answer is delivered. -/
theorem exec_putChar_of_putArm (b : Byte) (hr : isReset s = true) (ha : s.ih.active = false)
    (hp : s.fg.phase = .putArm) : exec (.putChar 0 b) s = .next (putCharArm (.putChar 0 b) s) :=
  execPutChar_eq_next.2 ⟨hr, ha, .inr (.inr ⟨hp, rfl, rfl⟩)⟩

/-- Settles O30: the push is accepted or rejected. -/
theorem putCharPushesFirst : Obligations.PutCharPushesFirst := fun _ _ hs =>
  ⟨fun hroom hwr => exec_putChar_of_push hs (pushRing_accepted (q := .tx) hs.reset (Nat.ne_of_lt hroom) hwr),
    fun hfull => exec_putChar_of_push hs (pushRing_rejected (q := .tx) hs.reset hfull)⟩

/-- Settles O31: step 2 tests nothing but the phase. -/
theorem putCharArmsAndResponds : Obligations.PutCharArmsAndResponds := fun _ b hr ha hp =>
  ⟨rfl, exec_putChar_of_putArm b hr ha hp⟩

theorem whenIdle_of_putArm (k : Res State) (hr : isReset s = true) (ha : s.ih.active = false)
    (hp : s.fg.phase = .putArm) : whenIdle s k = .refused .commandInFlight := by
  rw [whenIdle, whenForegroundRuns_of_ready _ hr ha, if_neg (by simp [hp])]

/-- A PUT_CHAR to another stream cannot be the one in flight, which had a valid stream in step 1. -/
theorem execPutChar_of_putArm_of_ne {sid : Byte} (b : Byte) (hr : isReset s = true) (ha : s.ih.active = false)
    (hp : s.fg.phase = .putArm) (hsid : sid ≠ 0) : execPutChar sid b s = .refused .commandInFlight := by
  simp only [execPutChar, whenForegroundRuns_of_ready _ hr ha, hp, validStream_of_ne_zero hsid, Bool.false_eq_true,
    if_false]

/-- Settles O36: the other commands start in IDLE only, and a PUT_CHAR to another stream is another command. -/
theorem secondCommandInFlightIsRefused : Obligations.SecondCommandInFlightIsRefused := by
  intro s i hr ha hp hi hne
  cases i with
  | version | getChar | charsAvailable | invalidOp => exact whenIdle_of_putArm _ hr ha hp
  | putChar sid b =>
    have hsid : sid ≠ 0 := fun h => hne b (by rw [h])
    exact execPutChar_of_putArm_of_ne b hr ha hp hsid
  | rbInit | rbPush | rbPop | rbUsed | rbFree | ihInvoke | ihTxduty | ihRxduty => cases hi

/-! ### The word at the gate -/

theorem tableSignal_word (w : Word) : tableSignal 32 w.toNat = some (.word w) := by
  rw [tableSignal, BitVec.ofNat_toNat, BitVec.setWidth_eq]

/-- Settles O9: the word is put at the gate and the foreground's turn before the schedule. -/
theorem placedWordRunsNext : Obligations.PlacedWordRunsNext := by
  intro s w
  have hplaced : s.withFetchWord 32 w.toNat = s.withSignal (.word w) := by
    simp only [State.withFetchWord, tableSignal_word]
  refine ⟨by simp only [decodeTableWord, tableSignal_word]; rfl, ?_⟩
  rw [hplaced]
  exact stepRunsTheDecodedCommand (s.withSignal (.word w)) w s.fg.cmds s.sched rfl rfl

/-- A turn of the foreground whose command answers is a step to the retired state. -/
theorem step_of_exec {w : Word} {ws : List Word} {us : List Turn} {i : Instr} (hcmds : s.fg.cmds = w :: ws)
    (hdec : decodeCommand w = i) (hsched : s.sched = .fg :: us) (h : exec i { s with sched := us } = .next t) :
    step s = .next (retire t) :=
  (step_of_sched_cons hsched).trans
    (foregroundTurn_eq_next.2 (.inr ⟨i, t, fetch_eq_some.2 ⟨w, ws, hcmds, hdec⟩, h, rfl⟩))

section
variable {b : Byte} {w : Word} {ws : List Word} {us : List Turn}

/-- The turn of step 1: the word stays at the gate. -/
theorem step_putChar_push {n : Nat} (hs : ForegroundReady s) (hcmds : s.fg.cmds = w :: ws)
    (hdec : decodeCommand w = .putChar 0 b) (hsched : s.sched = .fg :: us)
    (hpush : pushRing .tx b { s with sched := us } = .next (n, t)) :
    step s = .next { t with fg := { t.fg with phase := .putArm, pend := countWord n } } := by
  have hexec := exec_putChar_of_push (s := { s with sched := us }) ⟨hs.reset, hs.inactive, hs.idle⟩ hpush
  rw [step_of_exec hcmds hdec hsched hexec, retire_putArm _ rfl]

/-- The turn of step 2: the word leaves the gate. -/
theorem step_putChar_arm (hr : isReset s = true) (ha : s.ih.active = false) (hp : s.fg.phase = .putArm)
    (hcmds : s.fg.cmds = w :: ws) (hdec : decodeCommand w = .putChar 0 b) (hsched : s.sched = .fg :: us) :
    step s = .next { s with
      txie := true, sched := us
      fg := { s.fg with phase := .idle, cmds := ws }
      obs := { s.obs with
        replies := s.obs.replies ++ [{ cmd := .putChar 0 b, stat := .ok, res := s.fg.pend }] } } := by
  have hexec := exec_putChar_of_putArm (s := { s with sched := us }) b hr ha hp
  rw [step_of_exec hcmds hdec hsched hexec, retire_idle _ rfl]
  simp [putCharArm, respond, hcmds]

/-- Two turns of the foreground take a PUT_CHAR from its push to its response. -/
theorem run_two_putChar {n : Nat} {r : Ring} (hs : ForegroundReady s) (hcmds : s.fg.cmds = w :: ws)
    (hdec : decodeCommand w = .putChar 0 b) (hsched : s.sched = .fg :: .fg :: us)
    (hpush : pushRing .tx b { s with sched := .fg :: us } = .next (n, { s with tx := r, sched := .fg :: us })) :
    run 2 s = .next { s with
      tx := r, txie := true, sched := us
      fg := { phase := .idle, pend := countWord n, cmds := ws }
      obs := { s.obs with
        replies := s.obs.replies ++ [{ cmd := .putChar 0 b, stat := .ok, res := countWord n }] } } :=
  (run_succ_of_next (step_putChar_push hs hcmds hdec hsched hpush)).trans
    (run_succ_of_next (n := 0) (step_putChar_arm hs.reset hs.inactive rfl hcmds hdec rfl))

end

/-- Settles O32: either answer of the push is the free space it leaves, and fits the response. -/
theorem putCharCompletesInTwoTurns : Obligations.PutCharCompletesInTwoTurns := by
  intro s b w ws us hs htx hcmds hdec hsched
  have hexact (n : Nat) : (countWord (s.tx.cap - n)).toNat = s.tx.cap - n :=
    countWord_toNat ((Nat.sub_le _ _).trans htx.params.fits)
  by_cases hroom : s.tx.occ < s.tx.cap
  · have hpush := pushRing_accepted (q := .tx) (b := b) (s := { s with sched := .fg :: us }) hs.reset
      (Nat.ne_of_lt hroom) htx.wr_lt
    refine ⟨_, _, run_two_putChar hs hcmds hdec hsched hpush, pushed_inv htx hroom b, ?_, ?_, hexact _, rfl⟩
    · rw [if_pos hroom]; rfl
    · rw [if_pos hroom]; exact contents_pushed htx hroom b
  · have hfull : s.tx.occ = s.tx.cap := le_antisymm htx.occ_le (Nat.not_lt.1 hroom)
    have hpush := pushRing_rejected (q := .tx) (b := b) (s := { s with sched := .fg :: us }) hs.reset hfull
    refine ⟨_, _, run_two_putChar hs hcmds hdec hsched hpush, htx, (if_neg hroom).symm, (if_neg hroom).symm, ?_, rfl⟩
    simp [hfull, countWord]

end Sys2Proof.Machine
end

section
/-! The turn of ENV (R97), the two duties in closed form (R91, R92): what a completed duty leaves, as one record update
each, and the invocation as the one after the other (R90). -/

namespace Sys2Proof.Machine

variable {s t : State}

/-! ### Turns of ENV -/

/-- Settles O10, event by event: the turn at the head of the schedule is `envChange`. -/
theorem envTurnTouchesOnlyEnv : Obligations.EnvTurnTouchesOnlyEnv := by
  intro s e ts hsched
  rw [step_of_sched_cons hsched]
  cases e with
  | rx b => exact ⟨_, rfl, by rintro _ ⟨⟩; rfl, nofun, nofun⟩
  | writable v => exact ⟨_, rfl, nofun, by rintro _ ⟨⟩; rfl, nofun⟩
  | answers bytes endless => exact ⟨_, rfl, nofun, nofun, by rintro _ _ ⟨⟩; rfl⟩

/-! ### The transmit duty -/

/-- The state after the transmit duty has given `b`, the oldest byte of `tx`, to the hardware (R91). -/
def State.sent (s : State) (b : Byte) : State :=
  { s with
    tx := s.tx.popped
    txie := s.tx.popped.nonEmpty
    txcount := s.txcount + 1
    obs := { s.obs with wireTx := s.obs.wireTx ++ [b] } }

/-- The state after a transmit duty that sent nothing (R91). -/
def State.unsent (s : State) : State := { s with txie := s.tx.nonEmpty }

theorem txDuty_sends {b : Byte} (hr : isReset s = true) (ho : s.tx.occ ≠ 0) (hw : s.env.writable = true)
    (hrd : s.tx.rd < s.tx.cap) (hread : Memory.read s.tx.mem s.tx.rd = some b) : txDuty s = .next (s.sent b) := by
  have hpop : popRing .tx s = .next (b, true, s.setRing .tx s.tx.popped) := popRing_taken (q := .tx) hr ho hrd hread
  exact txDuty_eq_next.2 ⟨_, txSend_eq_next.2 (.inr ⟨ho, hw, b, true, _, hpop, rfl⟩), rfl⟩

theorem txDuty_sends_nothing (h : s.tx.occ = 0 ∨ s.env.writable = false) : txDuty s = .next s.unsent :=
  txDuty_eq_next.2 ⟨s, txSend_eq_next.2 (.inl ⟨h, rfl⟩), rfl⟩

/-- Settles O38: the two forms of the transmit duty, as a step of its own. -/
theorem txDutySendsAtMostOneByte : Obligations.TxDutySendsAtMostOneByte := fun _ hr =>
  ⟨fun _ ho hw hrd hread => execIhTxduty_eq_next.2 ⟨hr, txDuty_sends hr ho hw hrd hread⟩,
    fun hnone => execIhTxduty_eq_next.2 ⟨hr, txDuty_sends_nothing hnone⟩⟩

/-- Over a `tx` with the invariants the transmit duty takes one of its two forms, and whether an invocation is active
does not matter. -/
theorem txDuty_whatever_ih (hs : InService .tx s) :
    ∃ t, txDuty s = .next t ∧ ∀ h, txDuty { s with ih := h } = .next { t with ih := h } := by
  by_cases hnone : s.tx.occ = 0 ∨ s.env.writable = false
  · exact ⟨_, txDuty_sends_nothing hnone, fun _ => txDuty_sends_nothing hnone⟩
  · obtain ⟨ho, hw⟩ := not_or.1 hnone
    have hw := Bool.eq_true_of_not_eq_false hw
    obtain ⟨b, hread⟩ := head_written hs.ring ho
    exact ⟨_, txDuty_sends hs.reset ho hw hs.ring.rd_lt hread,
      fun _ => txDuty_sends hs.reset ho hw hs.ring.rd_lt hread⟩

/-! ### Bytes offered to a ring -/

/-- The ring after `b` was offered to it: dropped when the ring is full, else stored (R61, R70). -/
def Ring.offer (r : Ring) (b : Byte) : Ring := if r.occ = r.cap then r else r.pushed b

/-- The ring after the bytes were offered to it in order. -/
def Ring.offerAll (r : Ring) (bs : List Byte) : Ring := bs.foldl Ring.offer r

@[simp] theorem offerAll_nil (r : Ring) : r.offerAll [] = r := rfl

@[simp] theorem offerAll_cons (r : Ring) (b : Byte) (bs : List Byte) :
    r.offerAll (b :: bs) = (r.offer b).offerAll bs := rfl

theorem offer_of_full {r : Ring} (h : r.occ = r.cap) (b : Byte) : r.offer b = r := if_pos h

theorem offer_of_room {r : Ring} (h : r.occ < r.cap) (b : Byte) : r.offer b = r.pushed b := if_neg (Nat.ne_of_lt h)

/-- A ring with the invariants is full or has room. -/
theorem Ring.Inv.full_or_room {r : Ring} (h : r.Inv) : r.occ = r.cap ∨ r.occ < r.cap := Nat.eq_or_lt_of_le h.occ_le

theorem offer_inv {r : Ring} (hr : r.Inv) (b : Byte) : (r.offer b).Inv := by
  obtain hfull | hroom := hr.full_or_room
  · rwa [offer_of_full hfull]
  · rw [offer_of_room hroom]
    exact pushed_inv hr hroom b

theorem offerAll_of_full {r : Ring} (h : r.occ = r.cap) (bs : List Byte) : r.offerAll bs = r := by
  induction bs with
  | nil => rfl
  | cons b bs ih => rw [offerAll_cons, offer_of_full h, ih]

/-- What every offer keeps, a sequence of offers keeps. -/
theorem offerAll_induction {P : Ring → Prop} (hoffer : ∀ r b, P r → P (r.offer b)) (bs : List Byte) :
    ∀ r, P r → P (r.offerAll bs) := by
  induction bs with
  | nil => exact fun _ hr => hr
  | cons b bs ih => exact fun r hr => ih _ (hoffer r b hr)

theorem offerAll_inv {r : Ring} (hr : r.Inv) (bs : List Byte) : (r.offerAll bs).Inv :=
  offerAll_induction (P := Ring.Inv) (fun _ b hu => offer_inv hu b) bs r hr

/-- An offer writes the producer's end of the ring only. -/
theorem offer_frame (r : Ring) (b : Byte) : (r.offer b).cap = r.cap ∧ (r.offer b).rd = r.rd := by
  unfold Ring.offer
  split <;> exact ⟨rfl, rfl⟩

theorem offerAll_frame (r : Ring) (bs : List Byte) : (r.offerAll bs).cap = r.cap ∧ (r.offerAll bs).rd = r.rd :=
  offerAll_induction (P := fun u => u.cap = r.cap ∧ u.rd = r.rd)
    (fun u b ⟨hcap, hrd⟩ => ⟨(offer_frame u b).1.trans hcap, (offer_frame u b).2.trans hrd⟩) bs r ⟨rfl, rfl⟩

/-- The bytes that find room are appended, and the newest are dropped (R70). -/
theorem contents_offerAll (bs : List Byte) :
    ∀ {r : Ring}, r.Inv → (r.offerAll bs).contents = r.contents ++ (bs.take (r.cap - r.occ)).map some := by
  induction bs with
  | nil => simp
  | cons b bs ih =>
    intro r hr
    obtain hfull | hroom := hr.full_or_room
    · simp [offerAll_of_full hfull, hfull]
    · have hspace : r.cap - r.occ = (r.cap - (r.occ + 1)) + 1 := by omega
      rw [offerAll_cons, offer_of_room hroom, ih (pushed_inv hr hroom b), contents_pushed hr hroom, hspace,
        List.take_succ_cons, List.map_cons, List.append_assoc]
      rfl

/-- Only the slots from the write index on are stored to, one for each accepted byte. -/
theorem read_offerAll {j : Nat} (bs : List Byte) :
    ∀ {r : Ring}, r.Inv → (∀ k < min bs.length (r.cap - r.occ), j ≠ (r.wr + k) % r.cap) →
      Memory.read (r.offerAll bs).mem j = Memory.read r.mem j := by
  induction bs with
  | nil => exact fun _ _ => rfl
  | cons b bs ih =>
    intro r hr hj
    obtain hfull | hroom := hr.full_or_room
    · rw [offerAll_of_full hfull]
    · have hhead : j ≠ r.wr := by
        have h0 := hj 0 (lt_min (Nat.succ_pos _) (Nat.sub_pos_of_lt hroom))
        rwa [Nat.add_zero, Nat.mod_eq_of_lt hr.wr_lt] at h0
      rw [offerAll_cons, offer_of_room hroom, ih (pushed_inv hr hroom b), pushed_mem,
        read_write_ne _ _ _ _ hr.mem_wf hhead.symm]
      intro k hk
      rw [pushed_cap, pushed_occ, lt_min_iff] at hk
      rw [pushed_wr, pushed_cap, advance, Nat.mod_add_mod, Nat.add_assoc, Nat.add_comm 1 k]
      exact hj (k + 1) (lt_min (Nat.succ_lt_succ hk.1) (by omega))

/-! ### The receive duty -/

/-- The state after a receive duty: the bytes the hardware offered are read, counted and offered to `rx` (R92). -/
def State.drained (s : State) : State :=
  { s with
    rx := s.rx.offerAll s.env.rxq
    rxcount := s.rxcount + BitVec.ofNat 32 s.env.rxq.length
    env := { s.env with rxq := [] }
    obs := { s.obs with wireRx := s.obs.wireRx ++ s.env.rxq } }

theorem pushRing_rx_offer (hs : InService .rx s) (b : Byte) :
    ∃ n, pushRing .rx b s = .next (n, { s with rx := s.rx.offer b }) := by
  have hrx : s.rx.Inv := hs.ring
  obtain hfull | hroom := hrx.full_or_room
  · rw [offer_of_full hfull]
    exact ⟨0, pushRing_rejected (q := .rx) hs.reset hfull⟩
  · rw [offer_of_room hroom]
    exact ⟨_, pushRing_accepted (q := .rx) hs.reset (Nat.ne_of_lt hroom) hrx.wr_lt⟩

/-- One round of the receive loop reads the oldest byte that waits, counts it and offers it to `rx`. -/
theorem rxTake_offers {b : Byte} {rest : List Byte} (hs : InService .rx s) (hq : s.env.rxq = b :: rest) :
    rxTake s = .next { consumeByte b rest s with rx := s.rx.offer b, rxcount := s.rxcount + 1 } := by
  have hconsumed : InService .rx (consumeByte b rest s) := ⟨hs.reset, hs.ring⟩
  obtain ⟨n, hpush⟩ := pushRing_rx_offer hconsumed b
  exact rxTake_eq_next.2 ⟨b, _, n, _, envReadByte_eq_next.2 (.inl ⟨rest, hq, rfl⟩), hpush, rfl⟩

theorem drained_of_nil (hq : s.env.rxq = []) : s.drained = s := by
  have henv : ({ s.env with rxq := [] } : Env) = s.env := by rw [← hq]
  simp [State.drained, hq, henv]

/-- Draining from after the first round is draining. -/
theorem drained_of_cons {b : Byte} {rest : List Byte} (hq : s.env.rxq = b :: rest) :
    State.drained { consumeByte b rest s with rx := s.rx.offer b, rxcount := s.rxcount + 1 } = s.drained := by
  have hcount : s.rxcount + 1#32 + BitVec.ofNat 32 rest.length = s.rxcount + BitVec.ofNat 32 (rest.length + 1) := by
    rw [Nat.add_comm, BitVec.ofNat_add, BitVec.add_assoc]
  simp [State.drained, consumeByte, hq, hcount]

theorem rxLoop_drains (l : List Byte) :
    ∀ s : State, InService .rx s → s.env.endless = false → s.env.rxq = l → rxLoop l.length s = .next s.drained := by
  induction l with
  | nil =>
    intro s _ hfinite hq
    have hread : envIsReadable s = false := by rw [envIsReadable_of_finite hfinite, hq]; rfl
    rw [drained_of_nil hq]
    exact if_neg (by simp [hread])
  | cons b rest ih =>
    intro s hs hfinite hq
    have hread : envIsReadable s = true := by rw [envIsReadable_of_finite hfinite, hq]; rfl
    rw [List.length_cons, rxLoop, if_pos hread, rxTake_offers hs hq, andThen_next, ← drained_of_cons hq]
    exact ih _ ⟨hs.reset, offer_inv hs.ring b⟩ hfinite rfl

theorem rxDuty_drains (hs : InService .rx s) (hfinite : s.env.endless = false) : rxDuty s = .next s.drained :=
  rxDuty_eq_next.2 ⟨hfinite, rxLoop_drains _ s hs hfinite rfl⟩

/-- Settles O39: the drained state is the one that the statement describes. -/
theorem rxDutyDrainsTheHardware : Obligations.RxDutyDrainsTheHardware := by
  intro s hr hs hfinite
  obtain ⟨hcap, hrd⟩ := offerAll_frame s.rx s.env.rxq
  exact ⟨s.drained, execIhRxduty_eq_next.2 ⟨hr, rxDuty_drains ⟨hr, hs⟩ hfinite⟩, offerAll_inv hs _, hcap, hrd,
    fun _ hj => read_offerAll _ hs hj, contents_offerAll _ hs, rfl⟩

theorem rxDuty_of_endless (h : s.env.endless = true) : rxDuty s = .fault .receiveHang := if_pos h

/-! ### The invocation -/

/-- An invocation is entry, the two duties and return, one after the other (R90). -/
theorem execIhInvoke_of_inactive (hr : isReset s = true) (ha : s.ih.active = false) :
    execIhInvoke s = andThen (txDuty { s with ih := { active := true } }) fun s2 =>
      andThen (rxDuty s2) fun s3 => .next (handlerReturn s3) := by
  rw [execIhInvoke, if_pos hr, handlerEntry_eq_next.2 ⟨ha, rfl⟩, andThen_next]

/-- Settles O40: the receive duty hangs, and in an invocation it is reached once the transmit duty has ended. -/
theorem endlessReceiveHangs : Obligations.EndlessReceiveHangs := by
  intro s hr hendless
  refine ⟨(if_pos hr).trans (rxDuty_of_endless hendless), fun ha htx => ?_⟩
  have hentry : InService .tx { s with ih := { active := true } } := ⟨hr, htx⟩
  obtain ⟨s2, hduty⟩ := txDuty_completes hentry
  have hhang : rxDuty s2 = .fault .receiveHang := rxDuty_of_endless (by rw [txDuty_env hduty]; exact hendless)
  change execIhInvoke s = _
  rw [execIhInvoke_of_inactive hr ha, hduty, andThen_next, hhang, andThen_fault]

/-- The drain does not depend on whether an invocation is active. -/
theorem handlerReturn_drained (h : Handler) (hinactive : s.ih = { active := false }) :
    handlerReturn (State.drained { s with ih := h }) = s.drained := by
  simp [handlerReturn, State.drained, ← hinactive]

/-- Under P_E2 an invocation is the transmit duty and then the drain of the hardware (R90). -/
theorem exec_ihInvoke_drains (htx : InService .tx s) (hrx : InService .rx s) (ha : s.ih.active = false)
    (hfinite : s.env.endless = false) :
    ∃ t, exec .ihTxduty s = .next t ∧ exec .ihRxduty t = .next t.drained ∧ exec .ihInvoke s = .next t.drained := by
  obtain ⟨t, hduty, hactive⟩ := txDuty_whatever_ih htx
  have hkept : t.ih = s.ih ∧ InService .rx t ∧ t.env.endless = false := by
    obtain ⟨r, d, c, w, rfl, -⟩ := txDuty_frame hduty
    exact ⟨rfl, ⟨hrx.reset, hrx.ring⟩, hfinite⟩
  obtain ⟨hih, hservice, htfinite⟩ := hkept
  have hinactive : t.ih = { active := false } := hih.trans (congrArg Handler.mk ha)
  exact ⟨t, execIhTxduty_eq_next.2 ⟨htx.reset, hduty⟩,
    execIhRxduty_eq_next.2 ⟨hservice.reset, rxDuty_drains hservice htfinite⟩,
    execIhInvoke_eq_next.2 ⟨htx.reset, ha, _, _, hactive _,
      rxDuty_drains ⟨hservice.reset, hservice.ring⟩ htfinite, handlerReturn_drained _ hinactive⟩⟩

/-- Settles O41: what an invocation writes of TXIE and leaves of the foreground is known of every invocation. -/
theorem invokeIsTransmitThenReceive : Obligations.InvokeIsTransmitThenReceive := by
  intro s hr htx hrx ha hfinite
  obtain ⟨t, hsend, hdrain, hinvoke⟩ := exec_ihInvoke_drains ⟨hr, htx⟩ ⟨hr, hrx⟩ ha hfinite
  have hside := exec_event_foregroundSide rfl hinvoke
  exact ⟨t, t.drained, hsend, hdrain, hinvoke, (exec_active hinvoke).trans ha, execIhInvoke_txie hinvoke,
    congrArg ForegroundSide.fg hside, congrArg ForegroundSide.replies hside⟩

end Sys2Proof.Machine
end

section
/-! The UART is asked before it is used (R95, U7): no operation gives a byte to a hardware that is not writable, or takes
one from a hardware that is not readable. -/

namespace Sys2Proof.Machine

variable {s t : State}

/-- The answer is neither of the two refusals of U7. -/
def Guarded {α : Type} (o : Res α) : Prop := o ≠ .refused .uartNotWritable ∧ o ≠ .refused .uartNotReadable

/-! ### Sequencing and guards -/

theorem guarded_next {α : Type} (a : α) : Guarded (.next a : Res α) := ⟨nofun, nofun⟩

theorem guarded_fault {α : Type} (r : Fault) : Guarded (.fault r : Res α) := ⟨nofun, nofun⟩

/-- A sequence is guarded when its first part is, and its second part wherever the first answers. -/
theorem Guarded.andThen {α β : Type} {o : Res α} {f : α → Res β} (ho : Guarded o)
    (hf : ∀ a, o = .next a → Guarded (f a)) : Guarded (andThen o f) := by
  cases o with
  | next a => exact hf a rfl
  | fault r => exact guarded_fault r
  | refused r => exact ⟨fun h => ho.1 (by cases h; rfl), fun h => ho.2 (by cases h; rfl)⟩

theorem whenForegroundRuns_guarded {k : Res State} (hk : Guarded k) : Guarded (whenForegroundRuns s k) := by
  unfold whenForegroundRuns
  split
  · exact ⟨nofun, nofun⟩
  · split
    · exact ⟨nofun, nofun⟩
    · exact hk

theorem whenIdle_guarded {k : Res State} (hk : Guarded k) : Guarded (whenIdle s k) := by
  refine whenForegroundRuns_guarded ?_
  split
  · exact hk
  · exact ⟨nofun, nofun⟩

theorem whenAgentRuns_guarded {a : Agent} {k : Res State} (hk : Guarded k) : Guarded (whenAgentRuns a s k) := by
  unfold whenAgentRuns
  split
  · exact ⟨nofun, nofun⟩
  · exact hk

theorem whenReset_guarded {k : Res State} (hk : Guarded k) :
    Guarded (if isReset s = true then k else .refused .notReset) := by
  split
  · exact hk
  · exact ⟨nofun, nofun⟩

/-! ### The ring buffer, which the UART has no part in -/

theorem initRing_guarded (q : Queue) (s : State) : Guarded (initRing q s) := by
  unfold initRing
  split_ifs <;> exact ⟨nofun, nofun⟩

theorem pushRing_guarded (q : Queue) (b : Byte) (s : State) : Guarded (pushRing q b s) := by
  unfold pushRing
  dsimp only
  split_ifs <;> exact ⟨nofun, nofun⟩

theorem popRing_guarded (q : Queue) (s : State) : Guarded (popRing q s) := by
  unfold popRing
  dsimp only
  split_ifs
  · exact ⟨nofun, nofun⟩
  · exact ⟨nofun, nofun⟩
  · cases Memory.read (s.ring q).mem (s.ring q).rd <;> exact ⟨nofun, nofun⟩
  · exact ⟨nofun, nofun⟩

theorem usedRing_guarded (q : Queue) (s : State) : Guarded (usedRing q s) := by
  unfold usedRing
  split <;> exact ⟨nofun, nofun⟩

theorem freeRing_guarded (q : Queue) (s : State) : Guarded (freeRing q s) := by
  unfold freeRing
  split <;> exact ⟨nofun, nofun⟩

/-! ### The UART and the duties -/

theorem envWriteByte_guarded (b : Byte) (hw : envIsWritable s = true) : Guarded (envWriteByte b s) := by
  rw [envWriteByte, if_pos hw]
  exact guarded_next _

theorem envReadByte_guarded (hread : envIsReadable s = true) : Guarded (envReadByte s) := by
  unfold envReadByte
  cases hq : s.env.rxq with
  | cons b rest => exact guarded_next _
  | nil =>
    have hendless : s.env.endless = true := by simpa [envIsReadable, hq] using hread
    simp only [if_pos hendless]
    exact guarded_next _

theorem popRing_writable {q : Queue} {b : Byte} {ok : Bool} (h : popRing q s = .next (b, ok, t)) :
    envIsWritable t = envIsWritable s := by
  obtain ⟨r, d, rfl, -⟩ := popRing_frame h
  cases q <;> rfl

/-- The transmit duty asks before it writes, and its pop does not change the answer (R91). -/
theorem txDuty_guarded (s : State) : Guarded (txDuty s) := by
  have hsend : Guarded (txSend s) := by
    unfold txSend
    split
    · exact guarded_next _
    · split
      next hw =>
        refine (popRing_guarded .tx s).andThen fun r hpop => ?_
        exact (envWriteByte_guarded r.1 ((popRing_writable hpop).trans hw)).andThen fun _ _ => guarded_next _
      next => exact guarded_next _
  exact hsend.andThen fun _ _ => guarded_next _

theorem rxTake_guarded (hread : envIsReadable s = true) : Guarded (rxTake s) :=
  (envReadByte_guarded hread).andThen fun r _ => (pushRing_guarded .rx r.1 r.2).andThen fun _ _ => guarded_next _

/-- The receive loop asks before every read (R92). -/
theorem rxLoop_guarded (n : Nat) : ∀ s, Guarded (rxLoop n s) := by
  induction n with
  | zero =>
    intro s
    rw [rxLoop]
    split
    · exact guarded_fault _
    · exact guarded_next _
  | succ n ih =>
    intro s
    rw [rxLoop]
    split
    next hread => exact (rxTake_guarded hread).andThen fun s1 _ => ih s1
    next => exact guarded_next _

theorem rxDuty_guarded (s : State) : Guarded (rxDuty s) := by
  unfold rxDuty
  split
  · exact guarded_fault _
  · exact rxLoop_guarded _ s

/-! ### The operations -/

theorem execPutChar_guarded (sid b : Byte) (s : State) : Guarded (execPutChar sid b s) := by
  refine whenForegroundRuns_guarded ?_
  cases s.fg.phase with
  | idle =>
    dsimp only
    split
    · exact (pushRing_guarded .tx b s).andThen fun _ _ => guarded_next _
    · exact guarded_next _
  | putArm =>
    dsimp only
    split
    · exact guarded_next _
    · exact ⟨nofun, nofun⟩

theorem execGetChar_guarded (sid : Byte) (s : State) : Guarded (execGetChar sid s) := by
  refine whenIdle_guarded ?_
  split
  · refine (popRing_guarded .rx s).andThen fun r _ => ?_
    split <;> exact guarded_next _
  · exact guarded_next _

theorem execCharsAvailable_guarded (sid : Byte) (s : State) : Guarded (execCharsAvailable sid s) := by
  refine whenIdle_guarded ?_
  split
  · exact (usedRing_guarded .rx s).andThen fun _ _ => guarded_next _
  · exact guarded_next _

theorem execRbPush_guarded (a : Agent) (q : Queue) (b : Byte) (s : State) : Guarded (execRbPush a q b s) := by
  unfold execRbPush
  split
  · exact whenAgentRuns_guarded ((pushRing_guarded q b s).andThen fun _ _ => guarded_next _)
  · exact ⟨nofun, nofun⟩

theorem execRbPop_guarded (a : Agent) (q : Queue) (s : State) : Guarded (execRbPop a q s) := by
  unfold execRbPop
  split
  · exact whenAgentRuns_guarded ((popRing_guarded q s).andThen fun _ _ => guarded_next _)
  · exact ⟨nofun, nofun⟩

theorem handlerEntry_guarded (s : State) : Guarded (handlerEntry s) := by
  unfold handlerEntry
  split <;> exact ⟨nofun, nofun⟩

theorem execIhInvoke_guarded (s : State) : Guarded (execIhInvoke s) :=
  whenReset_guarded <| (handlerEntry_guarded s).andThen fun s1 _ => (txDuty_guarded s1).andThen fun s2 _ =>
    (rxDuty_guarded s2).andThen fun _ _ => guarded_next _

theorem exec_guarded (i : Instr) (s : State) : Guarded (exec i s) := by
  cases i with
  | version => exact whenIdle_guarded (guarded_next _)
  | putChar sid b => exact execPutChar_guarded sid b s
  | getChar sid => exact execGetChar_guarded sid s
  | charsAvailable sid => exact execCharsAvailable_guarded sid s
  | invalidOp w => exact whenIdle_guarded (guarded_next _)
  | rbInit q => exact initRing_guarded q s
  | rbPush a q b => exact execRbPush_guarded a q b s
  | rbPop a q => exact execRbPop_guarded a q s
  | rbUsed q => exact (usedRing_guarded q s).andThen fun _ _ => guarded_next _
  | rbFree q => exact (freeRing_guarded q s).andThen fun _ _ => guarded_next _
  | ihInvoke => exact execIhInvoke_guarded s
  | ihTxduty => exact whenReset_guarded (txDuty_guarded s)
  | ihRxduty => exact whenReset_guarded (rxDuty_guarded s)

/-- Settles O44, operation by operation: only the duties use the UART, and they ask first. -/
theorem uartCallsAreGuarded : Obligations.UartCallsAreGuarded := fun s i => exec_guarded i s

end Sys2Proof.Machine
end

section
/-! The observation traces (log 17): they only grow, and only the transmit duty adds to `wire_tx`, one byte at most (R91,
R95). -/

namespace Sys2Proof.Machine

variable {s t : State} {o o' o'' : Obs} {m n : Nat}

/-! ### Traces that grow -/

/-- From `o` to `o'` the four traces grow at their ends, and `wire_tx` by at most `n` bytes. -/
structure Obs.Grows (n : Nat) (o o' : Obs) : Prop where
  wireTx : ∃ sent, o'.wireTx = o.wireTx ++ sent ∧ sent.length ≤ n
  wireRx : o.wireRx <+: o'.wireRx
  replies : o.replies <+: o'.replies
  ports : o.ports <+: o'.ports

theorem Obs.Grows.refl (n : Nat) (o : Obs) : o.Grows n o where
  wireTx := ⟨[], (List.append_nil _).symm, Nat.zero_le n⟩
  wireRx := List.prefix_rfl
  replies := List.prefix_rfl
  ports := List.prefix_rfl

theorem Obs.grows_of_eq (n : Nat) (h : o' = o) : o.Grows n o' := h ▸ .refl n o

theorem Obs.Grows.trans (h : o.Grows m o') (h' : o'.Grows n o'') : o.Grows (m + n) o'' where
  wireTx := by
    obtain ⟨sent, hsent, hm⟩ := h.wireTx
    obtain ⟨sent', hsent', hn⟩ := h'.wireTx
    exact ⟨sent ++ sent', by rw [hsent', hsent, List.append_assoc], by rw [List.length_append]; omega⟩
  wireRx := h.wireRx.trans h'.wireRx
  replies := h.replies.trans h'.replies
  ports := h.ports.trans h'.ports

/-- A response of the call gate. -/
theorem Obs.grows_reply {p : Reply} (h : o' = { o with replies := o.replies ++ [p] }) : o.Grows 0 o' := by
  subst h
  exact { Obs.Grows.refl 0 o with replies := List.prefix_append _ _ }

/-- A response of a port. -/
theorem Obs.grows_port {p : PortReply} (h : o' = { o with ports := o.ports ++ [p] }) : o.Grows 0 o' := by
  subst h
  exact { Obs.Grows.refl 0 o with ports := List.prefix_append _ _ }

/-! ### The shared operations -/

theorem pushRing_obs {q : Queue} {b : Byte} {k : Nat} (h : pushRing q b s = .next (k, t)) : t.obs = s.obs := by
  obtain ⟨r, rfl⟩ := pushRing_frame h
  exact setRing_obs s q r

theorem popRing_obs {q : Queue} {b : Byte} {ok : Bool} (h : popRing q s = .next (b, ok, t)) : t.obs = s.obs := by
  obtain ⟨r, d, rfl, -⟩ := popRing_frame h
  exact setRing_obs s q r

theorem initRing_obs {q : Queue} (h : initRing q s = .next t) : t.obs = s.obs := by
  obtain ⟨-, -, -, -, rfl⟩ := initRing_eq_next.1 h
  exact setRing_obs s q _

/-- The transmit duty sends nothing, or the one byte that it pops (R91). -/
theorem txDuty_grows (h : txDuty s = .next t) : s.obs.Grows 1 t.obs := by
  obtain ⟨s1, hsend, rfl⟩ := txDuty_eq_next.1 h
  obtain ⟨-, rfl⟩ | ⟨-, -, b, ok, s2, hpop, rfl⟩ := txSend_eq_next.1 hsend
  · exact .refl 1 s.obs
  · rw [← popRing_obs hpop]
    exact { Obs.Grows.refl 1 s2.obs with wireTx := ⟨[b], rfl, le_rfl⟩ }

theorem rxTake_grows (h : rxTake s = .next t) : s.obs.Grows 0 t.obs := by
  obtain ⟨b, s1, k, s2, hread, hpush, rfl⟩ := rxTake_eq_next.1 h
  obtain ⟨e, d, rfl⟩ := envReadByte_frame hread
  have hobs := pushRing_obs hpush
  dsimp only at hobs ⊢
  rw [hobs]
  exact { Obs.Grows.refl 0 s.obs with wireRx := List.prefix_append _ _ }

theorem rxDuty_grows (h : rxDuty s = .next t) : s.obs.Grows 0 t.obs :=
  rxDuty_induction (P := fun u => s.obs.Grows 0 u.obs) (fun _ _ hu htake => hu.trans (rxTake_grows htake))
    (.refl 0 s.obs) h

/-! ### The operations -/

/-- How many bytes an operation may send: one, if it runs the transmit duty. -/
def maxSent : Instr → Nat
  | .ihInvoke => 1
  | .ihTxduty => 1
  | _ => 0

theorem maxSent_of_ne_event {i : Instr} (h : i.format ≠ .event) : maxSent i = 0 := by
  cases i with
  | ihInvoke | ihTxduty => exact absurd rfl h
  | version | putChar | getChar | charsAvailable | invalidOp | rbInit | rbPush | rbPop | rbUsed | rbFree | ihRxduty =>
    rfl

theorem execPutChar_grows {sid b : Byte} (h : execPutChar sid b s = .next t) : s.obs.Grows 0 t.obs := by
  obtain ⟨-, -, ⟨-, -, hstep⟩ | ⟨-, -, rfl⟩ | ⟨-, -, rfl⟩⟩ := execPutChar_eq_next.1 h
  · obtain ⟨k, s1, hpush, rfl⟩ := putCharPush_eq_next.1 hstep
    exact Obs.grows_of_eq 0 (pushRing_obs hpush :)
  · exact Obs.grows_reply rfl
  · exact Obs.grows_reply rfl

theorem execGetChar_grows {sid : Byte} (h : execGetChar sid s = .next t) : s.obs.Grows 0 t.obs := by
  obtain ⟨-, -, -, ⟨-, b, ok, s1, hpop, hresponse⟩ | ⟨-, rfl⟩⟩ := execGetChar_eq_next.1 h
  · rw [← popRing_obs hpop]
    obtain ⟨-, rfl⟩ | ⟨-, rfl⟩ := hresponse <;> exact Obs.grows_reply rfl
  · exact Obs.grows_reply rfl

theorem execIhInvoke_grows (h : execIhInvoke s = .next t) : s.obs.Grows 1 t.obs := by
  obtain ⟨-, -, s2, s3, htx, hrx, rfl⟩ := execIhInvoke_eq_next.1 h
  exact (txDuty_grows htx).trans (rxDuty_grows hrx)

/-- Every operation only adds to the traces. -/
theorem exec_grows {i : Instr} (h : exec i s = .next t) : s.obs.Grows (maxSent i) t.obs := by
  cases i with
  | version =>
    obtain ⟨-, -, -, rfl⟩ := execVersion_eq_next.1 h
    exact Obs.grows_reply rfl
  | putChar sid b => exact execPutChar_grows h
  | getChar sid => exact execGetChar_grows h
  | charsAvailable sid =>
    obtain ⟨-, -, -, ⟨-, rfl⟩ | ⟨-, rfl⟩⟩ := execCharsAvailable_eq_next.1 h <;> exact Obs.grows_reply rfl
  | invalidOp w =>
    obtain ⟨-, -, -, rfl⟩ := execInvalidOp_eq_next.1 h
    exact Obs.grows_reply rfl
  | rbInit q => exact Obs.grows_of_eq 0 (initRing_obs h)
  | rbPush a q b =>
    obtain ⟨-, -, k, s1, hpush, rfl⟩ := execRbPush_eq_next.1 h
    rw [← pushRing_obs hpush]
    exact Obs.grows_port rfl
  | rbPop a q =>
    obtain ⟨-, -, b, ok, s1, hpop, rfl⟩ := execRbPop_eq_next.1 h
    rw [← popRing_obs hpop]
    exact Obs.grows_port rfl
  | rbUsed q =>
    obtain ⟨-, rfl⟩ := execRbUsed_eq_next.1 h
    exact Obs.grows_port rfl
  | rbFree q =>
    obtain ⟨-, rfl⟩ := execRbFree_eq_next.1 h
    exact Obs.grows_port rfl
  | ihInvoke => exact execIhInvoke_grows h
  | ihTxduty => exact txDuty_grows (execIhTxduty_eq_next.1 h).2
  | ihRxduty => exact rxDuty_grows (execIhRxduty_eq_next.1 h).2

theorem exec_grows_of_ne_event {i : Instr} (hi : i.format ≠ .event) (h : exec i s = .next t) : s.obs.Grows 0 t.obs :=
  maxSent_of_ne_event hi ▸ exec_grows h

/-! ### Turns and steps -/

theorem foregroundTurn_grows (h : foregroundTurn s = .next t) : s.obs.Grows 0 t.obs := by
  obtain ⟨-, rfl⟩ | ⟨i, s1, hfetch, hexec, rfl⟩ := foregroundTurn_eq_next.1 h
  · exact .refl 0 s.obs
  · rw [retire_obs]
    exact exec_grows_of_ne_event (by rw [fetch_format hfetch]; nofun) hexec

/-- A port carries no handler step. -/
theorem decodePort_format_ne_event {p : PortSignal} {i : Instr} (h : decodePort p = .ok i) : i.format ≠ .event := by
  rw [← encode_format i, encode_of_decodePort h]
  cases p <;> nofun

theorem portTurn_grows {p : PortSignal} (h : portTurn p s = .next t) : s.obs.Grows 0 t.obs := by
  obtain ⟨-, rfl⟩ | ⟨i, hdecode, -, hexec⟩ := portTurn_eq_next.1 h
  · exact .refl 0 s.obs
  · exact exec_grows_of_ne_event (decodePort_format_ne_event hdecode) hexec

theorem resetBlock_obs (h : resetBlock s = .next t) : t.obs = s.obs := by
  obtain ⟨s1, s2, htx, hrx, rfl⟩ := resetBlock_eq_next.1 h
  exact (initRing_obs hrx).trans (initRing_obs htx)

/-- How many bytes a turn may send. -/
def Turn.maxSent (u : Turn) : Nat := if u.transmits = true then 1 else 0

theorem runTurn_grows {u : Turn} (h : runTurn u s = .next t) : s.obs.Grows u.maxSent t.obs := by
  cases u with
  | fg => exact foregroundTurn_grows h
  | event e =>
    have hexec := exec_grows (h : exec (decodeEvent e) s = .next t)
    cases e <;> exact hexec
  | env e =>
    obtain rfl := Host.Outcome.next.inj h
    cases e <;> exact .refl 0 s.obs
  | port p => exact portTurn_grows h
  | reset => exact Obs.grows_of_eq 0 (resetBlock_obs h)

theorem eagerTurn_grows (h : eagerTurn s = .next t) : s.obs.Grows (if irq s = true then 1 else 0) t.obs := by
  obtain ⟨hirq, -, hinvoke⟩ | ⟨-, hfg⟩ := eagerTurn_eq_next.1 h
  · rw [if_pos hirq]
    exact exec_grows hinvoke
  · have hfg := foregroundTurn_grows hfg
    split
    · exact hfg.trans (.refl 1 t.obs)
    · exact hfg

/-- How many bytes the turn that the next step takes may send: in the eager order one, while the request is true. -/
def State.maxSent (s : State) : Nat :=
  match s.sched with
  | u :: _ => u.maxSent
  | [] => if irq s = true then 1 else 0

theorem maxSent_of_sched_cons {u : Turn} {us : List Turn} (h : s.sched = u :: us) : s.maxSent = u.maxSent := by
  simp only [State.maxSent, h]

theorem maxSent_of_sched_nil (h : s.sched = []) : s.maxSent = if irq s = true then 1 else 0 := by
  simp only [State.maxSent, h]

theorem step_grows (h : step s = .next t) : s.obs.Grows s.maxSent t.obs := by
  obtain ⟨u, us, hsched, hturn⟩ | ⟨hsched, hturn⟩ := step_eq_next.1 h
  · rw [maxSent_of_sched_cons hsched]
    exact (runTurn_grows hturn :)
  · rw [maxSent_of_sched_nil hsched]
    exact eagerTurn_grows hturn

/-- The next step sends at most one byte, and none unless its turn runs the transmit duty. -/
theorem maxSent_cases (s : State) :
    s.maxSent = 0 ∨ s.maxSent = 1 ∧
      ((∃ u us, s.sched = u :: us ∧ u.transmits = true) ∨ (s.sched = [] ∧ irq s = true)) := by
  cases hsched : s.sched with
  | nil =>
    rw [maxSent_of_sched_nil hsched]
    by_cases hirq : irq s = true
    · exact .inr ⟨if_pos hirq, .inr ⟨rfl, hirq⟩⟩
    · exact .inl (if_neg hirq)
  | cons u us =>
    rw [maxSent_of_sched_cons hsched]
    by_cases hu : u.transmits = true
    · exact .inr ⟨if_pos hu, .inl ⟨u, us, rfl, hu⟩⟩
    · exact .inl (if_neg hu)

/-- A run over scheduled turns sends at most as many bytes as it has transmitting turns. -/
theorem run_wireTx_length (n : Nat) :
    ∀ s t : State, n ≤ s.sched.length → run n s = .next t →
      t.obs.wireTx.length ≤ s.obs.wireTx.length + (s.sched.take n).countP Turn.transmits := by
  induction n with
  | zero =>
    rintro s t - h
    obtain rfl := Host.Outcome.next.inj h
    exact Nat.le_add_right _ _
  | succ n ih =>
    intro s t hn h
    obtain ⟨s1, hstep, hrun⟩ := run_succ_eq_next.1 h
    obtain ⟨u, us, hsched⟩ := List.exists_cons_of_length_pos (Nat.lt_of_lt_of_le (Nat.succ_pos n) hn)
    have hsched1 : s1.sched = us := by rw [step_sched hstep, hsched, List.tail_cons]
    obtain ⟨sent, hsent, hlength⟩ := (step_grows hstep).wireTx
    have hrest := ih s1 t (by simpa [hsched1, hsched] using hn) hrun
    rw [maxSent_of_sched_cons hsched, Turn.maxSent] at hlength
    rw [hsent, List.length_append, hsched1] at hrest
    rw [hsched, List.take_succ_cons, List.countP_cons]
    omega

/-- Settles O55: what a step adds to the traces, and the sum over a run. -/
theorem atMostOneByteSentPerStep : Obligations.AtMostOneByteSentPerStep := by
  refine ⟨fun s t h => ?_, run_wireTx_length⟩
  obtain ⟨⟨sent, hsent, hlength⟩, hwireRx, hreplies, hports⟩ := step_grows h
  refine ⟨⟨sent, hsent, ?_⟩, hwireRx, hreplies, hports⟩
  obtain hnone | ⟨hone, hturn⟩ := maxSent_cases s
  · have hnil : sent = [] := List.eq_nil_of_length_eq_zero (by omega)
    exact ⟨by omega, fun hsome => absurd hnil hsome⟩
  · exact ⟨hone ▸ hlength, fun _ => hturn⟩

end Sys2Proof.Machine
end

section
/-! Draining `tx` (R91, R99): what a transmitting turn does to a hardware that is writable, invocations in a row, and the
eager order (R115, R142). -/

namespace Sys2Proof.Machine

variable {s t : State}

/-! ### One transmitting turn -/

/-- With a writable hardware the transmit duty leaves one byte less, if there is one. -/
theorem txDuty_occ_of_writable (hw : s.env.writable = true) (h : txDuty s = .next t) : t.tx.occ = s.tx.occ - 1 := by
  obtain ⟨s1, hsend, rfl⟩ := txDuty_eq_next.1 h
  obtain ⟨hnone, rfl⟩ | ⟨ho, -, b, ok, s2, hpop, rfl⟩ := txSend_eq_next.1 hsend
  · obtain hempty | hnot := hnone
    · simp [hempty]
    · simp [hw] at hnot
  · obtain ⟨-, ⟨hempty, -⟩ | ⟨-, -, -, ⟨-, rfl⟩ | ⟨-, -, rfl⟩⟩⟩ := popRing_eq_next.1 hpop
    · exact absurd hempty ho
    · rfl
    · rfl

theorem rxDuty_tx (h : rxDuty s = .next t) : t.tx = s.tx := by
  obtain ⟨r, e, d, c, w, rfl⟩ := rxDuty_frame h
  rfl

theorem exec_ihInvoke_occ (hw : s.env.writable = true) (h : exec .ihInvoke s = .next t) :
    t.tx.occ = s.tx.occ - 1 := by
  obtain ⟨-, -, s2, s3, htx, hrx, rfl⟩ := execIhInvoke_eq_next.1 h
  rw [handlerReturn_tx, rxDuty_tx hrx]
  exact (txDuty_occ_of_writable (s := { s with ih := { active := true } }) hw htx :)

theorem transmits_cases {u : Turn} (h : u.transmits = true) : u = .event .invoke ∨ u = .event .txduty := by
  cases u with
  | event e =>
    cases e with
    | invoke => exact .inl rfl
    | txduty => exact .inr rfl
    | rxduty => cases h
  | fg | env | port | reset => cases h

/-- With a writable hardware a transmitting turn moves the oldest byte, if there is one, from `tx` to the wire. -/
theorem runTurn_transmits {u : Turn} (hu : u.transmits = true) (hs : s.Inv) (hw : s.env.writable = true)
    (h : runTurn u s = .next t) : t.tx.occ = s.tx.occ - 1 ∧ txHistory t = txHistory s := by
  obtain rfl | rfl := transmits_cases hu
  · exact ⟨exec_ihInvoke_occ hw h, exec_event_txHistory (i := .ihInvoke) rfl hs h⟩
  · exact ⟨txDuty_occ_of_writable hw (execIhTxduty_eq_next.1 h).2, exec_event_txHistory (i := .ihTxduty) rfl hs h⟩

/-- The history counts the bytes on the wire and those queued. -/
theorem txHistory_length (s : State) : (txHistory s).length = s.obs.wireTx.length + s.tx.occ := by
  rw [txHistory, List.length_append, List.length_map, contents_length]

/-- What left the queue is on the wire: the oldest bytes, in order. -/
theorem wireTx_of_txHistory {k : Nat} (hhist : txHistory t = txHistory s) (hocc : t.tx.occ + k = s.tx.occ) :
    t.obs.wireTx.map some = s.obs.wireTx.map some ++ s.tx.contents.take k := by
  have hlength := congrArg List.length hhist
  rw [txHistory_length, txHistory_length] at hlength
  have hwire : t.obs.wireTx.length = (s.obs.wireTx.map some).length + k := by rw [List.length_map]; omega
  calc t.obs.wireTx.map some
      = (txHistory t).take t.obs.wireTx.length := (List.take_left' (List.length_map _)).symm
    _ = s.obs.wireTx.map some ++ s.tx.contents.take k := by rw [hhist, hwire, txHistory, List.take_length_add_append]

/-- With a writable hardware and bytes queued, a step that takes a transmitting turn puts more on the wire. -/
theorem step_wireTx_length_lt {u : Turn} {us : List Turn} (hsched : s.sched = u :: us) (hu : u.transmits = true)
    (hs : s.Inv) (hw : s.env.writable = true) (ho : s.tx.occ ≠ 0) (h : step s = .next t) :
    s.obs.wireTx.length < t.obs.wireTx.length := by
  have hpopped : State.Inv { s with sched := us } := { hs with }
  have hturn : runTurn u { s with sched := us } = .next t := (step_of_sched_cons hsched).symm.trans h
  have hmoved : t.tx.occ = s.tx.occ - 1 ∧ txHistory t = txHistory s :=
    (runTurn_transmits hu hpopped hw hturn :)
  obtain ⟨hocc, hhist⟩ := hmoved
  have hlength := congrArg List.length hhist
  rw [txHistory_length, txHistory_length, hocc] at hlength
  omega

/-! ### Invocations in a row -/

/-- What an invocation needs of ENV to send a byte and to end. -/
structure Receptive (s : State) : Prop where
  inv : s.Inv
  writable : s.env.writable = true
  finite : s.env.endless = false

/-- An invocation of a receptive state sends the oldest byte, reads all that waits, and leaves a receptive state. -/
theorem exec_ihInvoke_receptive (hs : Receptive s) :
    ∃ t, exec .ihInvoke s = .next t ∧ Receptive t ∧ t.env.rxq = [] ∧ t.tx.occ = s.tx.occ - 1 ∧
      txHistory t = txHistory s ∧ t.txie = decide (t.tx.occ ≠ 0) ∧ t.fg = s.fg ∧ t.sched = s.sched := by
  obtain ⟨t, hsend, -, hinvoke⟩ :=
    exec_ihInvoke_drains (hs.inv.inService .tx) (hs.inv.inService .rx) hs.inv.inactive hs.finite
  have henv : t.env = s.env := txDuty_env (execIhTxduty_eq_next.1 hsend).2
  have hreceptive : Receptive t.drained :=
    ⟨exec_inv hs.inv hinvoke, (congrArg Env.writable henv).trans hs.writable,
      (congrArg Env.endless henv).trans hs.finite⟩
  exact ⟨t.drained, hinvoke, hreceptive, rfl, exec_ihInvoke_occ hs.writable hinvoke,
    exec_event_txHistory rfl hs.inv hinvoke, execIhInvoke_txie hinvoke, exec_event_fg rfl hinvoke, exec_sched hinvoke⟩

/-- `k` invocations in a row leave `k` bytes less, and TXIE right if it was right before or there was one. -/
theorem run_invocations (k : Nat) :
    ∀ (s : State) (ts : List Turn), Receptive s → s.sched = List.replicate k (.event .invoke) ++ ts →
      ∃ t, run k s = .next t ∧ t.sched = ts ∧ t.tx.occ = s.tx.occ - k ∧ txHistory t = txHistory s ∧
        (s.txie = decide (s.tx.occ ≠ 0) ∨ 0 < k → t.txie = decide (t.tx.occ ≠ 0)) := by
  induction k with
  | zero => exact fun s ts _ hsched => ⟨s, run_zero s, hsched, rfl, rfl, fun h => h.resolve_right (Nat.lt_irrefl 0)⟩
  | succ k ih =>
    intro s ts hs hsched
    obtain ⟨hinv, hw, hfinite⟩ := hs
    obtain ⟨s1, hinvoke, hs1, -, hocc1, hhist1, htxie1, -, hsched1⟩ :=
      exec_ihInvoke_receptive (s := { s with sched := List.replicate k (.event .invoke) ++ ts })
        ⟨{ hinv with }, hw, hfinite⟩
    obtain ⟨t, hrun, hschedt, hocct, hhistt, htxiet⟩ := ih s1 ts hs1 hsched1
    have hstep : step s = .next s1 := (step_of_sched_cons hsched).trans hinvoke
    have hocc : t.tx.occ = s.tx.occ - (k + 1) := by rw [hocct, hocc1, Nat.sub_sub, Nat.add_comm]
    exact ⟨t, (run_succ_of_next hstep).trans hrun, hschedt, hocc, hhistt.trans hhist1, fun _ => htxiet (.inl htxie1)⟩

/-! ### The eager order -/

/-- The eager order with nothing for the foreground to do and a hardware that is writable. -/
structure EagerOnly (s : State) : Prop where
  safe : Safe s
  noTurn : s.sched = []
  noCommand : s.fg.cmds = []
  writable : s.env.writable = true

/-- With no command at the gate none is in flight. -/
theorem EagerOnly.idle (hs : EagerOnly s) : s.fg.phase = .idle := by
  cases hphase : s.fg.phase with
  | idle => rfl
  | putArm =>
    obtain ⟨⟨b, hfetch⟩, -⟩ := hs.safe.inFlight hphase
    simp [fetch, hs.noCommand] at hfetch

/-- With the hardware writable and its reads finite, the request says whether `tx` is armed or a byte waits (R112). -/
theorem EagerOnly.irq_eq_false_iff (hs : EagerOnly s) : irq s = false ↔ s.txie = false ∧ s.env.rxq = [] := by
  have hfinite := hs.safe.finiteReads.1
  simp [irq, envIsWritable, envIsReadable, hs.writable, hs.safe.inv.rxie, hfinite]

theorem EagerOnly.invokes (hs : EagerOnly s) (hirq : irq s = true) :
    ∃ t, step s = .next t ∧ EagerOnly t ∧ t.env.rxq = [] ∧ t.tx.occ = s.tx.occ - 1 ∧ txHistory t = txHistory s ∧
      t.txie = decide (t.tx.occ ≠ 0) := by
  obtain ⟨t, hinvoke, hreceptive, hrxq, hocc, hhist, htxie, hfg, hsched⟩ :=
    exec_ihInvoke_receptive ⟨hs.safe.inv, hs.writable, hs.safe.finiteReads.1⟩
  have hstep : step s = .next t :=
    step_eq_next.2 (.inr ⟨hs.noTurn, eagerTurn_eq_next.2 (.inl ⟨hirq, hs.safe.inv.inactive, hinvoke⟩)⟩)
  exact ⟨t, hstep, ⟨step_safe hs.safe hstep, hsched.trans hs.noTurn, hfg ▸ hs.noCommand, hreceptive.writable⟩, hrxq,
    hocc, hhist, htxie⟩

theorem EagerOnly.rests (hs : EagerOnly s) (hirq : irq s = false) : step s = .next s :=
  step_eq_next.2 (.inr ⟨hs.noTurn, eagerTurn_eq_next.2
    (.inr ⟨by simp [hirq], foregroundTurn_eq_next.2 (.inl ⟨hs.noCommand, rfl⟩)⟩)⟩)

/-- At rest in the eager order: `tx` sent, nothing to read, and so no request. -/
structure AtRest (s : State) : Prop extends EagerOnly s where
  empty : s.tx.occ = 0
  disarmed : s.txie = false
  read : s.env.rxq = []

theorem AtRest.quiescent (hs : AtRest s) : Quiescent s where
  idle := hs.toEagerOnly.idle
  noCommand := hs.noCommand
  inactive := hs.safe.inv.inactive
  noRequest := hs.toEagerOnly.irq_eq_false_iff.2 ⟨hs.disarmed, hs.read⟩

/-- One step after `tx` is empty the eager order is at rest: the step is the last invocation, or there was no request. -/
theorem EagerOnly.step_of_empty (hs : EagerOnly s) (hempty : s.tx.occ = 0) :
    ∃ t, step s = .next t ∧ AtRest t ∧ txHistory t = txHistory s := by
  cases hirq : irq s with
  | true =>
    obtain ⟨t, hstep, ht, hread, hocc, hhist, htxie⟩ := hs.invokes hirq
    rw [hempty] at hocc
    exact ⟨t, hstep, ⟨ht, hocc, by simp [htxie, hocc], hread⟩, hhist⟩
  | false =>
    obtain ⟨hdisarmed, hread⟩ := hs.irq_eq_false_iff.1 hirq
    exact ⟨s, hs.rests hirq, ⟨hs, hempty, hdisarmed, hread⟩, rfl⟩

/-- While bytes are queued the handshake keeps the request true (R98), so every step is an invocation. -/
theorem EagerOnly.run_to_rest (n : Nat) :
    ∀ s : State, EagerOnly s → s.tx.occ = n → ∃ t, run (n + 1) s = .next t ∧ AtRest t ∧ txHistory t = txHistory s := by
  induction n with
  | zero =>
    intro s hs hempty
    obtain ⟨t, hstep, ht, hhist⟩ := hs.step_of_empty hempty
    exact ⟨t, run_succ_of_next hstep, ht, hhist⟩
  | succ n ih =>
    intro s hs hocc
    have harmed : s.txie = true := hs.safe.handshake hs.idle (by omega)
    have hirq : irq s = true := by simp [irq, envIsWritable, harmed, hs.writable]
    obtain ⟨s1, hstep, hs1, -, hocc1, hhist1, -⟩ := hs.invokes hirq
    obtain ⟨t, hrun, ht, hhist⟩ := ih s1 hs1 (by omega)
    exact ⟨t, (run_succ_of_next hstep).trans hrun, ht, hhist.trans hhist1⟩

/-- Settles O59: the run to rest, whose history is all on the wire. -/
theorem eagerRunReachesQuiescence : Obligations.EagerRunReachesQuiescence := by
  intro s hsafe hsched hcmds hw
  obtain ⟨t, hrun, ht, hhist⟩ := EagerOnly.run_to_rest _ s ⟨hsafe, hsched, hcmds, hw⟩ rfl
  refine ⟨t, hrun, ht.quiescent, ht.empty, ht.disarmed, ht.read, ?_⟩
  rw [wireTx_of_txHistory hhist (k := s.tx.occ) (by rw [ht.empty, Nat.zero_add]), ← contents_length, List.take_length]

end Sys2Proof.Machine
end

section
/-! Executions without end (R144, R99): what stands along every one of them, and when `tx` is delivered. -/

namespace Sys2Proof.Machine

/-! ### One step -/

theorem given_inv {s : State} (hs : s.Inv) (u : Turn) (ws : List Word) : (s.given u ws).Inv := { hs with }

theorem given_roles {u : Turn} (hu : u.inContract = true) (s : State) (ws : List Word) : Roles (s.given u ws) :=
  fun _ hv => List.mem_singleton.1 hv ▸ hu

/-- A step that leaves `tx` non-empty leaves it armed if it was (R98). -/
theorem step_armed {s t : State} (hroles : Roles s) (harmed : s.txie = true) (h : step s = .next t)
    (hqueued : t.tx.occ ≠ 0) : t.txie = true := by
  obtain hfg | ⟨i, hi, hexec⟩ | ⟨c, rfl⟩ := step_of_roles hroles h
  · obtain ⟨-, rfl⟩ | ⟨i, s1, hfetch, hexec, rfl⟩ := foregroundTurn_eq_next.1 hfg
    · exact harmed
    · rw [retire_txie]
      exact exec_cg_txie (fetch_format hfetch) hexec harmed
  · have htxie := txieHasTwoWriters _ t i hexec
    cases i with
    | ihInvoke | ihTxduty => exact htxie.trans (decide_eq_true hqueued)
    | ihRxduty => exact htxie.trans harmed
    | version | putChar | getChar | charsAvailable | invalidOp | rbInit | rbPush | rbPop | rbUsed | rbFree => cases hi
  · cases c <;> exact harmed

namespace Execution

variable {e : Execution}

/-! ### Along an execution -/

/-- What holds at reset and every step of the machine keeps, whatever is supplied for it, holds along the execution. -/
theorem always (e : Execution) {P : State → Prop} (hreset : P (e.state 0))
    (hstep : ∀ n s, P (e.state n) → step ((e.state n).given (e.turn n) (e.words n)) = .next s → P s) (n : Nat) :
    P (e.state n) := by
  induction n with
  | zero => exact hreset
  | succ n ih => exact hstep n _ ih (e.steps n)

theorem inv (hreset : e.PReset) (n : Nat) : (e.state n).Inv := by
  refine e.always (P := State.Inv) ?_ (fun n s hs => everyStepKeepsTheInvariant _ s (given_inv hs _ _)) n
  rw [hreset]
  exact startState_inv [] []

theorem handshake (hreset : e.PReset) (hroles : e.PRoles) (n : Nat) : Handshake (e.state n) := by
  refine e.always (P := Handshake) ?_ (fun n s hs => step_handshake (given_roles (hroles n) _ _) hs) n
  rw [hreset]
  exact fun _ hqueued => absurd rfl hqueued

theorem txHistory_step (hreset : e.PReset) (hroles : e.PRoles) (n : Nat) :
    txHistory (e.state n) <+: txHistory (e.state (n + 1)) := by
  obtain ⟨accepted, hhist, -⟩ := step_txGrows (given_inv (inv hreset n) _ _) (given_roles (hroles n) _ _) (e.steps n)
  exact ⟨accepted.map some, hhist.symm⟩

theorem txHistory_grows (hreset : e.PReset) (hroles : e.PRoles) {n m : Nat} (h : n ≤ m) :
    txHistory (e.state n) <+: txHistory (e.state m) := by
  induction m, h using Nat.le_induction with
  | base => exact List.prefix_rfl
  | succ m _ ih => exact ih.trans (txHistory_step hreset hroles m)

theorem wireTx_length_mono (e : Execution) : Monotone fun n => (e.state n).obs.wireTx.length := by
  refine monotone_nat_of_le_succ fun n => ?_
  obtain ⟨sent, hsent, -⟩ := (step_grows (e.steps n)).wireTx
  have hlength := congrArg List.length hsent
  rw [List.length_append] at hlength
  exact hlength ▸ Nat.le_add_right _ _

/-! ### Sending -/

/-- In step `n` the hardware is asked and is writable. -/
def Sends (e : Execution) (n : Nat) : Prop := e.Asks n ∧ envIsWritable (e.state n) = true

/-- An execution that sends in step `n` has more on the wire after it. -/
theorem Sends.wireTx_length_lt {n : Nat} (hreset : e.PReset) (h : e.Sends n) :
    (e.state n).obs.wireTx.length < (e.state (n + 1)).obs.wireTx.length := by
  obtain ⟨⟨hturn, hqueued⟩, hw⟩ := h
  exact (step_wireTx_length_lt (s := (e.state n).given (e.turn n) (e.words n)) rfl hturn
    (given_inv (inv hreset n) _ _) hw hqueued (e.steps n) :)

/-- An execution that sends again and again puts any number of bytes on the wire. -/
theorem wireTx_length_unbounded (hreset : e.PReset) {n : Nat} (hsends : ∀ m ≥ n, ∃ k ≥ m, e.Sends k) (L : Nat) :
    ∃ m ≥ n, L ≤ (e.state m).obs.wireTx.length := by
  induction L with
  | zero => exact ⟨n, le_rfl, Nat.zero_le _⟩
  | succ L ih =>
    obtain ⟨m, hm, hL⟩ := ih
    obtain ⟨k, hk, hsend⟩ := hsends m hm
    have hmono : (e.state m).obs.wireTx.length ≤ (e.state k).obs.wireTx.length := wireTx_length_mono e hk
    exact ⟨k + 1, by omega, hL.trans_lt (hmono.trans_lt (hsend.wireTx_length_lt hreset))⟩

/-- Once as many bytes are on the wire as a history holds, they are that history. -/
theorem delivered_of_length (hreset : e.PReset) (hroles : e.PRoles) {n m : Nat} (hnm : n ≤ m)
    (h : (txHistory (e.state n)).length ≤ (e.state m).obs.wireTx.length) :
    txHistory (e.state n) <+: (e.state m).obs.wireTx.map some :=
  List.prefix_of_prefix_length_le (txHistory_grows hreset hroles hnm) (List.prefix_append _ _)
    (by rwa [List.length_map])

/-- Every byte is delivered if, as long as `tx` is never empty, the execution sends again and again. -/
theorem delivers_of_sends (hreset : e.PReset) (hroles : e.PRoles)
    (hsends : ∀ n, (∀ k ≥ n, (e.state k).tx.occ ≠ 0) → ∀ m ≥ n, ∃ k ≥ m, e.Sends k) : e.Delivers := by
  intro n
  by_contra hnever
  have hshort (m : Nat) (hm : m ≥ n) : (e.state m).obs.wireTx.length < (txHistory (e.state n)).length :=
    Nat.lt_of_not_le fun hle => hnever ⟨m, hm, delivered_of_length hreset hroles hm hle⟩
  have hqueued (k : Nat) (hk : k ≥ n) : (e.state k).tx.occ ≠ 0 := by
    have hgrown := (txHistory_grows hreset hroles hk).length_le
    rw [txHistory_length (e.state k)] at hgrown
    have hk := hshort k hk
    omega
  obtain ⟨m, hm, hlong⟩ := wireTx_length_unbounded hreset (hsends n hqueued) (txHistory (e.state n)).length
  exact absurd hlong (Nat.not_le.2 (hshort m hm))

/-! ### Under P_E3, with invocations that go on for ever -/

theorem sends_of_pE3 (hE3 : e.PE3) (hinvokes : e.InvokesForever) {n : Nat}
    (hqueued : ∀ k ≥ n, (e.state k).tx.occ ≠ 0) (m : Nat) : ∃ k ≥ m, e.Sends k := by
  refine hE3 (fun j => ?_) m
  obtain ⟨k, hk, hturn⟩ := hinvokes (max j n)
  exact ⟨k, le_of_max_le_left hk, by rw [hturn]; rfl, hqueued k (le_of_max_le_right hk)⟩

/-! ### Under P_FAIR and P_FGDONE, with a hardware that becomes writable until it is asked -/

/-- A `tx` that is never empty is armed at the latest when the foreground is back in IDLE, and then stays so. -/
theorem eventually_armed (hreset : e.PReset) (hroles : e.PRoles) (hdone : e.PFgDone) {n : Nat}
    (hqueued : ∀ k ≥ n, (e.state k).tx.occ ≠ 0) : ∃ m ≥ n, ∀ k ≥ m, (e.state k).txie = true := by
  have hidle : ∃ m ≥ n, (e.state m).fg.phase = .idle := by
    cases hphase : (e.state n).fg.phase with
    | idle => exact ⟨n, le_rfl, hphase⟩
    | putArm => exact hdone n hphase
  obtain ⟨m, hm, hidle⟩ := hidle
  refine ⟨m, hm, fun k hk => ?_⟩
  induction k, hk using Nat.le_induction with
  | base => exact handshake hreset hroles m hidle (hqueued m hm)
  | succ k hk ih =>
    exact step_armed (given_roles (hroles k) _ _) ih (e.steps k) (hqueued (k + 1) (by omega))

/-- Once the hardware stays writable until it is asked, it is asked: else the request stays true, and fairness starts an
invocation. -/
theorem asks_of_staysWritable (hfair : e.PFair) {m : Nat} (hqueued : ∀ k ≥ m, (e.state k).tx.occ ≠ 0)
    (harmed : ∀ k ≥ m, (e.state k).txie = true)
    (hw : ∀ k ≥ m, (∀ j, m ≤ j → j < k → ¬e.Asks j) → envIsWritable (e.state k) = true) : ∃ k ≥ m, e.Asks k := by
  by_contra hnever
  have hnone (j : Nat) (hj : m ≤ j) : ¬e.Asks j := fun hasks => hnever ⟨j, hj, hasks⟩
  have hirq (k : Nat) (hk : k ≥ m) : irq (e.state k) = true := by
    simp [irq, harmed k hk, hw k hk fun j hj _ => hnone j hj]
  obtain ⟨k, hk, hturn⟩ := hfair m hirq
  exact hnone k hk ⟨by rw [hturn]; rfl, hqueued k hk⟩

/-- The first time the hardware is asked, it is still writable. -/
theorem sends_of_staysWritable (hreset : e.PReset) (hroles : e.PRoles) (hfair : e.PFair) (hdone : e.PFgDone)
    (hstays : e.StaysWritable) {n : Nat} (hqueued : ∀ k ≥ n, (e.state k).tx.occ ≠ 0) (m : Nat) :
    ∃ k ≥ m, e.Sends k := by
  obtain ⟨a, ha, harmed⟩ := eventually_armed hreset hroles hdone hqueued
  obtain ⟨w, hw, hwritable⟩ := hstays (max a m)
  have haw : a ≤ w := le_of_max_le_left hw
  have hasks := asks_of_staysWritable hfair (fun k hk => hqueued k (ha.trans (haw.trans hk)))
    (fun k hk => harmed k (haw.trans hk)) hwritable
  classical
  obtain ⟨hk, hfirst⟩ := Nat.find_spec hasks
  exact ⟨Nat.find hasks, (le_of_max_le_right hw).trans hk, hfirst,
    hwritable _ hk fun j hj hlt hask => Nat.find_min hasks hlt ⟨hj, hask⟩⟩

end Execution

/-- Settles O58: invocations in a row by induction on their number; without end, a history that is never delivered would
leave `tx` non-empty for ever, and either pair of premises then sends again and again. -/
theorem invocationsDrainTheQueue : Obligations.InvocationsDrainTheQueue := by
  refine ⟨fun k s ts hs hw hfinite hk hsched => ?_, fun e hreset hroles hE3 hinvokes => ?_,
    fun e hreset hroles hfair hdone hstays => ?_⟩
  · obtain ⟨t, hrun, hschedt, hocc, hhist, htxie⟩ := run_invocations k s ts ⟨hs, hw, hfinite⟩ hsched
    exact ⟨t, hrun, hschedt, hocc, wireTx_of_txHistory hhist (by omega), fun hpos => htxie (.inr hpos)⟩
  · exact Execution.delivers_of_sends hreset hroles fun _ hqueued m _ =>
      Execution.sends_of_pE3 hE3 hinvokes hqueued m
  · exact Execution.delivers_of_sends hreset hroles fun _ hqueued m _ =>
      Execution.sends_of_staysWritable hreset hroles hfair hdone hstays hqueued m

end Sys2Proof.Machine
end

section
/-! The interrupt request and the two answers of ENV it is made of (R16 to R19, R95, R112). -/

namespace Sys2Proof.Machine

variable {s : State}

/-- ENV has two reasons to answer readable: a byte waits, or bytes come for ever (log 8). -/
theorem envIsReadable_iff :
    envIsReadable s = true ↔ (∃ b rest, s.env.rxq = b :: rest) ∨ s.env.endless = true := by
  rw [← List.ne_nil_iff_exists_cons]
  simp [envIsReadable, or_comm]

/-- Each source requests when its enable is set and ENV answers it (R112). -/
theorem irq_iff :
    irq s = true ↔ (s.txie = true ∧ envIsWritable s = true) ∨ (s.rxie = true ∧ envIsReadable s = true) := by
  simp [irq]

/-- Settles O42: the two sources of the request, the second with ENV's two reasons to answer readable. -/
theorem interruptRequestEquation : Obligations.InterruptRequestEquation := by
  intro s
  rw [irq_iff, envIsReadable_iff, envIsWritable]

end Sys2Proof.Machine
end

section
/-! Before the reset (R131, U5): a command, a handler step and each operation of a queue test `isReset` before anything
else of the state. Only a push or pop port asks first whether an invocation suspends its driver (R22). -/

namespace Sys2Proof.Machine

variable {s : State}

/-! ### The guard of a command and the operations of a queue -/

theorem whenForegroundRuns_of_not_isReset (k : Res State) (hr : isReset s = false) :
    whenForegroundRuns s k = .refused .notReset :=
  if_pos hr

theorem pushRing_of_not_isReset (q : Queue) (b : Byte) (hr : isReset s = false) :
    pushRing q b s = .refused .notReset :=
  if_pos hr

theorem popRing_of_not_isReset (q : Queue) (hr : isReset s = false) : popRing q s = .refused .notReset :=
  if_pos hr

theorem usedRing_of_not_isReset (q : Queue) (hr : isReset s = false) : usedRing q s = .refused .notReset :=
  if_pos hr

theorem freeRing_of_not_isReset (q : Queue) (hr : isReset s = false) : freeRing q s = .refused .notReset :=
  if_pos hr

/-! ### The operations, by what carries them -/

theorem exec_cg_of_not_isReset {i : Instr} (hr : isReset s = false) (hi : i.format = .cg) :
    exec i s = .refused .notReset := by
  cases i with
  | version | putChar | getChar | charsAvailable | invalidOp => exact whenForegroundRuns_of_not_isReset _ hr
  | rbInit | rbPush | rbPop | rbUsed | rbFree | ihInvoke | ihTxduty | ihRxduty => cases hi

theorem exec_event_of_not_isReset {i : Instr} (hr : isReset s = false) (hi : i.format = .event) :
    exec i s = .refused .notReset := by
  have hnot : ¬isReset s = true := by simp [hr]
  cases i with
  | ihInvoke | ihTxduty | ihRxduty => exact if_neg hnot
  | version | putChar | getChar | charsAvailable | invalidOp | rbInit | rbPush | rbPop | rbUsed | rbFree => cases hi

/-- Settles O13, operation by operation: a command or a handler step meets its own guard; a port, driven by the agent
that it is bound to, is refused by its queue. -/
theorem nothingRunsBeforeReset : Obligations.NothingRunsBeforeReset := by
  intro s i hr ha hwf hinit
  cases i with
  | version | putChar | getChar | charsAvailable | invalidOp => exact exec_cg_of_not_isReset hr rfl
  | ihInvoke | ihTxduty | ihRxduty => exact exec_event_of_not_isReset hr rfl
  | rbInit q => exact absurd rfl (hinit q)
  | rbPush a q b =>
    obtain rfl : a = q.producer := of_decide_eq_true hwf
    rw [exec_rbPush_producer b ha, pushRing_of_not_isReset q b hr, andThen_refused]
  | rbPop a q =>
    obtain rfl : a = q.consumer := of_decide_eq_true hwf
    rw [exec_rbPop_consumer ha, popRing_of_not_isReset q hr, andThen_refused]
  | rbUsed q =>
    change execRbUsed q s = _
    rw [execRbUsed, usedRing_of_not_isReset q hr, andThen_refused]
  | rbFree q =>
    change execRbFree q s = _
    rw [execRbFree, freeRing_of_not_isReset q hr, andThen_refused]

end Sys2Proof.Machine
end
